-- ==== Sys2Proof/Word.lean ====
section
/-!
DEFINITION. The word types of the MPID: bus words, limbs, bytes, the 64-bit intermediate, and register numbers
(spec/00_scope.md R5, R6, R8; spec/30_encoding.md R101).
-/

namespace Sys2Proof

/-- WORD = 32: the bus data path, every control register, every limb's storage word (R5). -/
abbrev Word := BitVec 32

/-- LIMB_BITS = 31: the significant bits of a limb; bit 31 of its storage word is hardwired 0 (R5, R33). -/
abbrev Limb := BitVec 31

/-- The 64-bit intermediate of the shifter and the multiplier (R6). -/
abbrev Wide := BitVec 64

/-- One byte lane of the bus (R78). -/
abbrev Byte := BitVec 8

/-- The index of a value register V0..V15; NREG = 16 (R5, R31). -/
abbrev Reg := Fin 16

end Sys2Proof
end

