-- ==== Sys2Proof/Syntax.lean ====
section
/-!
DEFINITION. The commands of the MPID, one constructor per row of spec/opcode_table.json (spec/30_encoding.md R105),
with the operands of the row's format in the assembler's order rd, rd2, rs1, rs2 (R102, R109).
-/

namespace Sys2Proof

/-- A command. Every field is the index of a value register; there is no other operand form (R101). -/
inductive Instr where
  | nop
  | mov (rd rs1 : Reg)
  | ldi (rd : Reg)
  | add (rd rs1 rs2 : Reg)
  | sub (rd rs1 rs2 : Reg)
  | cmp (rs1 rs2 : Reg)
  | cmpm (rs1 rs2 : Reg)
  | bits (rs1 : Reg)
  | shl (rd rs1 : Reg)
  | shr (rd rs1 : Reg)
  | mul (rd rs1 rs2 : Reg)
  | div (rd rd2 rs1 rs2 : Reg)
  | diva (rd rs1 rs2 : Reg)
  | divx (rd rd2 rs1 rs2 : Reg)
  | remove (rd rs1 rs2 : Reg)
  | pow (rd rs1 : Reg)
  | sqrt (rd rd2 rs1 : Reg)
  | cbrt (rd rd2 rs1 : Reg)
  | root (rd rd2 rs1 : Reg)
  deriving DecidableEq, Repr

/-- The formats of R102: which register fields a command uses (D a first destination, a second D the second
destination, S the sources). -/
inductive Format where
  | n | d | ds | dss | ddss | dds | s | ss
  deriving DecidableEq, Repr

/-- A row of the opcode map (R105). `make` puts the fields rd, rd2, rs1, rs2 where the row's format uses them. -/
structure Row where
  mnemonic : String
  op : BitVec 8
  format : Format
  make : Reg → Reg → Reg → Reg → Instr

/-- Why a word is ILLEGAL (spec/60_exceptions.md R302): the machine reports one code for all three (log 19). -/
inductive IllegalReason where
  /-- a bit of [31:24] is set (R104) -/
  | reservedBits
  /-- an opcode R105 does not list (R106) -/
  | reservedOpcode
  /-- a field the format does not use is not 0 (R103) -/
  | unusedField
  deriving DecidableEq, Repr

end Sys2Proof
end

