-- ==== Sys2Proof/WellFormed.lean ====
section
/-!
DEFINITION. Which commands can be executed without being turned away for what their word says. Register indices are in
range by their type; what is left is spec/60_exceptions.md R303: the two destinations may not coincide.
-/

namespace Sys2Proof

/-- The one check on a command's fields: a command with two destinations names two registers (R303). A command that
fails it decodes all the same and completes with the fault ALIAS. -/
def Instr.wellFormed : Instr → Bool
  | .nop => true
  | .mov _ _ => true
  | .ldi _ => true
  | .add _ _ _ => true
  | .sub _ _ _ => true
  | .cmp _ _ => true
  | .cmpm _ _ => true
  | .bits _ => true
  | .shl _ _ => true
  | .shr _ _ => true
  | .mul _ _ _ => true
  | .div rd rd2 _ _ => rd != rd2
  | .diva _ _ _ => true
  | .divx rd rd2 _ _ => rd != rd2
  | .remove _ _ _ => true
  | .pow _ _ => true
  | .sqrt rd rd2 _ => rd != rd2
  | .cbrt rd rd2 _ => rd != rd2
  | .root rd rd2 _ => rd != rd2

end Sys2Proof
end

