-- ==== Sys2Proof/Decode.lean ====
section
/-!
DEFINITION. Command words: the field layout (spec/30_encoding.md R101), the formats' masks (R102), the opcode map
(R105), the decoder, total on every word and rejecting by name (R107, R302), and the encoder; the assembler's
spelling of a command (R109).
-/

namespace Sys2Proof

/-! ## Fields (R101) -/

/-- The 4-bit register field that starts at bit `lo`. -/
def regField (lo : Nat) (w : Word) : Reg := (w.extractLsb' lo 4).toFin

/-- OP, bits [7:0]. -/
def opField (w : Word) : BitVec 8 := w.extractLsb' 0 8

/-- RD, bits [11:8]. -/
def rdField (w : Word) : Reg := regField 8 w

/-- RS1, bits [15:12]. -/
def rs1Field (w : Word) : Reg := regField 12 w

/-- RS2, bits [19:16]. -/
def rs2Field (w : Word) : Reg := regField 16 w

/-- RD2, bits [23:20]. -/
def rd2Field (w : Word) : Reg := regField 20 w

/-- RSV, bits [31:24]. -/
def rsvField (w : Word) : BitVec 8 := w.extractLsb' 24 8

/-- The four bits of a register field. -/
def regBits (r : Reg) : BitVec 4 := BitVec.ofFin r

/-- The word with the given fields and RSV = 0. -/
def packWord (op : BitVec 8) (rd rd2 rs1 rs2 : Reg) : Word :=
  0#8 ++ regBits rd2 ++ regBits rs2 ++ regBits rs1 ++ regBits rd ++ op

/-! ## Formats and the opcode map (R102, R105) -/

/-- The bits of a word that must match its row (R102). -/
def Format.mask : Format → Word
  | .n => 0xFFFFFFFF
  | .d => 0xFFFFF0FF
  | .ds => 0xFFFF00FF
  | .dss => 0xFFF000FF
  | .ddss => 0xFF0000FF
  | .dds => 0xFF0F00FF
  | .s => 0xFFFF0FFF
  | .ss => 0xFFF00FFF

/-- The opcode map of R105, in its order. -/
def opcodeMap : List Row :=
  [ ⟨"NOP", 0x00, .n, fun _ _ _ _ => .nop⟩,
    ⟨"MOV", 0x01, .ds, fun rd _ rs1 _ => .mov rd rs1⟩,
    ⟨"LDI", 0x02, .d, fun rd _ _ _ => .ldi rd⟩,
    ⟨"ADD", 0x10, .dss, fun rd _ rs1 rs2 => .add rd rs1 rs2⟩,
    ⟨"SUB", 0x11, .dss, fun rd _ rs1 rs2 => .sub rd rs1 rs2⟩,
    ⟨"CMP", 0x12, .ss, fun _ _ rs1 rs2 => .cmp rs1 rs2⟩,
    ⟨"CMPM", 0x13, .ss, fun _ _ rs1 rs2 => .cmpm rs1 rs2⟩,
    ⟨"BITS", 0x14, .s, fun _ _ rs1 _ => .bits rs1⟩,
    ⟨"SHL", 0x20, .ds, fun rd _ rs1 _ => .shl rd rs1⟩,
    ⟨"SHR", 0x21, .ds, fun rd _ rs1 _ => .shr rd rs1⟩,
    ⟨"MUL", 0x30, .dss, fun rd _ rs1 rs2 => .mul rd rs1 rs2⟩,
    ⟨"DIV", 0x40, .ddss, fun rd rd2 rs1 rs2 => .div rd rd2 rs1 rs2⟩,
    ⟨"DIVA", 0x41, .dss, fun rd _ rs1 rs2 => .diva rd rs1 rs2⟩,
    ⟨"DIVX", 0x42, .ddss, fun rd rd2 rs1 rs2 => .divx rd rd2 rs1 rs2⟩,
    ⟨"REMOVE", 0x43, .dss, fun rd _ rs1 rs2 => .remove rd rs1 rs2⟩,
    ⟨"POW", 0x50, .ds, fun rd _ rs1 _ => .pow rd rs1⟩,
    ⟨"SQRT", 0x51, .dds, fun rd rd2 rs1 _ => .sqrt rd rd2 rs1⟩,
    ⟨"CBRT", 0x52, .dds, fun rd rd2 rs1 _ => .cbrt rd rd2 rs1⟩,
    ⟨"ROOT", 0x53, .dds, fun rd rd2 rs1 _ => .root rd rd2 rs1⟩ ]

/-- The row's mask (R102). -/
def Row.mask (r : Row) : Word := r.format.mask

/-- The row's `match`: the word with every used field 0 (R105). -/
def Row.matchWord (r : Row) : Word := r.op.setWidth 32

/-- "A word w is command X iff (w AND mask) = match" (R105). -/
def Row.accepts (r : Row) (w : Word) : Bool := w &&& r.mask == r.matchWord

/-! ## The decoder (R107) -/

/-- Which rule a word that no row accepts breaks (R302). -/
def illegalReason (w : Word) : IllegalReason :=
  if rsvField w ≠ 0 then .reservedBits
  else if opcodeMap.any (fun r => r.op == opField w) then .unusedField
  else .reservedOpcode

/-- `decode` of R107: the first row that accepts the word, with its fields; ILLEGAL, with the reason, otherwise. -/
def decode (w : Word) : Except IllegalReason Instr :=
  match opcodeMap.find? (fun r => r.accepts w) with
  | some r => .ok (r.make (rdField w) (rd2Field w) (rs1Field w) (rs2Field w))
  | none => .error (illegalReason w)

/-- The instruction that the decoder reads from the word whose bits are `w`, numbered as spec/opcode_table.json
numbers them. A command is exactly one 32-bit word (R100): bits above it make it no command word. -/
def decodeTableWord (nbits w : Nat) : Option Instr :=
  if w % 2 ^ nbits < 2 ^ 32 then (decode (BitVec.ofNat 32 (w % 2 ^ nbits))).toOption else none

/-! ## The encoder -/

/-- The word of a command (R101, R105): its opcode, the fields its format uses, 0 everywhere else (R103, R104). -/
def encode : Instr → Word
  | .nop => packWord 0x00 0 0 0 0
  | .mov rd rs1 => packWord 0x01 rd 0 rs1 0
  | .ldi rd => packWord 0x02 rd 0 0 0
  | .add rd rs1 rs2 => packWord 0x10 rd 0 rs1 rs2
  | .sub rd rs1 rs2 => packWord 0x11 rd 0 rs1 rs2
  | .cmp rs1 rs2 => packWord 0x12 0 0 rs1 rs2
  | .cmpm rs1 rs2 => packWord 0x13 0 0 rs1 rs2
  | .bits rs1 => packWord 0x14 0 0 rs1 0
  | .shl rd rs1 => packWord 0x20 rd 0 rs1 0
  | .shr rd rs1 => packWord 0x21 rd 0 rs1 0
  | .mul rd rs1 rs2 => packWord 0x30 rd 0 rs1 rs2
  | .div rd rd2 rs1 rs2 => packWord 0x40 rd rd2 rs1 rs2
  | .diva rd rs1 rs2 => packWord 0x41 rd 0 rs1 rs2
  | .divx rd rd2 rs1 rs2 => packWord 0x42 rd rd2 rs1 rs2
  | .remove rd rs1 rs2 => packWord 0x43 rd 0 rs1 rs2
  | .pow rd rs1 => packWord 0x50 rd 0 rs1 0
  | .sqrt rd rd2 rs1 => packWord 0x51 rd rd2 rs1 0
  | .cbrt rd rd2 rs1 => packWord 0x52 rd rd2 rs1 0
  | .root rd rd2 rs1 => packWord 0x53 rd rd2 rs1 0

/-! ## What a command reads and writes (R102, R105) -/

/-- The format of a command's row. -/
def Instr.format : Instr → Format
  | .nop => .n
  | .mov _ _ => .ds
  | .ldi _ => .d
  | .add _ _ _ => .dss
  | .sub _ _ _ => .dss
  | .cmp _ _ => .ss
  | .cmpm _ _ => .ss
  | .bits _ => .s
  | .shl _ _ => .ds
  | .shr _ _ => .ds
  | .mul _ _ _ => .dss
  | .div _ _ _ _ => .ddss
  | .diva _ _ _ => .dss
  | .divx _ _ _ _ => .ddss
  | .remove _ _ _ => .dss
  | .pow _ _ => .ds
  | .sqrt _ _ _ => .dds
  | .cbrt _ _ _ => .dds
  | .root _ _ _ => .dds

/-- The value registers a command may write: its destination fields (R105). -/
def Instr.dests : Instr → List Reg
  | .nop => []
  | .mov rd _ => [rd]
  | .ldi rd => [rd]
  | .add rd _ _ => [rd]
  | .sub rd _ _ => [rd]
  | .cmp _ _ => []
  | .cmpm _ _ => []
  | .bits _ => []
  | .shl rd _ => [rd]
  | .shr rd _ => [rd]
  | .mul rd _ _ => [rd]
  | .div rd rd2 _ _ => [rd, rd2]
  | .diva rd _ _ => [rd]
  | .divx rd rd2 _ _ => [rd, rd2]
  | .remove rd _ _ => [rd]
  | .pow rd _ => [rd]
  | .sqrt rd rd2 _ => [rd, rd2]
  | .cbrt rd rd2 _ => [rd, rd2]
  | .root rd rd2 _ => [rd, rd2]

/-- The value registers a command reads: its source fields (R105, spec/60_exceptions.md R304). -/
def Instr.sources : Instr → List Reg
  | .nop => []
  | .mov _ rs1 => [rs1]
  | .ldi _ => []
  | .add _ rs1 rs2 => [rs1, rs2]
  | .sub _ rs1 rs2 => [rs1, rs2]
  | .cmp rs1 rs2 => [rs1, rs2]
  | .cmpm rs1 rs2 => [rs1, rs2]
  | .bits rs1 => [rs1]
  | .shl _ rs1 => [rs1]
  | .shr _ rs1 => [rs1]
  | .mul _ rs1 rs2 => [rs1, rs2]
  | .div _ _ rs1 rs2 => [rs1, rs2]
  | .diva _ rs1 rs2 => [rs1, rs2]
  | .divx _ _ rs1 rs2 => [rs1, rs2]
  | .remove _ rs1 rs2 => [rs1, rs2]
  | .pow _ rs1 => [rs1]
  | .sqrt _ _ rs1 => [rs1]
  | .cbrt _ _ rs1 => [rs1]
  | .root _ _ rs1 => [rs1]

/-- Whether a command writes RESULT (spec/10_state.md R40: CMP, CMPM, BITS and REMOVE alone). -/
def Instr.writesResult : Instr → Bool
  | .nop => false
  | .mov _ _ => false
  | .ldi _ => false
  | .add _ _ _ => false
  | .sub _ _ _ => false
  | .cmp _ _ => true
  | .cmpm _ _ => true
  | .bits _ => true
  | .shl _ _ => false
  | .shr _ _ => false
  | .mul _ _ _ => false
  | .div _ _ _ _ => false
  | .diva _ _ _ => false
  | .divx _ _ _ _ => false
  | .remove _ _ _ => true
  | .pow _ _ => false
  | .sqrt _ _ _ => false
  | .cbrt _ _ _ => false
  | .root _ _ _ => false

/-- Whether a command may set STATUS.DZ (spec/10_state.md R52: DIV, DIVA, DIVX and REMOVE alone). -/
def Instr.mayDivideByZero : Instr → Bool
  | .nop => false
  | .mov _ _ => false
  | .ldi _ => false
  | .add _ _ _ => false
  | .sub _ _ _ => false
  | .cmp _ _ => false
  | .cmpm _ _ => false
  | .bits _ => false
  | .shl _ _ => false
  | .shr _ _ => false
  | .mul _ _ _ => false
  | .div _ _ _ _ => true
  | .diva _ _ _ => true
  | .divx _ _ _ _ => true
  | .remove _ _ _ => true
  | .pow _ _ => false
  | .sqrt _ _ _ => false
  | .cbrt _ _ _ => false
  | .root _ _ _ => false

/-! ## The assembler's spelling (R109) -/

/-- `v<i>`. -/
def regName (r : Reg) : String := "v" ++ toString r.val

/-- The mnemonic, then the register operands in the order rd, rd2, rs1, rs2, separated by commas (R109). -/
def asmLine (mnemonic : String) (operands : List Reg) : String :=
  match operands with
  | [] => mnemonic
  | _ :: _ => mnemonic ++ " " ++ ", ".intercalate (operands.map regName)

/-- The assembler's line for a command (R109): its row's mnemonic, its destinations, its sources. -/
def Instr.asm (i : Instr) : String :=
  match opcodeMap.find? (fun r => r.accepts (encode i)) with
  | some r => asmLine r.mnemonic (i.dests ++ i.sources)
  | none => ""

end Sys2Proof
end

