-- ==== Sys2Proof/Config.lean ====
section
/-!
DEFINITION. The parameters of the MPID (spec/00_scope.md R5) and the free values: CAP, ESTIMATOR, and what a read of a
value window returns while a command is pending. The parameters are data carried, and never changed, by the machine
(log 1); the free values are opaque constants (logs 2 and 5).
-/

namespace Sys2Proof

/-- Which ESTIMATOR an implementation has (R5): the reference estimator of spec/43_divider.md R223, or any other
total function within the bound of R222 (log 2). -/
inductive Estimator where
  | estRef
  | free
  deriving DecidableEq, Repr

/-- The parameters a model of the MPID takes (R5). LIMB_BITS, WORD and NREG are fixed; VW, VSTRIDE and ADDR_BITS are
computed from CAP (Machine/Bus.lean). BASE is the platform's and nothing in the MPID depends on it (log 18). -/
structure Config where
  /-- CAP: limbs per value register. -/
  cap : Nat
  /-- ESTIMATOR: the magnitude of the DIVA quotient estimate. -/
  estimator : Estimator
  deriving DecidableEq, Repr

/-- The range R5 gives CAP. -/
abbrev Config.wf (c : Config) : Prop := 3 ≤ c.cap ∧ c.cap ≤ 65535

/-- The defaults of R5: CAP = 63, ESTIMATOR = EST_ref. -/
def Config.default : Config := { cap := 63, estimator := .estRef }

/-- FREE VALUE (log 2; DESIGN CHOICE, safe): an estimate of which nothing is known. `Machine.estimate` cuts it to the
bound of R222, so every estimator that R222 allows is one of its instances. -/
opaque Config.freeEstimate : Nat → Nat → Nat

/-- FREE VALUE (log 5; DESIGN CHOICE, safe): the word that the n-th read of a value window made while BUSY = 1
returns (spec/20_memory.md R82: "a model draws it freely"). -/
opaque Config.freeWord : Nat → Word

end Sys2Proof
end

