-- ==== Sys2Proof/Machine/State.lean ====
section
/-!
DEFINITION. The state of the MPID (spec/10_state.md), the outcomes of a step, and the state after reset
(spec/70_reset_and_hazards.md R351).
-/

namespace Sys2Proof.Machine

/-! ## Pieces of the state -/

/-- A value register (R31-R33): a sign, a logical length, and its limbs, least significant first. -/
structure VReg where
  /-- SIGN: true is negative (R32). -/
  sign : Bool
  /-- LEN: "index one past the most significant non-zero limb" (R32). -/
  len : BitVec 16
  /-- L[0], L[1], ...: CAP of them in every state that satisfies `State.wf` (log 15). -/
  limbs : List Limb
  deriving DecidableEq, Repr

/-- norm(0), the reset value of a register (R31). -/
def VReg.zero (cap : Nat) : VReg := { sign := false, len := 0, limbs := List.replicate cap 0 }

/-- The outcome codes of STATUS.ECODE (spec/60_exceptions.md R301). Codes 6 to 15 are never produced. -/
inductive ECode where
  /-- 0 NONE -/
  | ok
  /-- 1 ILLEGAL -/
  | illegal
  /-- 2 ALIAS -/
  | destAlias
  /-- 3 OPERAND -/
  | operand
  /-- 4 ARG -/
  | arg
  /-- 5 CAPACITY -/
  | capacity
  deriving DecidableEq, Repr

/-- The pending command: the accepted word and the scalars latched at its acceptance (R45). -/
structure Pending where
  word : Word
  arg0 : Word
  arg1 : Word
  deriving DecidableEq, Repr

/-- The response a bus transaction got: `rsp_rdata` and `rsp_err` (spec/70_reset_and_hazards.md R360; log 7). -/
structure Response where
  data : Word
  err : Bool
  deriving DecidableEq, Repr

/-- What can happen next at the MPID (R30, R350, R362; log 3). -/
inductive Input where
  /-- the host reads at byte offset `off` with byte enables `be` -/
  | read (off : Nat) (be : BitVec 4)
  /-- the host writes the word `w` at byte offset `off` with byte enables `be` -/
  | write (off : Nat) (be : BitVec 4) (w : Word)
  /-- the MPID takes its turn: it completes the pending command, if there is one -/
  | mpid
  /-- `rst_n` is low -/
  | hwReset
  deriving DecidableEq, Repr

/-! ## The state -/

/-- The state of the MPID. STATUS.BUSY is `pending.isSome` (log 10), ID, STATUS, CTRL and `irq` as words are computed
from the fields (Machine/Flags.lean); scratch storage is not state of the model (log 11). -/
structure State where
  /-- the parameters, which no step changes (log 1) -/
  cfg : Config
  /-- V0..V15 (R31) -/
  v : Vector VReg 16
  /-- ARG0 (R38) -/
  arg0 : Word
  /-- ARG1 (R39) -/
  arg1 : Word
  /-- RESULT (R40) -/
  result : Word
  /-- CMD: the last accepted command word (R41) -/
  cmd : Word
  /-- CTRL.IE (R43) -/
  ie : Bool
  /-- STATUS.DONE (R53) -/
  done : Bool
  /-- STATUS.ERR (R54) -/
  err : Bool
  /-- STATUS.DZ (R52) -/
  dz : Bool
  /-- STATUS.OVR (R55) -/
  ovr : Bool
  /-- STATUS.ECODE (R56) -/
  ecode : ECode
  /-- the pending command (R45) -/
  pending : Option Pending
  /-- the response of the last bus transaction (log 7) -/
  rsp : Option Response
  /-- the model's own: how many free words have been drawn (log 5) -/
  draws : Nat
  /-- the model's own: what happens next, in order (log 3) -/
  inputs : List Input
  deriving DecidableEq, Repr

/-! ## How a step can stop -/

/-- Why the machine stops. A command's own faults are not here: they are next states (spec/60_exceptions.md R300). -/
inductive Fault where
  /-- Raised by a bus transaction (`busRead`, `busWrite`) whose offset the port's ADDR_BITS address lines cannot
  carry: no such offset exists (spec/20_memory.md R70). Safe: no such request can be made (log 9). -/
  | offsetOutsideSpace
  deriving DecidableEq, Repr

/-- Why the model gives no meaning. -/
inductive Refusal where
  /-- Raised by an arm of `exec` whose instruction has no meaning in the model. Safe. No arm raises it now. -/
  | notModelled (mnemonic : String)
  deriving DecidableEq, Repr

/-- What a step of this machine answers. -/
abbrev Result := Host.Outcome State Fault Refusal

/-! ## Reset -/

/-- The reset state of an MPID with the given parameters (R351): every value from the spec, no response outstanding,
nothing drawn, nothing to come. -/
def State.resetWith (c : Config) : State where
  cfg := c
  v := Vector.replicate 16 (VReg.zero c.cap)
  arg0 := 0
  arg1 := 0
  result := 0
  cmd := 0
  ie := false
  done := false
  err := false
  dz := false
  ovr := false
  ecode := .ok
  pending := none
  rsp := none
  draws := 0
  inputs := []

/-- The machine right after reset, with the default parameters of R5 (log 1). -/
def State.reset : State := State.resetWith Config.default

end Sys2Proof.Machine
end

