-- ==== Sys2Proof/Machine/Flags.lean ====
section
/-!
DEFINITION. STATUS, CTRL, ID and `irq` as words computed from the state, the write-1-to-clear of STATUS, and the words
the comparators put in RESULT (spec/10_state.md R42-R59; spec/40_limb_and_adder.md R136). The MPID has no condition
codes (R58).
-/

namespace Sys2Proof.Machine

/-- STATUS.BUSY: 1 exactly while a command is pending (R45, R51; log 10). -/
def State.busy (s : State) : Bool := s.pending.isSome

/-- The code of an outcome in STATUS.ECODE (spec/60_exceptions.md R301). -/
def ECode.bits : ECode → BitVec 4
  | .ok => 0
  | .illegal => 1
  | .destAlias => 2
  | .operand => 3
  | .arg => 4
  | .capacity => 5

/-- STATUS as the host reads it (R50): ECODE in [11:8], OVR 4, DZ 3, ERR 2, DONE 1, BUSY 0, all other bits 0. -/
def State.statusWord (s : State) : Word :=
  0#20 ++ s.ecode.bits ++ 0#3 ++ BitVec.ofBool s.ovr ++ BitVec.ofBool s.dz ++ BitVec.ofBool s.err ++
    BitVec.ofBool s.done ++ BitVec.ofBool s.busy

/-- CTRL as the host reads it: IE in bit 0; SRST and the reserved bits read 0 (R43, R46, R47). -/
def State.ctrlWord (s : State) : Word := 0#31 ++ BitVec.ofBool s.ie

/-- ID: CAP in [31:16], NREG = 16 in [15:8], LIMB_BITS = 31 in [7:0] (R42). -/
def State.idWord (s : State) : Word := BitVec.ofNat 16 s.cfg.cap ++ 16#8 ++ 31#8

/-- The interrupt output, CTRL.IE AND STATUS.DONE (R59). -/
def State.irq (s : State) : Bool := s.ie && s.done

/-- A host write to STATUS "clears each of DONE, ERR, DZ, OVR whose bit is 1 in w and changes nothing else" (R50). -/
def State.clearStatus (s : State) (w : Word) : State :=
  { s with
    done := s.done && !w.getLsbD 1
    err := s.err && !w.getLsbD 2
    dz := s.dz && !w.getLsbD 3
    ovr := s.ovr && !w.getLsbD 4 }

/-- `sext_32(r)` of a comparison's -1, 0 or +1 (spec/40_limb_and_adder.md R140, R141). -/
def compareWord (r : Int) : Word := BitVec.ofInt 32 r

end Sys2Proof.Machine
end

