-- ==== Sys2Proof/Machine/Numbers.lean ====
section
/-!
DEFINITION. The notation of spec/00_scope.md section 4 over numbers and limb vectors: bit length, sign, the limb base,
the value of a limb vector, the base-B digits of a magnitude, and which integers fit (R7, R9, R10).
-/

namespace Sys2Proof.Machine

/-- B = 2^31: the limb base (R5). -/
abbrev limbBase : Nat := 2 ^ 31

/-- `bitlen(m)`: 0 if m = 0, else the k with 2^(k-1) ≤ m < 2^k (R7). -/
def bitlen (m : Nat) : Nat := if m = 0 then 0 else Nat.log2 m + 1

/-- ceil(m / k), for the digit counts of the root datapaths (R252, R254, R256). -/
def ceilDiv (m k : Nat) : Nat := (m + k - 1) / k

/-- An integer from a sign bit and a magnitude (R9). -/
def signed (neg : Bool) (m : Nat) : Int := if neg then -(m : Int) else (m : Int)

/-- The sign bit of a product or quotient: "the product of operand signs" (spec/42_multiplier.md R192). -/
def productSign (x y : Int) : Bool := (x < 0) != (y < 0)

/-- Limb `j` of a vector: limbs at and past its length are read as zero (spec/10_state.md R34). -/
def limbAt (A : List Limb) (j : Nat) : Limb := A.getD j 0

/-- mag: the sum of L[j] * B^j over the vector (R9). -/
def limbsVal : List Limb → Nat
  | [] => 0
  | x :: xs => x.toNat + limbBase * limbsVal xs

/-- How many base-B digits a magnitude has; 0 for 0 (R10). -/
def digitCount (m : Nat) : Nat := (bitlen m + 30) / 31

/-- The base-B digit `j` of a magnitude (R10). -/
def digit (m j : Nat) : Limb := BitVec.ofNat 31 (m >>> (31 * j))

/-- B^CAP, the first magnitude that a register cannot hold (R5). -/
def magLimit (cap : Nat) : Nat := 2 ^ (31 * cap)

/-- `fits(z)`: |z| < B^CAP (R10). -/
def fits (cap : Nat) (z : Int) : Bool := decide (z.natAbs < magLimit cap)

/-- The sentinel quotient of a division by zero, B^CAP - 1 (spec/43_divider.md R211). -/
def sentinel (cap : Nat) : Int := (magLimit cap - 1 : Nat)

end Sys2Proof.Machine
end

