-- ==== Sys2Proof/Machine/Ops.lean ====
section
/-!
DEFINITION. The named operations every command is made of: the primitives of spec/00_scope.md R11, acceptance,
completion, and the fault of spec/60_exceptions.md R300, R309, R312 as one shared operation. There is no return from
a fault: the MPID "saves no state on a fault, changes no mode and transfers no control" (R316); the host's only
acknowledge is `State.clearStatus`.
-/

namespace Sys2Proof.Machine

/-! ## Value registers (R9, R10, R11) -/

/-- The limbs that make a register's value: L[j] for j below min(LEN, CAP) (R9). -/
def VReg.magLimbs (cap : Nat) (r : VReg) : List Limb := r.limbs.take (min r.len.toNat cap)

/-- mag(V[i]) (R9). -/
def VReg.mag (cap : Nat) (r : VReg) : Nat := limbsVal (r.magLimbs cap)

/-- val(V[i]) (R9). -/
def VReg.val (cap : Nat) (r : VReg) : Int := signed r.sign (r.mag cap)

/-- valid(V[i]) (spec/10_state.md R35). -/
def VReg.valid (cap : Nat) (r : VReg) : Bool :=
  decide (r.len.toNat ≤ cap) && (r.len == 0 || limbAt r.limbs (r.len.toNat - 1) != 0) && (r.len != 0 || !r.sign)

/-- norm(z) (R10): the sign, the digit count, the base-B digits, zero-filled to CAP limbs. -/
def norm (cap : Nat) (z : Int) : VReg where
  sign := decide (z < 0)
  len := BitVec.ofNat 16 (digitCount z.natAbs)
  limbs := (List.range cap).map (digit z.natAbs)

/-- Register `i`. -/
def State.readV (s : State) (i : Reg) : VReg := s.v[i]

/-- `V[i]`: register `i` as an integer (R11). -/
def State.val (s : State) (i : Reg) : Int := (s.readV i).val s.cfg.cap

/-- Whether register `i` is valid (spec/10_state.md R35). -/
def State.validReg (s : State) (i : Reg) : Bool := (s.readV i).valid s.cfg.cap

/-- Register `i` replaced. -/
def State.setV (s : State) (i : Reg) (r : VReg) : State := { s with v := s.v.set i r }

/-- `V[i] <- z`: writes norm(z), all of SIGN, LEN and all CAP limbs (R11). -/
def State.writeV (s : State) (i : Reg) (z : Int) : State := s.setV i (norm s.cfg.cap z)

/-- `RESULT <- w` (R11). -/
def State.writeResult (s : State) (w : Word) : State := { s with result := w }

/-- `set DZ` (R11, spec/10_state.md R52). -/
def State.setDz (s : State) : State := { s with dz := true }

/-! ## Acceptance and completion (spec/60_exceptions.md R310-R312) -/

/-- Acceptance: the word goes to CMD, the word and the scalars are latched, DONE <- 0, BUSY <- 1 (R310). -/
def State.accept (s : State) (w : Word) : State :=
  { s with cmd := w, pending := some { word := w, arg0 := s.arg0, arg1 := s.arg1 }, done := false }

/-- The end of a completion: BUSY <- 0, no pending command, DONE <- 1, ECODE <- the code, and ERR <- 1 if it is a
fault's code (R311, R312). -/
def State.complete (s : State) (code : ECode) : State :=
  { s with pending := none, done := true, ecode := code, err := s.err || code != .ok }

/-- `raise Fault(code)`: the command ends with nothing written but the status (R300, R309, R312). -/
def raiseFault (s : State) (code : ECode) : Result := .next (s.complete code)

/-- The command ends without fault, after its commit (R311, R312). -/
def succeed (s : State) : Result := .next (s.complete .ok)

/-- `if not fits(z): raise Fault(CAPACITY); commit { V[rd] <- z }`: how ADD, SUB, MUL, SHL and POW end (R305). -/
def commitFitting (s : State) (rd : Reg) (z : Int) : Result :=
  if fits s.cfg.cap z then succeed (s.writeV rd z) else raiseFault s .capacity

end Sys2Proof.Machine
end

