-- ==== Sys2Proof/Machine/Bus.lean ====
section
/-!
DEFINITION. The host bus (spec/20_memory.md): the register map, reads and writes of one word, what happens while a
command is pending, bus errors, and the two resets (spec/60_exceptions.md R326, spec/70_reset_and_hazards.md R350).
-/

namespace Sys2Proof.Machine

/-! ## The register map (R70, R71, R73, R76, R77) -/

/-- VW: the smallest power of two ≥ CAP + 1 (spec/00_scope.md R5). -/
def windowWords (cap : Nat) : Nat := 2 ^ bitlen cap

/-- VSTRIDE = 4 * VW bytes (R5). -/
def windowStride (cap : Nat) : Nat := 4 * windowWords cap

/-- W(i): the offset of the window of V[i] (R73). -/
def windowBase (cap : Nat) (i : Reg) : Nat := 0x1000 + i.val * windowStride cap

/-- ADDR_BITS = ceil(log2(0x1000 + NREG * VSTRIDE)) (R5). -/
def addrBits (cap : Nat) : Nat := bitlen (0x1000 + 16 * windowStride cap - 1)

/-- What stands at an offset. -/
inductive Target where
  | id | ctrl | status | cmd | arg0 | arg1 | result
  /-- the header word of V[i] (R74) -/
  | header (i : Reg)
  /-- the limb word L[j] of V[i] (R75) -/
  | limb (i : Reg) (j : Nat)
  /-- a reserved word of a window (R76) -/
  | windowReserved (i : Reg)
  /-- every other offset (R77) -/
  | unmapped
  deriving DecidableEq, Repr

/-- The control region, by word offset (R71). -/
def controlTarget (off : Nat) : Target :=
  if off = 0x000 then .id
  else if off = 0x004 then .ctrl
  else if off = 0x008 then .status
  else if off = 0x00C then .cmd
  else if off = 0x010 then .arg0
  else if off = 0x014 then .arg1
  else if off = 0x018 then .result
  else .unmapped

/-- Word `k` of the window of V[i] (R73). -/
def windowTarget (cap : Nat) (i : Reg) (k : Nat) : Target :=
  if k = 0 then .header i else if k ≤ cap then .limb i (k - 1) else .windowReserved i

/-- What stands at an offset that is a multiple of 4 (R71, R73, R77). -/
def target (cap off : Nat) : Target :=
  if off < 0x1000 then controlTarget off
  else if h : (off - 0x1000) / windowStride cap < 16 then
    windowTarget cap ⟨(off - 0x1000) / windowStride cap, h⟩ ((off - 0x1000) % windowStride cap / 4)
  else .unmapped

/-- Whether it is a word of a value-register window; a window's reserved words are words of it (log 6). -/
def Target.inWindow : Target → Bool
  | .header _ => true
  | .limb _ _ => true
  | .windowReserved _ => true
  | .id => false
  | .ctrl => false
  | .status => false
  | .cmd => false
  | .arg0 => false
  | .arg1 => false
  | .result => false
  | .unmapped => false

/-- Whether a write to it is discarded while BUSY = 1 and sets OVR: CMD, ARG0, ARG1 and the windows (R81). -/
def Target.lockedWhileBusy (t : Target) : Bool :=
  t == .cmd || t == .arg0 || t == .arg1 || t.inWindow

/-- Whether an access is legal: all four byte lanes, an offset that is a multiple of 4 (R79). -/
def legalAccess (off : Nat) (be : BitVec 4) : Bool := be == 0xF && off % 4 == 0

/-! ## Words as the host reads them -/

/-- The header word of a register: LEN in [15:0], SIGN in bit 31, the rest 0 (R74). -/
def VReg.headerWord (r : VReg) : Word := BitVec.ofBool r.sign ++ 0#15 ++ r.len

/-- The limb word L[j]: the limb in [30:0], bit 31 reads 0 (R33, R75). -/
def VReg.limbWord (r : VReg) (j : Nat) : Word := 0#1 ++ limbAt r.limbs j

/-- The word that stands at a target (R71, R73-R77). -/
def State.readTarget (s : State) : Target → Word
  | .id => s.idWord
  | .ctrl => s.ctrlWord
  | .status => s.statusWord
  | .cmd => s.cmd
  | .arg0 => s.arg0
  | .arg1 => s.arg1
  | .result => s.result
  | .header i => (s.readV i).headerWord
  | .limb i j => (s.readV i).limbWord j
  | .windowReserved _ => 0
  | .unmapped => 0

/-- The word at an offset that is a multiple of 4, with no command pending. -/
def State.wordAt (s : State) (off : Nat) : Word := s.readTarget (target s.cfg.cap off)

/-- The byte at an offset: lane off mod 4 of its word, little-endian (R78; log 20). No single access reads it. -/
def State.byteAt (s : State) (off : Nat) : Byte := (s.wordAt (off / 4 * 4)).extractLsb' (8 * (off % 4)) 8

/-! ## Resets -/

/-- The reset state (R351) of the machine `s` is: its parameters kept, and the model's own fields, what happens next
and how much has been drawn, kept too. No response is outstanding. -/
def State.resetNow (s : State) : State :=
  { State.resetWith s.cfg with draws := s.draws, inputs := s.inputs }

/-! ## Writes -/

/-- A write to CTRL: bit 1 resets the MPID and the write's other bits do nothing; otherwise bit 0 is IE (R43, R46). -/
def State.writeCtrl (s : State) (w : Word) : State :=
  if w.getLsbD 1 then s.resetNow else { s with ie := w.getLsbD 0 }

/-- A write to a header word: LEN and SIGN, "without any check" (R74). -/
def VReg.withHeader (r : VReg) (w : Word) : VReg := { r with len := w.extractLsb' 0 16, sign := w.getLsbD 31 }

/-- A write to a limb word: bits [30:0], "whether or not j < LEN" (R75). -/
def VReg.withLimb (r : VReg) (j : Nat) (w : Word) : VReg := { r with limbs := r.limbs.set j (w.extractLsb' 0 31) }

/-- The effect of a legal write while no command is pending (R71-R77): writes to ID, RESULT, reserved words and
unmapped offsets are ignored; a write to CMD issues its command (R72). -/
def State.writeTarget (s : State) (w : Word) : Target → State
  | .id => s
  | .ctrl => s.writeCtrl w
  | .status => s.clearStatus w
  | .cmd => s.accept w
  | .arg0 => { s with arg0 := w }
  | .arg1 => { s with arg1 := w }
  | .result => s
  | .header i => s.setV i ((s.readV i).withHeader w)
  | .limb i j => s.setV i ((s.readV i).withLimb j w)
  | .windowReserved _ => s
  | .unmapped => s

/-- The effect of a legal write: while BUSY = 1, what R81 locks is discarded and sets OVR. -/
def State.writeWord (s : State) (t : Target) (w : Word) : State :=
  if s.busy && t.lockedWhileBusy then { s with ovr := true } else s.writeTarget w t

/-! ## Transactions (R79, R80, R84; spec/70_reset_and_hazards.md R361) -/

/-- The transaction's response. -/
def State.respond (s : State) (data : Word) (err : Bool) : State :=
  { s with rsp := some { data := data, err := err } }

/-- A legal read (R84: no side effect). While BUSY = 1 a window word reads as an unspecified word, drawn anew at every
read (R82; log 5). -/
def State.readWord (s : State) (t : Target) : State :=
  if s.busy && t.inWindow then ({ s with draws := s.draws + 1 } : State).respond (Config.freeWord s.draws) false
  else s.respond (s.readTarget t) false

/-- MemRead at `off` with byte enables `be`: a bus error, data 0, where the access is not legal (R79). -/
def busRead (s : State) (off : Nat) (be : BitVec 4) : Result :=
  if off < 2 ^ addrBits s.cfg.cap then
    .next (if legalAccess off be then s.readWord (target s.cfg.cap off) else s.respond 0 true)
  else .fault .offsetOutsideSpace

/-- MemWrite of `w`: a bus error without effect where the access is not legal (R79); a write's response has data 0
(R360). -/
def busWrite (s : State) (off : Nat) (be : BitVec 4) (w : Word) : Result :=
  if off < 2 ^ addrBits s.cfg.cap then
    .next (if legalAccess off be then (s.writeWord (target s.cfg.cap off) w).respond 0 false else s.respond 0 true)
  else .fault .offsetOutsideSpace

end Sys2Proof.Machine
end

