-- ==== Sys2Proof/Machine/Operands.lean ====
section
/-!
DEFINITION. Where a command's operands come from: source registers, checked for validity (spec/60_exceptions.md R304),
the two distinct destinations (R303), and the scalars latched at acceptance (spec/30_encoding.md R108). The order in
which a meaning applies these is the priority of R308.
-/

namespace Sys2Proof.Machine

/-- A source operand: a sign bit and a limb vector, whose length is the register's LEN (spec/00_scope.md R9). -/
structure Operand where
  neg : Bool
  limbs : List Limb
  deriving DecidableEq, Repr

/-- |a|. -/
def Operand.mag (a : Operand) : Nat := limbsVal a.limbs

/-- The integer `a` (R12). -/
def Operand.val (a : Operand) : Int := signed a.neg a.mag

/-- What the datapaths read from a register. -/
def VReg.operand (cap : Nat) (r : VReg) : Operand := { neg := r.sign, limbs := r.magLimbs cap }

/-- The operand in register `i`. -/
def State.operand (s : State) (i : Reg) : Operand := (s.readV i).operand s.cfg.cap

/-- A command of one source: OPERAND if the register is not valid (R304). -/
def withSource (s : State) (rs1 : Reg) (k : Operand → Result) : Result :=
  if s.validReg rs1 then k (s.operand rs1) else raiseFault s .operand

/-- A command of two sources: OPERAND if either register is not valid (R304). -/
def withSources (s : State) (rs1 rs2 : Reg) (k : Operand → Operand → Result) : Result :=
  withSource s rs1 fun a => withSource s rs2 fun b => k a b

/-- A command of two destinations: ALIAS if they are one register (R303). -/
def withDistinct (s : State) (rd rd2 : Reg) (k : Result) : Result :=
  if rd = rd2 then raiseFault s .destAlias else k

/-- ARG0 as the command sees it: the value latched at acceptance (R310). With no command pending, a case `step`
never runs, it is the register itself (log 12). -/
def State.scalar0 (s : State) : Word :=
  match s.pending with
  | some p => p.arg0
  | none => s.arg0

/-- ARG1 as the command sees it, likewise. -/
def State.scalar1 (s : State) : Word :=
  match s.pending with
  | some p => p.arg1
  | none => s.arg1

/-- `n = ARG0`, unsigned 32-bit (R108): a shift count, an exponent or a degree. -/
def State.count (s : State) : Nat := s.scalar0.toNat

/-- `imm64 = ARG1 ‖ ARG0` read as signed 64-bit two's complement (R108). -/
def State.imm64 (s : State) : Int := (s.scalar1 ++ s.scalar0).toInt

end Sys2Proof.Machine
end

