-- ==== Sys2Proof/Machine/Adder.lean ====
section
/-!
DEFINITION. The carry core (spec/40_limb_and_adder.md R134-R137): magnitude adder, subtractor and comparator, signed
dispatch; and the commands ADD, SUB, CMP, CMPM (R138-R141).
-/

namespace Sys2Proof.Machine

/-! ## Datapaths -/

/-- The limbs of two vectors side by side for j = 0 .. m-1, zero past either length: what the loops of `add_mag` and
`sub_mag` run over. -/
def limbPairs (m : Nat) (A Bv : List Limb) : List (Limb × Limb) :=
  (List.range m).map fun j => (limbAt A j, limbAt Bv j)

/-- The 32-bit sum `s = zext_32(A[j]) + zext_32(Bv[j]) + c` of `add_mag` (R134). -/
def limbSum (a b : Limb) (c : Bool) : Word := a.setWidth 32 + b.setWidth 32 + (BitVec.ofBool c).setWidth 32

/-- The loop of `add_mag` (R134): S[j] = s[30:0], c = s[31]; at the end the guard-limb carry extends the length. -/
def addLoop : List (Limb × Limb) → Bool → List Limb
  | [], c => if c then [1] else []
  | (a, b) :: rest, c => (limbSum a b c).extractLsb' 0 31 :: addLoop rest ((limbSum a b c).getLsbD 31)

/-- `add_mag` (R134). -/
def addMag (A Bv : List Limb) : List Limb := addLoop (limbPairs (max A.length Bv.length) A Bv) false

/-- The loop of `magcmp` (R136), from limb j-1 down to limb 0. -/
def magcmpFrom (A Bv : List Limb) : Nat → Int
  | 0 => 0
  | j + 1 =>
    if limbAt A j ≠ limbAt Bv j then (if limbAt A j > limbAt Bv j then 1 else -1) else magcmpFrom A Bv j

/-- `magcmp` (R136): lengths first, then limbs from the most significant down; -1, 0 or +1. -/
def magcmp (A Bv : List Limb) : Int :=
  if A.length ≠ Bv.length then (if A.length > Bv.length then 1 else -1) else magcmpFrom A Bv A.length

/-- The exact difference `d = A[j] - Bv[j] - bw` of `sub_mag` (R135). -/
def limbDiff (a b : Limb) (bw : Bool) : Int := (a.toNat : Int) - b.toNat - bw.toNat

/-- The loop of `sub_mag` (R135): a negative difference takes B and borrows. -/
def subLoop : List (Limb × Limb) → Bool → List Limb
  | [], _ => []
  | (a, b) :: rest, bw =>
    if limbDiff a b bw < 0 then BitVec.ofInt 31 (limbDiff a b bw + limbBase) :: subLoop rest true
    else BitVec.ofInt 31 (limbDiff a b bw) :: subLoop rest false

/-- "trimming trailing zeros from the top down" (R135). -/
def trimTop : List Limb → List Limb
  | [] => []
  | x :: xs =>
    match trimTop xs with
    | [] => if x = 0 then [] else [x]
    | y :: ys => x :: y :: ys

/-- `sub_mag` of a first operand not less than the second. -/
def subOrdered (A Bv : List Limb) : List Limb := trimTop (subLoop (limbPairs A.length A Bv) false)

/-- `sub_mag` (R135): the limbs of the difference of the magnitudes, and `neg`: whether the operands were swapped. -/
def subMag (A Bv : List Limb) : List Limb × Bool :=
  if magcmp A Bv < 0 then (subOrdered Bv A, true) else (subOrdered A Bv, false)

/-- `signed_add` (R137): magnitudes are added where the signs agree and subtracted where they differ; zero is
positive. -/
def signedAdd (a b : Operand) : Operand :=
  if a.neg = b.neg then
    let S := addMag a.limbs b.limbs
    { neg := a.neg && !S.isEmpty, limbs := S }
  else
    let r := subMag a.limbs b.limbs
    { neg := (if r.2 then b.neg else a.neg) && !r.1.isEmpty, limbs := r.1 }

/-- The second operand of SUB: `sb` inverted (R137). -/
def Operand.negate (b : Operand) : Operand := { b with neg := !b.neg }

/-- `signed_compare` (R141): the sign decides where the signs differ, else the magnitudes by the common sign. -/
def signedCompare (a b : Operand) : Int :=
  if a.neg ≠ b.neg then (if a.neg then -1 else 1)
  else magcmp a.limbs b.limbs * (if a.neg then -1 else 1)

/-! ## Commands -/

/-- ADD (R138). -/
def execAdd (rd rs1 rs2 : Reg) (s : State) : Result :=
  withSources s rs1 rs2 fun a b => commitFitting s rd (signedAdd a b).val

/-- SUB (R139). -/
def execSub (rd rs1 rs2 : Reg) (s : State) : Result :=
  withSources s rs1 rs2 fun a b => commitFitting s rd (signedAdd a b.negate).val

/-- CMP (R141). -/
def execCmp (rs1 rs2 : Reg) (s : State) : Result :=
  withSources s rs1 rs2 fun a b => succeed (s.writeResult (compareWord (signedCompare a b)))

/-- CMPM (R140): signs are ignored. -/
def execCmpm (rs1 rs2 : Reg) (s : State) : Result :=
  withSources s rs1 rs2 fun a b => succeed (s.writeResult (compareWord (magcmp a.limbs b.limbs)))

end Sys2Proof.Machine
end

