-- ==== Sys2Proof/Machine/Divider.lean ====
section
/-!
DEFINITION. The dividers (spec/43_divider.md): bit-serial exact division (R210), the quotient estimator (R220, R222,
R223), iterative division (R213), divisor multiplicity (R230); and the commands DIV, DIVX, DIVA, REMOVE (R212, R214,
R221, R231). As in the spec, these datapaths run on magnitudes as numbers.
-/

namespace Sys2Proof.Machine

/-! ## Datapaths -/

/-- The loop of `div_mag` (R210) from dividend bit i-1 down to bit 0: the remainder is doubled and takes the bit;
where it is not less than the divisor, the divisor is subtracted and the quotient bit set. -/
def divLoop (A D : Nat) : Nat → Nat × Nat → Nat × Nat
  | 0, (Q, Rm) => (Q, Rm)
  | i + 1, (Q, Rm) =>
    let Rm' := 2 * Rm + (A >>> i) % 2
    if Rm' ≥ D then divLoop A D i (Q + 2 ^ i, Rm' - D) else divLoop A D i (Q, Rm')

/-- `div_mag` (R210): quotient and remainder of the magnitudes. -/
def divMag (A D : Nat) : Nat × Nat := divLoop A D (bitlen A) (0, 0)

/-- EST_ref (R223): the divisor reduced to its top 62 bits, rounded up. -/
def estRef (A D : Nat) : Nat :=
  let k := bitlen D - 62
  if k = 0 then A / D else (A / 2 ^ k) / (D / 2 ^ k + 1)

/-- ESTIMATOR (R222): EST_ref, or a free estimate cut to the bound `ESTIMATOR(A, D) ≤ floor(A / D)`. Every function
within the bound is its own cut, so nothing more than R222 is assumed of the second (log 2). -/
def estimate (e : Estimator) (A D : Nat) : Nat :=
  match e with
  | .estRef => estRef A D
  | .free => min (Config.freeEstimate A D) (A / D)

/-- The first loop of `divx_mag` (R213): estimates are accumulated and their products subtracted until an estimate is
zero. The first argument bounds the passes: each lowers the remainder by at least D (log 14). -/
def divxLoop (e : Estimator) (D : Nat) : Nat → Nat × Nat → Nat × Nat
  | 0, (Q, Rm) => (Q, Rm)
  | f + 1, (Q, Rm) =>
    if estimate e Rm D = 0 then (Q, Rm)
    else divxLoop e D f (Q + estimate e Rm D, Rm - estimate e Rm D * D)

/-- The correction loop of `divx_mag` (R213): while Rm ≥ D, subtract D and count one. -/
def divxCorrect (D : Nat) : Nat → Nat × Nat → Nat × Nat
  | 0, (Q, Rm) => (Q, Rm)
  | f + 1, (Q, Rm) => if Rm ≥ D then divxCorrect D f (Q + 1, Rm - D) else (Q, Rm)

/-- `divx_mag` (R213). -/
def divxMag (e : Estimator) (A D : Nat) : Nat × Nat :=
  divxCorrect D (A / D + 1) (divxLoop e D (A / D + 1) (0, A))

/-- The signs of R212: the quotient's is the product of the operands', the remainder's is the dividend's; zero is
positive. -/
def signedQuotRem (x y : Int) (qr : Nat × Nat) : Int × Int :=
  (signed (productSign x y) qr.1, signed (decide (x < 0)) qr.2)

/-- Exact signed division of R212 by a divisor that is not 0. -/
def signedDiv (x y : Int) : Int × Int := signedQuotRem x y (divMag x.natAbs y.natAbs)

/-- `remove_core` (R230): divide by d while the remainder is zero, counting. The first argument bounds the passes: each
at least halves the dividend (log 14). -/
def removeCore (d : Int) : Nat → Nat × Int → Nat × Int
  | 0, kc => kc
  | f + 1, (k, c) =>
    if (signedDiv c d).2 ≠ 0 then (k, c) else removeCore d f (k + 1, (signedDiv c d).1)

/-- Multiplicity and cofactor of R231 for a divisor that is not 0: the degenerate cases, else `remove_core`. -/
def removeFactor (v d : Int) : Nat × Int :=
  if v = 0 then (0, 0)
  else if d.natAbs = 1 then (1, (signedDiv v d).1)
  else removeCore d (bitlen v.natAbs) (0, v)

/-! ## Commands -/

/-- How DIV and DIVX commit (R212, R211): on division by zero the sentinel, the dividend and DZ; otherwise the signed
quotient and remainder of the magnitudes' division. -/
def commitDivision (s : State) (rd rd2 : Reg) (x y : Int) (qr : Nat × Nat) : Result :=
  if y = 0 then succeed (((s.writeV rd (sentinel s.cfg.cap)).writeV rd2 x).setDz)
  else succeed ((s.writeV rd (signedQuotRem x y qr).1).writeV rd2 (signedQuotRem x y qr).2)

/-- DIV (R212). -/
def execDiv (rd rd2 rs1 rs2 : Reg) (s : State) : Result :=
  withDistinct s rd rd2 (withSources s rs1 rs2 fun a b =>
    commitDivision s rd rd2 a.val b.val (divMag a.mag b.mag))

/-- DIVX (R214). -/
def execDivx (rd rd2 rs1 rs2 : Reg) (s : State) : Result :=
  withDistinct s rd rd2 (withSources s rs1 rs2 fun a b =>
    commitDivision s rd rd2 a.val b.val (divxMag s.cfg.estimator a.mag b.mag))

/-- DIVA (R221). -/
def execDiva (rd rs1 rs2 : Reg) (s : State) : Result :=
  withSources s rs1 rs2 fun a b =>
    if b.val = 0 then succeed ((s.writeV rd (sentinel s.cfg.cap)).setDz)
    else succeed (s.writeV rd (signed (productSign a.val b.val) (estimate s.cfg.estimator a.mag b.mag)))

/-- REMOVE (R231). -/
def execRemove (rd rs1 rs2 : Reg) (s : State) : Result :=
  withSources s rs1 rs2 fun a b =>
    if b.val = 0 then succeed (((s.writeV rd a.val).writeResult 0).setDz)
    else
      let kc := removeFactor a.val b.val
      succeed ((s.writeV rd kc.2).writeResult (BitVec.ofNat 32 kc.1))

end Sys2Proof.Machine
end

