-- ==== Sys2Proof/Machine/LimbBuffer.lean ====
section
/-!
DEFINITION. Limb buffer commands: NOP, MOV, LDI, BITS (spec/40_limb_and_adder.md R131, R132, R133, R142).
-/

namespace Sys2Proof.Machine

/-- `count_bits` (R142): the top limb's bit length plus 31 times the number of limbs below it; 0 for zero. -/
def countBits (A : List Limb) : Nat :=
  if A.length = 0 then 0 else bitlen (limbAt A (A.length - 1)).toNat + 31 * (A.length - 1)

/-- NOP (R131): nothing but its completion. -/
def execNop (s : State) : Result := succeed s

/-- MOV (R132): `V[rd] <- a`, a deep copy; `norm` zero-fills what the copy does not use. -/
def execMov (rd rs1 : Reg) (s : State) : Result :=
  withSource s rs1 fun a => succeed (s.writeV rd a.val)

/-- LDI (R133): `V[rd] <- imm64`. -/
def execLdi (rd : Reg) (s : State) : Result := succeed (s.writeV rd s.imm64)

/-- BITS (R142): RESULT gets the bit length of |a|, whatever its sign. -/
def execBits (rs1 : Reg) (s : State) : Result :=
  withSource s rs1 fun a => succeed (s.writeResult (BitVec.ofNat 32 (countBits a.limbs)))

end Sys2Proof.Machine
end

