-- ==== Sys2Proof/Machine/Shifter.lean ====
section
/-!
DEFINITION. The barrel shifter (spec/41_shifter.md R170, R171) and the commands SHL, SHR (R172, R173).
-/

namespace Sys2Proof.Machine

/-! ## Datapaths -/

/-- The loop of `shl_mag` (R170): `w = (zext_64(T[j]) << r) | c`, T[j] = w[30:0], c = w >> 31; a final carry that is
not zero extends the length by one. -/
def shlLoop (r : Nat) : List Limb → Wide → List Limb
  | [], c => if c ≠ 0 then [c.extractLsb' 0 31] else []
  | t :: ts, c =>
    let w : Wide := (t.setWidth 64 <<< r) ||| c
    w.extractLsb' 0 31 :: shlLoop r ts (w >>> 31)

/-- `shl_mag` (R170): n div 31 zero limbs below, the limbs shifted by n mod 31 bits above them. -/
def shlMag (A : List Limb) (n : Nat) : List Limb := List.replicate (n / 31) 0 ++ shlLoop (n % 31) A 0

/-- Limb `j` of `shr_mag`'s result before the trim (R171): limb j+q shifted down by r, the low bits of the
next-higher limb pulled in above; only bits [30:0] are kept. -/
def shrLimb (A : List Limb) (q r j : Nat) : Limb :=
  (((limbAt A (j + q)).setWidth 64 >>> r) ||| ((limbAt A (j + q + 1)).setWidth 64 <<< (31 - r)) : Wide).extractLsb' 0 31

/-- The one trim step of `shr_mag` and `mul_mag`: a zero top limb is dropped. -/
def trimOne (T : List Limb) : List Limb :=
  if 0 < T.length ∧ limbAt T (T.length - 1) = 0 then T.dropLast else T

/-- `shr_mag` (R171): nothing where all limbs are dropped; else the limbs that remain, a zero top limb trimmed. -/
def shrMag (A : List Limb) (n : Nat) : List Limb :=
  if n / 31 ≥ A.length then []
  else trimOne ((List.range (A.length - n / 31)).map (shrLimb A (n / 31) (n % 31)))

/-- Whether |a| * 2^n, for a magnitude that is not 0, reaches B^CAP: its bit length, n more than |a|'s, exceeds that
of B^CAP - 1. The exact result decides CAPACITY (R170, R172) without being formed (log 13). -/
def shlOverflows (cap : Nat) (m n : Nat) : Bool := decide (31 * cap < bitlen m + n)

/-! ## Commands -/

/-- SHL (R172): zero stays zero for every count; otherwise the magnitude is shifted and the sign kept. -/
def execShl (rd rs1 : Reg) (s : State) : Result :=
  withSource s rs1 fun a =>
    if a.mag = 0 then succeed (s.writeV rd 0)
    else if shlOverflows s.cfg.cap a.mag s.count then raiseFault s .capacity
    else commitFitting s rd (signed a.neg (limbsVal (shlMag a.limbs s.count)))

/-- SHR (R173): the magnitude is shifted, so a negative value rounds toward zero; zero is positive. -/
def execShr (rd rs1 : Reg) (s : State) : Result :=
  withSource s rs1 fun a => succeed (s.writeV rd (signed a.neg (limbsVal (shrMag a.limbs s.count))))

end Sys2Proof.Machine
end

