-- ==== Sys2Proof/Machine/Multiplier.lean ====
section
/-!
DEFINITION. The schoolbook limb multiplier (spec/42_multiplier.md R190, R191) and the command MUL (R192).
-/

namespace Sys2Proof.Machine

/-! ## Datapath -/

/-- The inner pass of `mul_mag` (R190) for one limb `a` of the first operand: over the limbs of the second and the
aligned slice P[i..i+lb-1] of the result, `t = a * Bv[j] + P[i+j] + c`, the slice gets t[30:0] and c = t >> 31; the
last carry becomes P[i+lb]. -/
def mulRow (a : Limb) : List Limb → List Limb → Wide → List Limb
  | b :: bs, p :: ps, c =>
    let t : Wide := a.setWidth 64 * b.setWidth 64 + p.setWidth 64 + c
    t.extractLsb' 0 31 :: mulRow a bs ps (t >>> 31)
  | _, _, c => [c.extractLsb' 0 31]

/-- The outer loop of `mul_mag` (R190). `slice` is P[i..i+lb-1]; after the pass for limb i, P[i] is final and the
slice moves up by one limb. -/
def mulLoop (Bv : List Limb) : List Limb → List Limb → List Limb
  | [], slice => slice
  | a :: as, slice =>
    match mulRow a Bv slice 0 with
    | [] => []
    | p :: ps => p :: mulLoop Bv as ps

/-- `mul_mag` (R190): P starts as zeros; a zero top limb is trimmed. -/
def mulMag (A Bv : List Limb) : List Limb := trimOne (mulLoop Bv A (List.replicate Bv.length 0))

/-! ## Command -/

/-- The product of R192: a zero operand "immediately yields zero without entering the loop"; otherwise the product of
the magnitudes, its sign "the product of operand signs". -/
def signedMul (a b : Operand) : Int :=
  if a.mag = 0 ∨ b.mag = 0 then 0 else signed (a.neg != b.neg) (limbsVal (mulMag a.limbs b.limbs))

/-- MUL (R192). -/
def execMul (rd rs1 rs2 : Reg) (s : State) : Result :=
  withSources s rs1 rs2 fun a b => commitFitting s rd (signedMul a b)

end Sys2Proof.Machine
end

