-- ==== Sys2Proof/Machine/PowerRoot.lean ====
section
/-!
DEFINITION. Exponentiation and roots (spec/44_power_root.md): `pow_core` (R250), `sqrt_core` (R252), `cbrt_core`
(R254), `root_core` (R256); and the commands POW, SQRT, CBRT, ROOT (R251, R253, R255, R257). As in the spec, these
datapaths run on integers.
-/

namespace Sys2Proof.Machine

/-! ## Datapaths -/

/-- The loop of `pow_core` (R250) on its three rotating values r, s, e. The first argument bounds the passes: e has at
most 32 bits and loses one a pass. -/
def powLoop : Nat → Int → Int → Nat → Int
  | 0, r, _, _ => r
  | f + 1, r, s, e =>
    if e = 0 then r
    else powLoop f (if e % 2 = 1 then r * s else r) (if e / 2 > 0 then s * s else s) (e / 2)

/-- `pow_core` (R250), for an exponent of 32 bits. -/
def powCore (x : Int) (n : Nat) : Int := powLoop 32 1 x n

/-- Whether |a|^n is known to reach B^CAP from the bit length of |a| alone: |a|^n ≥ 2^((bitlen - 1) * n). It lets
CAPACITY (R251) be decided on exponents whose power is too long to form (log 13). -/
def powOverflows (cap : Nat) (m n : Nat) : Bool := decide (31 * cap ≤ (bitlen m - 1) * n)

/-- The loop of `sqrt_core` (R252) from bit-pair p-1 down to pair 0, on (res, rem). -/
def sqrtLoop (N : Nat) : Nat → Nat × Nat → Nat × Nat
  | 0, rr => rr
  | p + 1, (res, rem) =>
    let rem' := 4 * rem + (N >>> (2 * p)) % 4
    let t := 4 * res + 1
    if rem' ≥ t then sqrtLoop N p (2 * res + 1, rem' - t) else sqrtLoop N p (2 * res, rem')

/-- `sqrt_core` (R252). -/
def sqrtCore (N : Nat) : Nat × Nat := sqrtLoop N (ceilDiv (bitlen N) 2) (0, 0)

/-- The loop of `cbrt_core` (R254) from bit-triple p-1 down to triple 0, on (res, rem). -/
def cbrtLoop (N : Nat) : Nat → Nat × Nat → Nat × Nat
  | 0, rr => rr
  | p + 1, (res, rem) =>
    let rem' := 8 * rem + (N >>> (3 * p)) % 8
    let t := 12 * res * res + 6 * res + 1
    if rem' ≥ t then cbrtLoop N p (2 * res + 1, rem' - t) else cbrtLoop N p (2 * res, rem')

/-- `cbrt_core` (R254). -/
def cbrtCore (N : Nat) : Nat × Nat := cbrtLoop N (ceilDiv (bitlen N) 3) (0, 0)

/-- One Newton step of `root_core` (R256). -/
def newtonStep (N n x : Nat) : Nat := ((n - 1) * x + N / x ^ (n - 1)) / n

/-- The loop of `root_core` (R256): until the estimate stops decreasing. The first argument bounds the passes: each
lowers the estimate (log 14). -/
def rootLoop (N n : Nat) : Nat → Nat → Nat
  | 0, x => x
  | f + 1, x => if newtonStep N n x ≥ x then x else rootLoop N n f (newtonStep N n x)

/-- `root_core` (R256): the direct lookup, else Newton's iteration from 2^ceil(bitlen(N) / n). -/
def rootCore (N n : Nat) : Nat :=
  if n ≥ bitlen N then 1
  else rootLoop N n (2 ^ ceilDiv (bitlen N) n) (2 ^ ceilDiv (bitlen N) n)

/-- The root of R257 for a degree n ≥ 1, case by case in its order. -/
def signedRoot (a : Int) (n : Nat) : Int :=
  if n = 1 then a
  else if a = 0 then 0
  else if a < 0 ∧ n % 2 = 0 then 0
  else signed (decide (a < 0)) (if a.natAbs = 1 then 1 else rootCore a.natAbs n)

/-! ## Commands -/

/-- POW (R251). -/
def execPow (rd rs1 : Reg) (s : State) : Result :=
  withSource s rs1 fun a =>
    if powOverflows s.cfg.cap a.mag s.count then raiseFault s .capacity
    else commitFitting s rd (powCore a.val s.count)

/-- SQRT (R253): "square root of non-positive or zero input is zero with rem = num". -/
def execSqrt (rd rd2 rs1 : Reg) (s : State) : Result :=
  withDistinct s rd rd2 (withSource s rs1 fun a =>
    if a.val ≤ 0 then succeed ((s.writeV rd 0).writeV rd2 a.val)
    else succeed ((s.writeV rd (sqrtCore a.mag).1).writeV rd2 (sqrtCore a.mag).2))

/-- The root of R255: the cube root of the magnitude, with the sign of the radicand. -/
def signedCbrt (a : Operand) : Int := signed a.neg (if a.mag = 0 then 0 else (cbrtCore a.mag).1)

/-- CBRT (R255). -/
def execCbrt (rd rd2 rs1 : Reg) (s : State) : Result :=
  withDistinct s rd rd2 (withSource s rs1 fun a =>
    succeed ((s.writeV rd (signedCbrt a)).writeV rd2 (a.val - signedCbrt a ^ 3)))

/-- ROOT (R257): degree 0 is the fault ARG (R306), checked after the source (R308); the remainder is a - s^n. -/
def execRoot (rd rd2 rs1 : Reg) (s : State) : Result :=
  withDistinct s rd rd2 (withSource s rs1 fun a =>
    if s.count = 0 then raiseFault s .arg
    else
      let x := signedRoot a.val s.count
      succeed ((s.writeV rd x).writeV rd2 (a.val - powCore x s.count)))

end Sys2Proof.Machine
end

