-- ==== Sys2Proof/Machine/Dispatch.lean ====
section
/-!
DEFINITION. The meaning of each command: what the MPID's completion step does with it (spec/60_exceptions.md R308,
R311).
-/

namespace Sys2Proof.Machine

def exec (i : Instr) (s : State) : Host.Outcome State Fault Refusal :=
  match i with
  | .nop => Sys2Proof.Machine.execNop s
  | .mov rd rs1 => Sys2Proof.Machine.execMov rd rs1 s
  | .ldi rd => Sys2Proof.Machine.execLdi rd s
  | .add rd rs1 rs2 => Sys2Proof.Machine.execAdd rd rs1 rs2 s
  | .sub rd rs1 rs2 => Sys2Proof.Machine.execSub rd rs1 rs2 s
  | .cmp rs1 rs2 => Sys2Proof.Machine.execCmp rs1 rs2 s
  | .cmpm rs1 rs2 => Sys2Proof.Machine.execCmpm rs1 rs2 s
  | .bits rs1 => Sys2Proof.Machine.execBits rs1 s
  | .shl rd rs1 => Sys2Proof.Machine.execShl rd rs1 s
  | .shr rd rs1 => Sys2Proof.Machine.execShr rd rs1 s
  | .mul rd rs1 rs2 => Sys2Proof.Machine.execMul rd rs1 rs2 s
  | .div rd rd2 rs1 rs2 => Sys2Proof.Machine.execDiv rd rd2 rs1 rs2 s
  | .diva rd rs1 rs2 => Sys2Proof.Machine.execDiva rd rs1 rs2 s
  | .divx rd rd2 rs1 rs2 => Sys2Proof.Machine.execDivx rd rd2 rs1 rs2 s
  | .remove rd rs1 rs2 => Sys2Proof.Machine.execRemove rd rs1 rs2 s
  | .pow rd rs1 => Sys2Proof.Machine.execPow rd rs1 s
  | .sqrt rd rd2 rs1 => Sys2Proof.Machine.execSqrt rd rd2 rs1 s
  | .cbrt rd rd2 rs1 => Sys2Proof.Machine.execCbrt rd rd2 rs1 s
  | .root rd rd2 rs1 => Sys2Proof.Machine.execRoot rd rd2 rs1 s

end Sys2Proof.Machine
end

