-- ==== Sys2Proof/Machine/Turn.lean ====
section
/-!
DEFINITION. The turns of the agents (spec/10_state.md R30): the MPID's completion step, and one input.
-/

namespace Sys2Proof.Machine

/-- The MPID's turn: the pending command is checked, computed and completed (spec/60_exceptions.md R308, R311); a word
that decodes to nothing completes with the fault ILLEGAL (R302). With none pending the MPID is idle and nothing
changes (spec/70_reset_and_hazards.md R352). -/
def mpidTurn (s : State) : Result :=
  match s.pending with
  | none => .next s
  | some p =>
    match decode p.word with
    | .ok i => exec i s
    | .error _ => raiseFault s .illegal

/-- One input, taken off `inputs` already (log 3). -/
def takeInput (s : State) : Input → Result
  | .read off be => busRead s off be
  | .write off be w => busWrite s off be w
  | .mpid => mpidTurn s
  | .hwReset => .next s.resetNow

/-- The machine with `w` accepted as a command, as by a host write to CMD (spec/20_memory.md R72, R310), and the MPID's
turn next. -/
def issueNext (s : State) (w : Word) : State :=
  { s.accept w with inputs := .mpid :: s.inputs }

end Sys2Proof.Machine
end

