-- ==== Sys2Proof/Machine/Step.lean ====
section
/-!
DEFINITION. The step of the machine, and the placing of a command where the next step runs it (logs 3 and 4).
-/

namespace Sys2Proof.Machine

/-- One step: the next input; with no input left, the MPID's turn, so that an accepted command completes
(spec/70_reset_and_hazards.md R362, R363; log 3). -/
def step (s : State) : Host.Outcome State Fault Refusal :=
  match s.inputs with
  | [] => mpidTurn s
  | i :: rest => takeInput { s with inputs := rest } i

/-- The word `w`, of `nbits` bits, issued as a command, so that the very next step completes it: the MPID fetches
nothing (spec/10_state.md R37), its commands come from host writes to CMD (log 4). -/
def State.withFetchWord (s : State) (nbits w : Nat) : State :=
  issueNext s (BitVec.ofNat 32 (w % 2 ^ nbits))

end Sys2Proof.Machine
end

