-- ==== Sys2Proof/Machine/HostProgram.lean ====
section
/-!
DEFINITION. The host's notation (spec/00_scope.md R13) and the assembler's pseudo-instructions (spec/30_encoding.md
R110) as lists of inputs. `WAIT`, a loop that reads STATUS until BUSY = 0, is the MPID's turn.
-/

namespace Sys2Proof.Machine

/-- `WR <reg>, <w>` (R13). -/
def hostWrite (off : Nat) (w : Word) : List Input := [.write off 0xF w]

/-- `RD <reg>` (R13). -/
def hostRead (off : Nat) : List Input := [.read off 0xF]

/-- A command mnemonic line: `WR CMD, <its encoding>` followed by `WAIT` (R13). -/
def hostCommand (i : Instr) : List Input := hostWrite 0x00C (encode i) ++ [.mpid]

/-- `LI vd, imm` (R110): the two words of the immediate, then LDI. -/
def pseudoLi (vd : Reg) (imm : BitVec 64) : List Input :=
  hostWrite 0x010 (imm.extractLsb' 0 32) ++ hostWrite 0x014 (imm.extractLsb' 32 32) ++ hostCommand (.ldi vd)

/-- `CLR vd` (R110). -/
def pseudoClr (vd : Reg) : List Input := pseudoLi vd 0

/-- `SHLI vd, vs, n` (R110). -/
def pseudoShli (vd vs : Reg) (n : Word) : List Input := hostWrite 0x010 n ++ hostCommand (.shl vd vs)

/-- `SHRI vd, vs, n` (R110). -/
def pseudoShri (vd vs : Reg) (n : Word) : List Input := hostWrite 0x010 n ++ hostCommand (.shr vd vs)

/-- `POWI vd, vs, n` (R110). -/
def pseudoPowi (vd vs : Reg) (n : Word) : List Input := hostWrite 0x010 n ++ hostCommand (.pow vd vs)

/-- `ROOTI vs, vr, vx, n` (R110). -/
def pseudoRooti (vs vr vx : Reg) (n : Word) : List Input := hostWrite 0x010 n ++ hostCommand (.root vs vr vx)

/-- `SQR vd, vs` (R110). -/
def pseudoSqr (vd vs : Reg) : List Input := hostCommand (.mul vd vs vs)

/-- `MOD vr, vs1, vs2, vt` (R110): the quotient goes to the scratch register vt, which must differ from vr. -/
def pseudoMod (vr vs1 vs2 vt : Reg) : List Input := hostCommand (.div vt vr vs1 vs2)

end Sys2Proof.Machine
end

