-- ==== Sys2Proof/Safety.lean ====
section
/-!
DEFINITION. What a state of the MPID keeps on every run, and what counts as a good run, in the terms the statements
use.
-/

namespace Sys2Proof.Machine

/-- Storage is what the parameters say: CAP in its range, and exactly CAP limbs in every register
(spec/00_scope.md R5, spec/10_state.md R33). -/
abbrev State.wf (s : State) : Prop :=
  s.cfg.wf ∧ ∀ i : Reg, (s.readV i).limbs.length = s.cfg.cap

/-- While a command is pending, CMD, ARG0 and ARG1 still hold what was latched, since the host's writes to them are
discarded, and DONE is 0 (spec/20_memory.md R81, R89; spec/10_state.md R41, R53). -/
def State.latchKept (s : State) : Bool :=
  match s.pending with
  | none => true
  | some p => p.word == s.cmd && p.arg0 == s.arg0 && p.arg1 == s.arg1 && !s.done

/-- Every value register is valid (spec/10_state.md R35, R36). -/
abbrev State.allValid (s : State) : Prop := ∀ i : Reg, s.validReg i = true

/-- Whether an input is no access outside the port's address space (log 9). -/
def Input.inSpace (cap : Nat) : Input → Bool
  | .read off _ => decide (off < 2 ^ addrBits cap)
  | .write off _ _ => decide (off < 2 ^ addrBits cap)
  | .mpid => true
  | .hwReset => true

/-- No access outside the port's address space is to come: the states from which `step` never stops. -/
def State.inputsInSpace (s : State) : Bool := s.inputs.all (Input.inSpace s.cfg.cap)

/-- Whether a state differs from another only in what a command may write and in the status of its completion: its
destination registers, RESULT where it writes RESULT, DZ where it may divide by zero (spec/10_state.md R40, R52),
BUSY, DONE, ERR and ECODE (spec/60_exceptions.md R311, R312). -/
structure State.FrameOf (i : Instr) (s t : State) : Prop where
  cfg : t.cfg = s.cfg
  registers : ∀ j : Reg, j ∉ i.dests → t.readV j = s.readV j
  result : i.writesResult = false → t.result = s.result
  dz : i.mayDivideByZero = false → t.dz = s.dz
  arg0 : t.arg0 = s.arg0
  arg1 : t.arg1 = s.arg1
  cmd : t.cmd = s.cmd
  ie : t.ie = s.ie
  ovr : t.ovr = s.ovr
  rsp : t.rsp = s.rsp
  draws : t.draws = s.draws
  inputs : t.inputs = s.inputs

/-- A run is good while no command has faulted and no host write was lost
(spec/93_implementation_defined.md section 1). -/
abbrev State.good (s : State) : Prop := s.err = false ∧ s.ovr = false

end Sys2Proof.Machine
end

