-- ==== Sys2Proof/Certificates/Slice0/Obligations.lean ====
section
/-!
DEFINITION. The statements for the provers. Each docstring names the rule it formalises. "a" and "b" are the values of
the source registers; every statement about a command holds for every register the command can name, sources and
destinations coinciding in any way the rules allow.
-/

open Sys2Proof Sys2Proof.Machine

/-! ## Command words -/

/-- Decoding the word of any command gives the command back: no bit of an encoding is dropped (R101, R105, R107). -/
def Obligations.DecodeOfEncode : Prop := ∀ i : Instr, decode (encode i) = .ok i

/-- Each command has one word: a word that decodes is the word of what it decodes to (R103, R104, R107). -/
def Obligations.EncodeOfDecode : Prop := ∀ (w : Word) (i : Instr), decode w = .ok i → encode i = w

/-- R107: decoding is total and follows the map: a word that a row accepts decodes to that row's command with the
word's fields, a word that none accepts is ILLEGAL, and "at most one row matches any word". -/
def Obligations.DecodingFollowsTheMap : Prop :=
  (∀ (w : Word) (r : Row), r ∈ opcodeMap → w &&& r.mask = r.matchWord →
    decode w = .ok (r.make (rdField w) (rd2Field w) (rs1Field w) (rs2Field w))) ∧
  (∀ w : Word, (∀ r ∈ opcodeMap, w &&& r.mask ≠ r.matchWord) → ∃ e, decode w = .error e) ∧
  (∀ (w : Word) (k l : Nat) (r q : Row), opcodeMap[k]? = some r → opcodeMap[l]? = some q →
    w &&& r.mask = r.matchWord → w &&& q.mask = q.matchWord → k = l)

/-- R103, R104, R106: a word with a reserved bit set, with an opcode the map does not list, or with a non-zero field
its opcode's format does not use, is ILLEGAL; NOP is only the word 0. -/
def Obligations.ReservedWordsAreIllegal : Prop :=
  (∀ w : Word, rsvField w ≠ 0 → ∃ e, decode w = .error e) ∧
  (∀ w : Word, (∀ r ∈ opcodeMap, r.op ≠ opField w) → ∃ e, decode w = .error e) ∧
  (∀ (w : Word) (r : Row), r ∈ opcodeMap → r.op = opField w → w &&& r.mask ≠ r.matchWord →
    ∃ e, decode w = .error e) ∧
  (∀ w : Word, decode w = .ok .nop ↔ w = 0)

/-- Words written out from R101 and R105, the examples of R109 and of 95_test_vectors.md among them, decode to the
commands they stand for. -/
def Obligations.WrittenOutWordsDecode : Prop :=
  decode 0x00000000 = .ok .nop ∧ decode 0x00000302 = .ok (.ldi 3) ∧ decode 0x00021310 = .ok (.add 3 1 2) ∧
  decode 0x00021012 = .ok (.cmp 1 2) ∧ decode 0x00001014 = .ok (.bits 1) ∧ decode 0x00001320 = .ok (.shl 3 1) ∧
  decode 0x00021330 = .ok (.mul 3 1 2) ∧ decode 0x00521440 = .ok (.div 4 5 1 2) ∧
  decode 0x00401353 = .ok (.root 3 4 1)

/-! ## Reset -/

/-- R351: the reset value of every piece of state, for every choice of the parameters. -/
def Obligations.ResetValues : Prop :=
  ∀ c : Config, c.wf →
    (∀ i : Reg, ((State.resetWith c).readV i).sign = false ∧ ((State.resetWith c).readV i).len = 0 ∧
      (∀ j < c.cap, limbAt ((State.resetWith c).readV i).limbs j = 0) ∧ (State.resetWith c).val i = 0) ∧
    (State.resetWith c).arg0 = 0 ∧ (State.resetWith c).arg1 = 0 ∧ (State.resetWith c).result = 0 ∧
    (State.resetWith c).cmd = 0 ∧ (State.resetWith c).ie = false ∧ (State.resetWith c).statusWord = 0 ∧
    (State.resetWith c).pending = none ∧ (State.resetWith c).irq = false ∧
    (State.resetWith c).idWord = BitVec.ofNat 32 (65536 * c.cap + 0x101F)

/-- R350, R326: a hardware reset, and a write of CTRL with bit 1 set whatever its other bits, both at any time, have the
same effect: the pending command is dropped without completion and every piece of state takes its reset value. What
is still to come, and the model's count of draws, stay (logs 3, 5); the write gets its response (log 7). -/
def Obligations.ResetEvents : Prop :=
  ∀ (s : State) (rest : List Input),
    (s.inputs = .hwReset :: rest →
      step s = .next { State.resetWith s.cfg with inputs := rest, draws := s.draws }) ∧
    (∀ w : Word, w.getLsbD 1 = true → s.inputs = .write 0x004 0xF w :: rest →
      step s = .next { State.resetWith s.cfg with
        inputs := rest, draws := s.draws, rsp := some { data := 0, err := false } })

/-- R43, R46, R47: a write of CTRL with bit 1 clear sets IE from bit 0 and changes nothing else, busy or not; CTRL reads
IE in bit 0 and 0 in every other bit. -/
def Obligations.ControlRegister : Prop :=
  ∀ s : State,
    (∀ w : Word, w.getLsbD 1 = false → busWrite s 0x004 0xF w =
      .next { s with ie := w.getLsbD 0, rsp := some { data := 0, err := false } }) ∧
    busRead s 0x004 0xF =
      .next { s with rsp := some { data := BitVec.ofNat 32 s.ie.toNat, err := false } }

/-- R352: an idle MPID executes nothing: with no command pending, the MPID's turn changes nothing, be it the next input
or, with no input left (log 3), the default. -/
def Obligations.IdleMachineRests : Prop :=
  ∀ s : State, s.pending = none →
    (s.inputs = [] → step s = .next s) ∧
    (∀ rest, s.inputs = .mpid :: rest → step s = .next { s with inputs := rest })

/-! ## The host bus -/

/-- R79: an access with another width or offset than the legal one, in the address space, is answered with the error
response and data 0 and changes nothing else, busy or not (log 8); a legal one gets no error response. -/
def Obligations.IllegalAccessIsBusError : Prop :=
  ∀ (s : State) (off : Nat) (be : BitVec 4) (w : Word), off < 2 ^ addrBits s.cfg.cap →
    (be ≠ 0xF ∨ off % 4 ≠ 0 →
      busRead s off be = .next { s with rsp := some { data := 0, err := true } } ∧
      busWrite s off be w = .next { s with rsp := some { data := 0, err := true } }) ∧
    (be = 0xF → off % 4 = 0 →
      (∃ (t : State) (d : Word), busRead s off be = .next t ∧ t.rsp = some { data := d, err := false }) ∧
      ∃ t : State, busWrite s off be w = .next t ∧ t.rsp = some { data := 0, err := false })

/-- R84, R80: "No read has a side effect": whatever a read answers, nothing but the response (and the model's count of
draws, log 5) has changed. With no command pending, a legal read of any offset answers the whole word that stands
there. -/
def Obligations.ReadsHaveNoSideEffect : Prop :=
  (∀ (s t : State) (off : Nat) (be : BitVec 4), busRead s off be = .next t →
    t = { s with rsp := t.rsp, draws := t.draws }) ∧
  (∀ (s : State) (off : Nat), s.pending = none → off % 4 = 0 → off < 2 ^ addrBits s.cfg.cap →
    busRead s off 0xF = .next { s with rsp := some { data := s.wordAt off, err := false } })

/-- R74: with no command pending, a bus read of the header word of V[i] answers LEN in [15:0], SIGN in bit 31 and 0 in
[30:16]; a write to it sets LEN and SIGN of that register and nothing else, and a bus read of the state so reached
answers the written word with [30:16] zero. -/
def Obligations.HeaderWordWrite : Prop :=
  ∀ (s : State) (i : Reg) (w : Word), s.pending = none →
    busRead s (windowBase s.cfg.cap i) 0xF =
      .next { s with rsp := some { data := BitVec.ofBool (s.readV i).sign ++ 0#15 ++ (s.readV i).len, err := false } } ∧
    ∃ t, busWrite s (windowBase s.cfg.cap i) 0xF w = .next t ∧
      t = { s.setV i { s.readV i with sign := w.getLsbD 31, len := w.extractLsb' 0 16 } with
        rsp := some { data := 0, err := false } } ∧
      busRead t (windowBase s.cfg.cap i) 0xF =
        .next { t with rsp := some { data := w &&& 0x8000FFFF, err := false } }

/-- R75: with no command pending, a bus read of the limb word L[j] answers the limb with bit 31 zero; a write to it
stores bits [30:0], whether or not j < LEN, and a bus read of the state so reached answers the written word with bit 31
zero; every byte of every other word of the address space reads as before (bytes: log 20). -/
def Obligations.LimbWordWrite : Prop :=
  ∀ (s : State) (i : Reg) (j : Nat) (w : Word), s.wf → s.pending = none → j < s.cfg.cap →
    busRead s (windowBase s.cfg.cap i + 4 * (j + 1)) 0xF =
      .next { s with rsp := some { data := 0#1 ++ limbAt (s.readV i).limbs j, err := false } } ∧
    ∃ t, busWrite s (windowBase s.cfg.cap i + 4 * (j + 1)) 0xF w = .next t ∧
      limbAt (t.readV i).limbs j = w.extractLsb' 0 31 ∧
      busRead t (windowBase s.cfg.cap i + 4 * (j + 1)) 0xF =
        .next { t with rsp := some { data := w &&& 0x7FFFFFFF, err := false } } ∧
      ∀ off, off / 4 ≠ (windowBase s.cfg.cap i + 4 * (j + 1)) / 4 → t.byteAt off = s.byteAt off

/-- R71, R38, R39, R40, R42, R83: busy or not, bus reads of ID, ARG0, ARG1 and RESULT answer the constant and the
registers' current values. With no command pending, writes to ARG0 and ARG1 store their data; writes to ID and RESULT
are ignored. R77: a reserved control offset, or one above the windows, reads 0, busy or not, and ignores writes; R76: so
does a reserved word of a window with no command pending. R5, R73: the windows' place and size. -/
def Obligations.RegisterMapAccess : Prop :=
  (∀ s : State,
    busRead s 0x000 0xF =
      .next { s with rsp := some { data := BitVec.ofNat 32 (65536 * s.cfg.cap + 0x101F), err := false } } ∧
    busRead s 0x010 0xF = .next { s with rsp := some { data := s.arg0, err := false } } ∧
    busRead s 0x014 0xF = .next { s with rsp := some { data := s.arg1, err := false } } ∧
    busRead s 0x018 0xF = .next { s with rsp := some { data := s.result, err := false } }) ∧
  (∀ (s : State) (w : Word), s.pending = none →
    busWrite s 0x010 0xF w = .next { s with arg0 := w, rsp := some { data := 0, err := false } } ∧
    busWrite s 0x014 0xF w = .next { s with arg1 := w, rsp := some { data := 0, err := false } } ∧
    busWrite s 0x000 0xF w = .next { s with rsp := some { data := 0, err := false } } ∧
    busWrite s 0x018 0xF w = .next { s with rsp := some { data := 0, err := false } }) ∧
  (∀ (s : State) (off : Nat) (w : Word), off % 4 = 0 → off < 2 ^ addrBits s.cfg.cap →
    (0x01C ≤ off ∧ off < 0x1000) ∨ 0x1000 + 16 * windowStride s.cfg.cap ≤ off →
    busRead s off 0xF = .next { s with rsp := some { data := 0, err := false } } ∧
    busWrite s off 0xF w = .next { s with rsp := some { data := 0, err := false } }) ∧
  (∀ (s : State) (i : Reg) (off : Nat) (w : Word), s.pending = none → off % 4 = 0 →
    windowBase s.cfg.cap i + 4 * (s.cfg.cap + 1) ≤ off →
    off < windowBase s.cfg.cap i + windowStride s.cfg.cap →
    busRead s off 0xF = .next { s with rsp := some { data := 0, err := false } } ∧
    busWrite s off 0xF w = .next { s with rsp := some { data := 0, err := false } }) ∧
  (∀ cap : Nat,
    (∃ k, windowStride cap = 4 * 2 ^ k ∧ cap + 1 ≤ 2 ^ k ∧ ∀ m, cap + 1 ≤ 2 ^ m → k ≤ m) ∧
    (∀ i : Reg, windowBase cap i = 0x1000 + i.val * windowStride cap) ∧
    0x1000 + 16 * windowStride cap ≤ 2 ^ addrBits cap ∧
    ∀ m, 0x1000 + 16 * windowStride cap ≤ 2 ^ m → addrBits cap ≤ m)

/-- R50: "A host write w to STATUS clears each of DONE, ERR, DZ, OVR whose bit is 1 in w and changes nothing else",
busy or not; STATUS reads with BUSY, DONE, ERR, DZ, OVR in bits 0 to 4, ECODE in bits [11:8] and 0 elsewhere; all of it
is 0 at reset. -/
def Obligations.StatusRegister : Prop :=
  (∀ (s : State) (w : Word), busWrite s 0x008 0xF w =
    .next { s with
      done := s.done && !w.getLsbD 1, err := s.err && !w.getLsbD 2, dz := s.dz && !w.getLsbD 3,
      ovr := s.ovr && !w.getLsbD 4, rsp := some { data := 0, err := false } }) ∧
  (∀ s : State, busRead s 0x008 0xF = .next { s with rsp := some { data := s.statusWord, err := false } } ∧
    s.statusWord.toNat = s.pending.isSome.toNat + 2 * s.done.toNat + 4 * s.err.toNat + 8 * s.dz.toNat +
      16 * s.ovr.toNat + 256 * s.ecode.bits.toNat) ∧
  (∀ c : Config, (State.resetWith c).statusWord = 0)

/-- R310: a write of CMD with no command pending issues it: the word is stored, it and the scalars are latched, BUSY is
1 and DONE is 0, and nothing else changes; with a command pending the write is discarded and sets OVR. -/
def Obligations.CommandAccepted : Prop :=
  ∀ (s : State) (w : Word),
    (s.pending = none → busWrite s 0x00C 0xF w =
      .next { s with
        cmd := w, pending := some { word := w, arg0 := s.arg0, arg1 := s.arg1 }, done := false,
        rsp := some { data := 0, err := false } }) ∧
    (s.pending ≠ none → busWrite s 0x00C 0xF w =
      .next { s with ovr := true, rsp := some { data := 0, err := false } })

/-- R72: "A host write to CMD (offset 0x00C) while BUSY = 0 is the only way a command starts"; a read of CMD has no side
effect. -/
def Obligations.OnlyCmdWriteStartsCommand : Prop :=
  (∀ (s t : State) (p : Pending), step s = .next t → s.pending = none → t.pending = some p →
    ∃ (w : Word) (rest : List Input), s.inputs = .write 0x00C 0xF w :: rest ∧
      p = { word := w, arg0 := s.arg0, arg1 := s.arg1 }) ∧
  (∀ s : State, busRead s 0x00C 0xF = .next { s with rsp := some { data := s.cmd, err := false } })

/-- R81: while a command is pending, a write to CMD, ARG0, ARG1 or a word of a value window is discarded and sets OVR;
a write to CTRL or STATUS takes effect as usual; a write to ID, RESULT, a reserved control offset or an offset above the
windows is ignored without OVR. (A reserved word inside a window counts as a word of the window: log 6.) -/
def Obligations.BusyWritesAreDiscarded : Prop :=
  ∀ (s : State) (off : Nat) (w : Word), s.pending ≠ none → off % 4 = 0 → off < 2 ^ addrBits s.cfg.cap →
    ((off = 0x00C ∨ off = 0x010 ∨ off = 0x014 ∨
        ∃ i : Reg, windowBase s.cfg.cap i ≤ off ∧ off < windowBase s.cfg.cap i + windowStride s.cfg.cap) →
      busWrite s off 0xF w = .next { s with ovr := true, rsp := some { data := 0, err := false } }) ∧
    (off = 0x004 → busWrite s off 0xF w = .next ((s.writeCtrl w).respond 0 false)) ∧
    (off = 0x008 → busWrite s off 0xF w = .next ((s.clearStatus w).respond 0 false)) ∧
    ((off = 0x000 ∨ (0x018 ≤ off ∧ off < 0x1000) ∨ 0x1000 + 16 * windowStride s.cfg.cap ≤ off) →
      busWrite s off 0xF w = .next { s with rsp := some { data := 0, err := false } })

/-- R82: while a command is pending, a read of any word of a value window answers the free word of its draw, whatever
that is (log 5), and changes nothing but the response and the count of draws. -/
def Obligations.BusyWindowReadIsFree : Prop :=
  ∀ (s : State) (off : Nat) (i : Reg), s.pending ≠ none → off % 4 = 0 →
    windowBase s.cfg.cap i ≤ off → off < windowBase s.cfg.cap i + windowStride s.cfg.cap →
    busRead s off 0xF =
      .next { s with rsp := some { data := Config.freeWord s.draws, err := false }, draws := s.draws + 1 }

/-- R83, R311: the host sees nothing of a command before its completion: as long as it stays pending, no step changes
a value register, RESULT, or the latched command. -/
def Obligations.NothingVisibleBeforeCompletion : Prop :=
  ∀ (s t : State) (p q : Pending), s.pending = some p → step s = .next t → t.pending = some q →
    q = p ∧ t.result = s.result ∧ ∀ i : Reg, t.readV i = s.readV i

/-- R59, R314: the interrupt line is CTRL.IE AND STATUS.DONE: with IE set, every completion, a fault or not, raises it,
and accepting a command, writing 1 to DONE or a reset lowers it; with IE clear it is 0. -/
def Obligations.InterruptLine : Prop :=
  (∀ s : State, s.irq = (s.ie && s.done)) ∧
  (∀ (i : Instr) (s t : State), exec i s = .next t → t.irq = s.ie) ∧
  (∀ (s t : State) (w : Word), s.pending = none → busWrite s 0x00C 0xF w = .next t → t.irq = false) ∧
  (∀ (s t : State) (w : Word), w.getLsbD 1 = true → busWrite s 0x008 0xF w = .next t → t.irq = false) ∧
  (∀ c : Config, (State.resetWith c).irq = false)

/-! ## The step -/

/-- A step takes the next input. The MPID's turn runs the decoded command: at an input `mpid`, or with no input left, a
step with a pending word that decodes to `i` is `exec i` of the state, the input taken (R311). At an input `read` or
`write` a step is `busRead` or `busWrite` of the state, the input taken (R361). The form of the inputs is the model's
(logs 3, 4). -/
def Obligations.StepRunsDecodedCommand : Prop :=
  (∀ (s : State) (p : Pending) (i : Instr), s.pending = some p → decode p.word = .ok i →
    (s.inputs = [] → step s = exec i s) ∧
    (∀ rest, s.inputs = .mpid :: rest → step s = exec i { s with inputs := rest })) ∧
  (∀ (s : State) (off : Nat) (be : BitVec 4) (rest : List Input), s.inputs = .read off be :: rest →
    step s = busRead { s with inputs := rest } off be) ∧
  (∀ (s : State) (off : Nat) (be : BitVec 4) (w : Word) (rest : List Input), s.inputs = .write off be w :: rest →
    step s = busWrite { s with inputs := rest } off be w)

/-- A command placed by `withFetchWord` is run by the very next step, on the state its acceptance leaves, with the
scalars ARG0 and ARG1 held (R310, R311; log 4). -/
def Obligations.PlacedCommandRunsNext : Prop :=
  ∀ (s : State) (i : Instr),
    step (s.withFetchWord 32 (encode i).toNat) = exec i (s.accept (encode i)) ∧
    (s.accept (encode i)).count = s.arg0.toNat ∧ (s.accept (encode i)).imm64 = (s.arg1 ++ s.arg0).toInt

/-- R302: a pending word that does not decode completes with ILLEGAL: nothing is read or written but the status.
When its turn comes is the model's choice (log 3). -/
def Obligations.IllegalWordFaults : Prop :=
  ∀ (s : State) (p : Pending) (e : IllegalReason), s.pending = some p → decode p.word = .error e →
    (s.inputs = [] →
      step s = .next { s with pending := none, done := true, err := true, ecode := .illegal }) ∧
    (∀ rest, s.inputs = .mpid :: rest →
      step s = .next { s with pending := none, done := true, err := true, ecode := .illegal, inputs := rest })

/-- The machine stops only at an access outside the port's address space (log 9). -/
def Obligations.StepNeverStopsInSpace : Prop :=
  (∀ s : State, s.inputsInSpace = true → ∃ t, step s = .next t) ∧
  (∀ (s : State) (off : Nat) (be : BitVec 4) (w : Word) (rest : List Input), 2 ^ addrBits s.cfg.cap ≤ off →
    s.inputs = .read off be :: rest ∨ s.inputs = .write off be w :: rest → step s = .fault .offsetOutsideSpace)

/-! ## Every command -/

/-- R311, R312: every command, in every state, completes: `exec` answers a next state with BUSY 0, no pending command
and DONE 1; ERR is set by a fault and otherwise unchanged; DZ is set only by DIV, DIVX, DIVA and REMOVE, only on success,
and cleared by none. -/
def Obligations.EveryCommandCompletes : Prop :=
  ∀ (i : Instr) (s : State), ∃ t, exec i s = .next t ∧
    t.pending = none ∧ t.busy = false ∧ t.done = true ∧ t.err = (s.err || t.ecode != .ok) ∧
    (s.dz = true → t.dz = true) ∧ (t.ecode ≠ .ok → t.dz = s.dz) ∧ (i.mayDivideByZero = false → t.dz = s.dz)

/-- R309: a fault is precise: whichever code a command faults with, the state is the state before but for the status. -/
def Obligations.FaultsArePrecise : Prop :=
  ∀ (i : Instr) (s t : State), exec i s = .next t → t.ecode ≠ .ok →
    t = { s with pending := none, done := true, err := true, ecode := t.ecode }

/-- R301, R305, R306: which commands can end with which code: ALIAS only those of two destinations, OPERAND only those
with a source, ARG only ROOT, CAPACITY only ADD, SUB, MUL, SHL and POW; ILLEGAL none that decodes. -/
def Obligations.WhichCommandsRaiseWhich : Prop :=
  ∀ (i : Instr) (s t : State), s.cfg.wf → exec i s = .next t →
    t.ecode ≠ .illegal ∧
    (t.ecode = .destAlias → i.format = .ddss ∨ i.format = .dds) ∧
    (t.ecode = .operand → i.sources ≠ []) ∧
    (t.ecode = .arg → ∃ rd rd2 rs1, i = .root rd rd2 rs1) ∧
    (t.ecode = .capacity → ∃ rd rs1 rs2, i = .add rd rs1 rs2 ∨ i = .sub rd rs1 rs2 ∨ i = .mul rd rs1 rs2 ∨
      i = .shl rd rs1 ∨ i = .pow rd rs1)

/-- R303: DIV, DIVX, SQRT, CBRT and ROOT with one register as both destinations end with ALIAS, whatever their sources
hold and whatever ARG0 is (R308); no command ends with ALIAS for another reason, so sources may be destinations. -/
def Obligations.EqualDestinationsFault : Prop :=
  (∀ (s : State) (rd rs1 rs2 : Reg),
    exec (.div rd rd rs1 rs2) s = .next { s with pending := none, done := true, err := true, ecode := .destAlias } ∧
    exec (.divx rd rd rs1 rs2) s = .next { s with pending := none, done := true, err := true, ecode := .destAlias } ∧
    exec (.sqrt rd rd rs1) s = .next { s with pending := none, done := true, err := true, ecode := .destAlias } ∧
    exec (.cbrt rd rd rs1) s = .next { s with pending := none, done := true, err := true, ecode := .destAlias } ∧
    exec (.root rd rd rs1) s = .next { s with pending := none, done := true, err := true, ecode := .destAlias }) ∧
  (∀ (i : Instr) (s t : State), exec i s = .next t → (t.ecode = .destAlias ↔
    ∃ rd rs1 rs2 : Reg, i = .div rd rd rs1 rs2 ∨ i = .divx rd rd rs1 rs2 ∨ i = .sqrt rd rd rs1 ∨ i = .cbrt rd rd rs1 ∨
      i = .root rd rd rs1))

/-- R304, R308: a command whose destinations differ, where it has two, and that has a source register that is not valid
(LEN above CAP, a zero top limb, or a negative zero, R35) ends with OPERAND, whatever its scalar is; no command ends
with OPERAND for another reason: destinations are not checked. -/
def Obligations.InvalidSourceFaults : Prop :=
  (∀ (i : Instr) (s : State) (r : Reg), i.wellFormed = true → r ∈ i.sources →
    (s.cfg.cap < (s.readV r).len.toNat ∨
      ((s.readV r).len ≠ 0 ∧ limbAt (s.readV r).limbs ((s.readV r).len.toNat - 1) = 0) ∨
      ((s.readV r).len = 0 ∧ (s.readV r).sign = true)) →
    exec i s = .next { s with pending := none, done := true, err := true, ecode := .operand }) ∧
  (∀ (i : Instr) (s t : State), exec i s = .next t → t.ecode = .operand →
    ∃ r ∈ i.sources, s.validReg r = false)

/-- The frame of every command (R105, R40, R52, R311, R312): every register but its destinations, RESULT but for CMP,
CMPM, BITS and REMOVE, DZ but for DIV, DIVX, DIVA and REMOVE, and everything else but BUSY, DONE, ERR and ECODE, is as
before. -/
def Obligations.CommandsLeaveTheRest : Prop :=
  ∀ (i : Instr) (s t : State), exec i s = .next t → s.FrameOf i t

/-- The frame of every command over the address space: every byte that is not in the window of a destination, in STATUS
or, for CMP, CMPM, BITS and REMOVE, in RESULT, reads as before (bytes: log 20). -/
def Obligations.CommandsLeaveOtherBytes : Prop :=
  ∀ (i : Instr) (s t : State) (off : Nat), exec i s = .next t →
    (∀ d ∈ i.dests, ¬ (windowBase s.cfg.cap d ≤ off ∧ off < windowBase s.cfg.cap d + windowStride s.cfg.cap)) →
    off / 4 ≠ 0x008 / 4 → (i.writesResult = true → off / 4 ≠ 0x018 / 4) → t.byteAt off = s.byteAt off

/-- R36, R10, R34: "Every value a command writes is valid and normal": a register a command writes is valid and holds
norm of an integer z that fits: SIGN says whether z is negative, LEN is the number of base-B digits of |z|, L[j] is digit
j for j < CAP, and every limb from LEN up to CAP is 0. -/
def Obligations.WrittenRegistersAreNormal : Prop :=
  ∀ (i : Instr) (s t : State) (d : Reg), s.cfg.wf → exec i s = .next t → t.ecode = .ok → d ∈ i.dests →
    t.validReg d = true ∧ ∃ z : Int, z.natAbs < limbBase ^ s.cfg.cap ∧ t.readV d = norm s.cfg.cap z ∧ t.val d = z ∧
      (t.readV d).sign = decide (z < 0) ∧
      z.natAbs < limbBase ^ (t.readV d).len.toNat ∧
      ((t.readV d).len ≠ 0 → limbBase ^ ((t.readV d).len.toNat - 1) ≤ z.natAbs) ∧
      (∀ j < s.cfg.cap, (limbAt (t.readV d).limbs j).toNat = z.natAbs / limbBase ^ j % limbBase) ∧
      ∀ j < s.cfg.cap, (t.readV d).len.toNat ≤ j → limbAt (t.readV d).limbs j = 0

/-! ## Moves, addition, comparison -/

/-- R131: NOP does nothing but complete. -/
def Obligations.NopOnlyCompletes : Prop :=
  ∀ s : State, exec .nop s = .next { s with pending := none, done := true, ecode := .ok }

/-- R132: MOV copies the value, sign and all. -/
def Obligations.MovCopiesValue : Prop :=
  ∀ (s : State) (rd rs1 : Reg), s.cfg.wf → s.validReg rs1 = true →
    exec (.mov rd rs1) s = .next ((s.writeV rd (s.val rs1)).complete .ok) ∧
    ((s.writeV rd (s.val rs1)).complete .ok).val rd = s.val rs1

/-- R133: LDI loads ARG1 ‖ ARG0, as latched, read as a signed 64-bit integer; it always fits. -/
def Obligations.LdiLoadsImmediate : Prop :=
  ∀ (s : State) (p : Pending) (rd : Reg), s.cfg.wf → s.pending = some p →
    exec (.ldi rd) s = .next ((s.writeV rd (p.arg1 ++ p.arg0).toInt).complete .ok) ∧
    ((s.writeV rd (p.arg1 ++ p.arg0).toInt).complete .ok).val rd = (p.arg1 ++ p.arg0).toInt

/-- R138, R139: ADD writes the exact sum and SUB the exact difference where it fits, and ends with CAPACITY where it
does not. -/
def Obligations.SumsAreExact : Prop :=
  ∀ (s : State) (rd rs1 rs2 : Reg), s.cfg.wf → s.validReg rs1 = true → s.validReg rs2 = true →
    ((s.val rs1 + s.val rs2).natAbs < limbBase ^ s.cfg.cap →
      exec (.add rd rs1 rs2) s = .next ((s.writeV rd (s.val rs1 + s.val rs2)).complete .ok) ∧
      ((s.writeV rd (s.val rs1 + s.val rs2)).complete .ok).val rd = s.val rs1 + s.val rs2) ∧
    (limbBase ^ s.cfg.cap ≤ (s.val rs1 + s.val rs2).natAbs →
      exec (.add rd rs1 rs2) s = .next (s.complete .capacity)) ∧
    ((s.val rs1 - s.val rs2).natAbs < limbBase ^ s.cfg.cap →
      exec (.sub rd rs1 rs2) s = .next ((s.writeV rd (s.val rs1 - s.val rs2)).complete .ok) ∧
      ((s.writeV rd (s.val rs1 - s.val rs2)).complete .ok).val rd = s.val rs1 - s.val rs2) ∧
    (limbBase ^ s.cfg.cap ≤ (s.val rs1 - s.val rs2).natAbs →
      exec (.sub rd rs1 rs2) s = .next (s.complete .capacity))

/-- R140, R141: CMP and CMPM put the sign of a - b, of |a| - |b|, into RESULT as -1, 0 or 1 in two's complement, and
write no value register. -/
def Obligations.ComparisonsGiveTheSign : Prop :=
  ∀ (s : State) (rs1 rs2 : Reg), s.validReg rs1 = true → s.validReg rs2 = true →
    exec (.cmp rs1 rs2) s =
      .next ((s.writeResult (BitVec.ofInt 32 (s.val rs1 - s.val rs2).sign)).complete .ok) ∧
    exec (.cmpm rs1 rs2) s =
      .next ((s.writeResult (BitVec.ofInt 32
        (((s.val rs1).natAbs : Int) - ((s.val rs2).natAbs : Int)).sign)).complete .ok)

/-- R142: BITS puts into RESULT the k with 2^(k-1) ≤ |a| < 2^k, and 0 for a = 0, whatever the sign. -/
def Obligations.BitsCountsTheMagnitude : Prop :=
  ∀ (s : State) (rs1 : Reg), s.cfg.wf → s.validReg rs1 = true →
    ∃ k : Nat, k < 2 ^ 32 ∧ (s.val rs1).natAbs < 2 ^ k ∧ (s.val rs1 = 0 → k = 0) ∧
      (s.val rs1 ≠ 0 → 0 < k ∧ 2 ^ (k - 1) ≤ (s.val rs1).natAbs) ∧
      exec (.bits rs1) s = .next ((s.writeResult (BitVec.ofNat 32 k)).complete .ok)

/-! ## Shifts and products -/

/-- R172: SHL multiplies by 2^n where the result fits, zero by every n, and ends with CAPACITY where it does not. -/
def Obligations.ShlMultipliesByPower : Prop :=
  ∀ (s : State) (rd rs1 : Reg), s.cfg.wf → s.validReg rs1 = true →
    ((s.val rs1).natAbs * 2 ^ s.count < limbBase ^ s.cfg.cap →
      exec (.shl rd rs1) s = .next ((s.writeV rd (s.val rs1 * 2 ^ s.count)).complete .ok) ∧
      ((s.writeV rd (s.val rs1 * 2 ^ s.count)).complete .ok).val rd = s.val rs1 * 2 ^ s.count) ∧
    (limbBase ^ s.cfg.cap ≤ (s.val rs1).natAbs * 2 ^ s.count →
      exec (.shl rd rs1) s = .next (s.complete .capacity))

/-- R173: SHR divides the magnitude by 2^n and keeps the sign: it rounds toward zero, never faults on a valid source,
and a result of zero is positive. -/
def Obligations.ShrRoundsTowardZero : Prop :=
  ∀ (s : State) (rd rs1 : Reg), s.cfg.wf → s.validReg rs1 = true →
    exec (.shr rd rs1) s = .next ((s.writeV rd ((s.val rs1).tdiv (2 ^ s.count))).complete .ok) ∧
    ((s.writeV rd ((s.val rs1).tdiv (2 ^ s.count))).complete .ok).val rd = (s.val rs1).tdiv (2 ^ s.count)

/-- R192: MUL writes the exact product where it fits and ends with CAPACITY where it does not. -/
def Obligations.MulIsExact : Prop :=
  ∀ (s : State) (rd rs1 rs2 : Reg), s.cfg.wf → s.validReg rs1 = true → s.validReg rs2 = true →
    ((s.val rs1 * s.val rs2).natAbs < limbBase ^ s.cfg.cap →
      exec (.mul rd rs1 rs2) s = .next ((s.writeV rd (s.val rs1 * s.val rs2)).complete .ok) ∧
      ((s.writeV rd (s.val rs1 * s.val rs2)).complete .ok).val rd = s.val rs1 * s.val rs2) ∧
    (limbBase ^ s.cfg.cap ≤ (s.val rs1 * s.val rs2).natAbs →
      exec (.mul rd rs1 rs2) s = .next (s.complete .capacity))

/-! ## Division -/

/-- R212, R214: DIV and DIVX by a divisor that is not 0 write the q and r with a = q*b + r, |r| < |b| and r = 0 or of
a's sign: the quotient rounded toward zero and its remainder. -/
def Obligations.DivisionIsExact : Prop :=
  ∀ (s : State) (rd rd2 rs1 rs2 : Reg), s.cfg.wf → rd ≠ rd2 → s.validReg rs1 = true → s.validReg rs2 = true →
    s.val rs2 ≠ 0 →
    ∃ q r : Int, s.val rs1 = q * s.val rs2 + r ∧ r.natAbs < (s.val rs2).natAbs ∧
      (r = 0 ∨ r.sign = (s.val rs1).sign) ∧
      exec (.div rd rd2 rs1 rs2) s = .next (((s.writeV rd q).writeV rd2 r).complete .ok) ∧
      exec (.divx rd rd2 rs1 rs2) s = .next (((s.writeV rd q).writeV rd2 r).complete .ok) ∧
      (((s.writeV rd q).writeV rd2 r).complete .ok).val rd = q ∧
      (((s.writeV rd q).writeV rd2 r).complete .ok).val rd2 = r

/-- R211, R307: DIV and DIVX by 0 write B^CAP - 1 and the dividend, DIVA by 0 writes B^CAP - 1; all three set DZ and
none faults. -/
def Obligations.DivisionByZeroGivesSentinel : Prop :=
  ∀ (s : State) (rd rd2 rs1 rs2 : Reg), s.cfg.wf → rd ≠ rd2 → s.validReg rs1 = true → s.validReg rs2 = true →
    s.val rs2 = 0 →
    exec (.div rd rd2 rs1 rs2) s =
      .next ((((s.writeV rd (limbBase ^ s.cfg.cap - 1)).writeV rd2 (s.val rs1)).setDz).complete .ok) ∧
    exec (.divx rd rd2 rs1 rs2) s =
      .next ((((s.writeV rd (limbBase ^ s.cfg.cap - 1)).writeV rd2 (s.val rs1)).setDz).complete .ok) ∧
    exec (.diva rd rs1 rs2) s = .next (((s.writeV rd (limbBase ^ s.cfg.cap - 1)).setDz).complete .ok) ∧
    (norm s.cfg.cap (limbBase ^ s.cfg.cap - 1)).sign = false ∧
    (norm s.cfg.cap (limbBase ^ s.cfg.cap - 1)).len.toNat = s.cfg.cap ∧
    ∀ j < s.cfg.cap, limbAt (norm s.cfg.cap (limbBase ^ s.cfg.cap - 1)).limbs j = 0x7FFFFFFF

/-- R214: DIVX ends, in every state and whatever the ESTIMATOR (log 2), exactly as DIV does. -/
def Obligations.DivxEqualsDiv : Prop :=
  ∀ (s : State) (rd rd2 rs1 rs2 : Reg), exec (.divx rd rd2 rs1 rs2) s = exec (.div rd rd2 rs1 rs2) s

/-- R221, R222: DIVA by a divisor that is not 0 writes an estimate with the sign of the quotient that is never above
it in magnitude, so 0 where |a| < |b|. With EST_ref it is the formula of R223, and the exact quotient for a divisor of
at most 62 bits. -/
def Obligations.DivaNeverOverestimates : Prop :=
  ∀ (s : State) (rd rs1 rs2 : Reg), s.cfg.wf → s.validReg rs1 = true → s.validReg rs2 = true → s.val rs2 ≠ 0 →
    ∃ E : Nat, E ≤ (s.val rs1).natAbs / (s.val rs2).natAbs ∧
      exec (.diva rd rs1 rs2) s =
        .next ((s.writeV rd ((s.val rs1).sign * (s.val rs2).sign * E)).complete .ok) ∧
      ((s.writeV rd ((s.val rs1).sign * (s.val rs2).sign * E)).complete .ok).val rd =
        (s.val rs1).sign * (s.val rs2).sign * E ∧
      (s.cfg.estimator = .estRef → E = estRef (s.val rs1).natAbs (s.val rs2).natAbs ∧
        ((s.val rs2).natAbs < 2 ^ 62 → (s.val rs1).sign * (s.val rs2).sign * E = (s.val rs1).tdiv (s.val rs2)))

/-- R231: REMOVE, for a value that is not 0 and |d| ≥ 2, puts into RESULT the largest k with d^k | v and writes the
cofactor v / d^k. -/
def Obligations.RemoveFindsMultiplicity : Prop :=
  ∀ (s : State) (rd rs1 rs2 : Reg), s.cfg.wf → s.validReg rs1 = true → s.validReg rs2 = true →
    s.val rs1 ≠ 0 → 2 ≤ (s.val rs2).natAbs →
    ∃ (k : Nat) (c : Int), s.val rs1 = c * s.val rs2 ^ k ∧ ¬ s.val rs2 ^ (k + 1) ∣ s.val rs1 ∧ k < 2 ^ 32 ∧
      exec (.remove rd rs1 rs2) s = .next (((s.writeV rd c).writeResult (BitVec.ofNat 32 k)).complete .ok) ∧
      (((s.writeV rd c).writeResult (BitVec.ofNat 32 k)).complete .ok).val rd = c

/-- R231: REMOVE at its degenerate inputs: d = 0 gives k = 0, cofactor v and DZ; v = 0 gives 0 and 0; |d| = 1 gives 1
and v / d. -/
def Obligations.RemoveDegenerateInputs : Prop :=
  ∀ (s : State) (rd rs1 rs2 : Reg), s.validReg rs1 = true → s.validReg rs2 = true →
    (s.val rs2 = 0 →
      exec (.remove rd rs1 rs2) s = .next ((((s.writeV rd (s.val rs1)).writeResult 0).setDz).complete .ok)) ∧
    (s.val rs2 ≠ 0 → s.val rs1 = 0 →
      exec (.remove rd rs1 rs2) s = .next (((s.writeV rd 0).writeResult 0).complete .ok)) ∧
    ((s.val rs2).natAbs = 1 → s.val rs1 ≠ 0 →
      exec (.remove rd rs1 rs2) s =
        .next (((s.writeV rd (s.val rs1 * s.val rs2)).writeResult 1).complete .ok))

/-! ## Powers and roots -/

/-- R251: POW writes a^n, with a^0 = 1 for every a, where it fits, and ends with CAPACITY where it does not. -/
def Obligations.PowIsExact : Prop :=
  ∀ (s : State) (rd rs1 : Reg), s.cfg.wf → s.validReg rs1 = true →
    ((s.val rs1).natAbs ^ s.count < limbBase ^ s.cfg.cap →
      exec (.pow rd rs1) s = .next ((s.writeV rd (s.val rs1 ^ s.count)).complete .ok) ∧
      ((s.writeV rd (s.val rs1 ^ s.count)).complete .ok).val rd = s.val rs1 ^ s.count) ∧
    (limbBase ^ s.cfg.cap ≤ (s.val rs1).natAbs ^ s.count →
      exec (.pow rd rs1) s = .next (s.complete .capacity))

/-- R253: SQRT writes isqrt(a) and a - isqrt(a)^2 for a ≥ 0, and 0 and a for a < 0. -/
def Obligations.SqrtIsTheIntegerRoot : Prop :=
  ∀ (s : State) (rd rd2 rs1 : Reg), s.cfg.wf → rd ≠ rd2 → s.validReg rs1 = true →
    ∃ x r : Int, x ^ 2 + r = s.val rs1 ∧ (0 ≤ s.val rs1 → 0 ≤ x ∧ 0 ≤ r ∧ r ≤ 2 * x) ∧ (s.val rs1 < 0 → x = 0) ∧
      exec (.sqrt rd rd2 rs1) s = .next (((s.writeV rd x).writeV rd2 r).complete .ok) ∧
      (((s.writeV rd x).writeV rd2 r).complete .ok).val rd = x ∧
      (((s.writeV rd x).writeV rd2 r).complete .ok).val rd2 = r

/-- R255: CBRT writes s = sgn(a) * iroot(|a|, 3) and a - s^3. -/
def Obligations.CbrtIsTheIntegerRoot : Prop :=
  ∀ (s : State) (rd rd2 rs1 : Reg), s.cfg.wf → rd ≠ rd2 → s.validReg rs1 = true →
    ∃ m : Nat, m ^ 3 ≤ (s.val rs1).natAbs ∧ (s.val rs1).natAbs < (m + 1) ^ 3 ∧
      exec (.cbrt rd rd2 rs1) s =
        .next (((s.writeV rd ((s.val rs1).sign * m)).writeV rd2
          (s.val rs1 - ((s.val rs1).sign * m) ^ 3)).complete .ok) ∧
      (((s.writeV rd ((s.val rs1).sign * m)).writeV rd2
          (s.val rs1 - ((s.val rs1).sign * m) ^ 3)).complete .ok).val rd = (s.val rs1).sign * m ∧
      (((s.writeV rd ((s.val rs1).sign * m)).writeV rd2
          (s.val rs1 - ((s.val rs1).sign * m) ^ 3)).complete .ok).val rd2 =
        s.val rs1 - ((s.val rs1).sign * m) ^ 3

/-- R257: ROOT of degree n ≥ 1 writes sgn(a) * iroot(|a|, n) where a ≥ 0 or n is odd, and 0 where a < 0 and n is even;
the remainder is a - s^n. -/
def Obligations.RootIsTheIntegerRoot : Prop :=
  ∀ (s : State) (rd rd2 rs1 : Reg), s.cfg.wf → rd ≠ rd2 → s.validReg rs1 = true → s.count ≠ 0 →
    ∃ x : Int, (0 ≤ s.val rs1 ∨ s.count % 2 = 1 → ∃ m : Nat, x = (s.val rs1).sign * m ∧
        m ^ s.count ≤ (s.val rs1).natAbs ∧ (s.val rs1).natAbs < (m + 1) ^ s.count) ∧
      (s.val rs1 < 0 → s.count % 2 = 0 → x = 0) ∧
      exec (.root rd rd2 rs1) s =
        .next (((s.writeV rd x).writeV rd2 (s.val rs1 - x ^ s.count)).complete .ok) ∧
      (((s.writeV rd x).writeV rd2 (s.val rs1 - x ^ s.count)).complete .ok).val rd = x ∧
      (((s.writeV rd x).writeV rd2 (s.val rs1 - x ^ s.count)).complete .ok).val rd2 = s.val rs1 - x ^ s.count

/-- R306, R308: ROOT of degree 0 ends with ARG once its destinations and its source pass. -/
def Obligations.RootOfDegreeZeroFaults : Prop :=
  ∀ (s : State) (rd rd2 rs1 : Reg), rd ≠ rd2 → s.validReg rs1 = true → s.count = 0 →
    exec (.root rd rd2 rs1) s = .next { s with pending := none, done := true, err := true, ecode := .arg }

/-- R257: "ROOT with n = 2 gives the same results as SQRT (rule R253) and with n = 3 the same as CBRT (rule R255)": in
every state, valid source or not. -/
def Obligations.RootAgreesWithSqrtAndCbrt : Prop :=
  ∀ (s : State) (rd rd2 rs1 : Reg),
    (s.count = 2 → exec (.root rd rd2 rs1) s = exec (.sqrt rd rd2 rs1) s) ∧
    (s.count = 3 → exec (.root rd rd2 rs1) s = exec (.cbrt rd rd2 rs1) s)

/-! ## Invariants and progress -/

/-- The reset state, with whatever parameters in range, meets the three invariants. -/
def Obligations.ResetMeetsInvariants : Prop :=
  ∀ c : Config, c.wf →
    (State.resetWith c).wf ∧ (State.resetWith c).latchKept = true ∧ (State.resetWith c).allValid

/-- Every step keeps the registers' storage at exactly CAP limbs, and CAP in its range (R5, R33). -/
def Obligations.StepKeepsStorage : Prop :=
  ∀ s t : State, s.wf → step s = .next t → t.wf

/-- R81, R89: every step keeps that a pending command's word and scalars are what CMD, ARG0 and ARG1 hold, with DONE 0:
the host cannot change them under it. -/
def Obligations.StepKeepsLatchedCommand : Prop :=
  ∀ s t : State, s.latchKept = true → step s = .next t → t.latchKept = true

/-- R36: "Only host writes through the window can make a register invalid": every other step keeps all registers
valid. -/
def Obligations.OnlyWindowWritesInvalidate : Prop :=
  ∀ s t : State, s.wf → s.allValid → step s = .next t →
    (∀ (off : Nat) (be : BitVec 4) (w : Word) (rest : List Input), s.inputs = .write off be w :: rest →
      (target s.cfg.cap off).inWindow = false) →
    t.allValid

/-- R52, R54, R55: ERR, DZ and OVR are sticky: only a write of STATUS with their bit set, or a reset, clears them. -/
def Obligations.StickyFlagsStay : Prop :=
  ∀ s t : State, step s = .next t →
    (∀ rest, s.inputs ≠ .hwReset :: rest) →
    (∀ w rest, s.inputs = .write 0x004 0xF w :: rest → w.getLsbD 1 = false) →
    (s.err = true → (∀ w rest, s.inputs = .write 0x008 0xF w :: rest → w.getLsbD 2 = false) → t.err = true) ∧
    (s.dz = true → (∀ w rest, s.inputs = .write 0x008 0xF w :: rest → w.getLsbD 3 = false) → t.dz = true) ∧
    (s.ovr = true → (∀ w rest, s.inputs = .write 0x008 0xF w :: rest → w.getLsbD 4 = false) → t.ovr = true)

/-- R363, R311: "Every accepted command completes ... unless a reset intervenes": a step from a state with a pending
command to one with none is the MPID's turn on that command, which leaves DONE 1 (what `exec` gives, or ILLEGAL), or a
reset. With finitely many inputs to come, all in the address space, no command is pending after some number of steps not
above theirs plus one (the inputs are the model's choice, log 3). -/
def Obligations.AcceptedCommandCompletes : Prop :=
  (∀ (s t : State) (p : Pending), s.pending = some p → step s = .next t → t.pending = none →
    ((s.inputs = [] ∨ s.inputs = .mpid :: t.inputs) ∧ t.done = true ∧
      ((∃ i, decode p.word = .ok i ∧ exec i { s with inputs := t.inputs } = .next t) ∨
        ((∃ e, decode p.word = .error e) ∧ t.ecode = .illegal ∧ t.err = true))) ∨
    (∃ rest, s.inputs = .hwReset :: rest) ∨
    (∃ (w : Word) (rest : List Input), s.inputs = .write 0x004 0xF w :: rest ∧ w.getLsbD 1 = true)) ∧
  (∀ s : State, s.inputsInSpace = true →
    ∃ k ≤ s.inputs.length + 1, ∃ t, core.run k s = .next t ∧ t.pending = none)
end

