-- ==== Sys2Proof/Laws/Numbers.lean ====
section
/-!
SUPPORT. The laws of Machine/Numbers.lean: bit lengths as bounds, the value of a limb vector and its bounds, normal
vectors, and the digits of a magnitude.
-/

namespace Sys2Proof.Machine

/-! ## Bit length -/

@[simp] theorem bitlen_zero : bitlen 0 = 0 := rfl

theorem bitlen_le_iff {m k : Nat} : bitlen m ≤ k ↔ m < 2 ^ k := by
  unfold bitlen
  split
  · next h => subst h; simp
  · next h => rw [← Nat.log2_lt h]; omega

theorem lt_two_pow_bitlen (m : Nat) : m < 2 ^ bitlen m := bitlen_le_iff.mp le_rfl

theorem lt_bitlen_iff {m k : Nat} : k < bitlen m ↔ 2 ^ k ≤ m := by
  rw [← not_iff_not, not_lt, bitlen_le_iff, not_le]

theorem bitlen_pos {m : Nat} (h : m ≠ 0) : 0 < bitlen m := lt_bitlen_iff.mpr (by omega)

theorem two_pow_bitlen_sub_le {m : Nat} (h : m ≠ 0) : 2 ^ (bitlen m - 1) ≤ m :=
  lt_bitlen_iff.mp (by have := bitlen_pos h; omega)

theorem bitlen_eq_zero {m : Nat} : bitlen m = 0 ↔ m = 0 := by
  rw [← Nat.le_zero, bitlen_le_iff]; simp

/-- The characterisation of R7. -/
theorem bitlen_unique {m k : Nat} (lo : 2 ^ k ≤ m) (hi : m < 2 ^ (k + 1)) : bitlen m = k + 1 :=
  le_antisymm (bitlen_le_iff.mpr hi) (lt_bitlen_iff.mpr lo)

theorem bitlen_mul_two_pow {m : Nat} (h : m ≠ 0) (n : Nat) : bitlen (m * 2 ^ n) = bitlen m + n := by
  have hb := bitlen_pos h
  obtain ⟨b, hb'⟩ : ∃ b, bitlen m = b + 1 := ⟨bitlen m - 1, by omega⟩
  have lo := two_pow_bitlen_sub_le h
  have hi := lt_two_pow_bitlen m
  rw [hb'] at lo hi ⊢
  rw [show b + 1 + n = b + n + 1 by omega]
  refine bitlen_unique ?_ ?_
  · rw [Nat.pow_add]; exact Nat.mul_le_mul_right _ (by simpa using lo)
  · rw [show b + n + 1 = b + 1 + n by omega, Nat.pow_add]
    exact Nat.mul_lt_mul_of_pos_right hi (by positivity)

/-! ## Signs -/

@[simp] theorem signed_false (m : Nat) : signed false m = m := rfl
@[simp] theorem signed_true (m : Nat) : signed true m = -m := rfl
@[simp] theorem signed_zero (b : Bool) : signed b 0 = 0 := by cases b <;> rfl
@[simp] theorem natAbs_signed (b : Bool) (m : Nat) : (signed b m).natAbs = m := by cases b <;> simp

theorem signed_eq_zero {b : Bool} {m : Nat} : signed b m = 0 ↔ m = 0 := by cases b <;> simp

theorem signed_natAbs (z : Int) : signed (decide (z < 0)) z.natAbs = z := by
  unfold signed
  by_cases h : z < 0
  · simp only [h, decide_true, if_true]; omega
  · simp only [h, decide_false, Bool.false_eq_true, if_false]; omega

theorem signed_eq_sign_mul (z : Int) (m : Nat) (h : z ≠ 0) : signed (decide (z < 0)) m = z.sign * m := by
  rcases lt_trichotomy z 0 with hz | hz | hz
  · simp [hz, Int.sign_eq_neg_one_of_neg hz]
  · exact absurd hz h
  · simp [not_lt.mpr hz.le, Int.sign_eq_one_of_pos hz]

theorem signed_productSign {x y : Int} (hx : x ≠ 0) (hy : y ≠ 0) (m : Nat) :
    signed (productSign x y) m = x.sign * y.sign * m := by
  unfold productSign
  rcases lt_or_gt_of_ne hx with h | h <;> rcases lt_or_gt_of_ne hy with h' | h'
  all_goals simp [h, h', not_lt.mpr h.le, not_lt.mpr h'.le, Int.sign_eq_neg_one_of_neg, Int.sign_eq_one_of_pos, signed]

/-! ## Limb vectors -/

@[simp] theorem limbsVal_nil : limbsVal [] = 0 := rfl
@[simp] theorem limbsVal_cons (x : Limb) (xs : List Limb) : 
    limbsVal (x :: xs) = x.toNat + 2147483648 * limbsVal xs := rfl

@[simp] theorem limbAt_nil (j : Nat) : limbAt [] j = 0 := rfl
@[simp] theorem limbAt_cons_zero (x : Limb) (xs : List Limb) : limbAt (x :: xs) 0 = x := rfl
@[simp] theorem limbAt_cons_succ (x : Limb) (xs : List Limb) (j : Nat) : limbAt (x :: xs) (j + 1) = limbAt xs j := rfl

theorem limbAt_of_length_le {A : List Limb} {j : Nat} (h : A.length ≤ j) : limbAt A j = 0 := by
  simp [limbAt, List.getElem?_eq_none h]

theorem limbAt_take {A : List Limb} {k j : Nat} (h : j < k) : limbAt (A.take k) j = limbAt A j := by
  simp [limbAt, h]

theorem limbsVal_append (A Bv : List Limb) : limbsVal (A ++ Bv) = limbsVal A + 2 ^ (31 * A.length) * limbsVal Bv := by
  induction A with
  | nil => simp
  | cons x xs ih =>
    simp only [List.cons_append, limbsVal_cons, ih, List.length_cons]
    rw [show 31 * (xs.length + 1) = 31 + 31 * xs.length by ring, pow_add]
    ring

@[simp] theorem limbsVal_replicate_zero (n : Nat) : limbsVal (List.replicate n 0) = 0 := by
  induction n with
  | zero => rfl
  | succ n ih => rw [List.replicate_succ, limbsVal_cons, ih]; rfl

theorem limbsVal_lt (A : List Limb) : limbsVal A < 2 ^ (31 * A.length) := by
  induction A with
  | nil => simp
  | cons x xs ih =>
    rw [limbsVal_cons, List.length_cons, show 31 * (xs.length + 1) = 31 * xs.length + 31 by ring, pow_add]
    have hx := x.isLt
    omega

/-- A normal limb vector: its top limb is not zero (spec/10_state.md R35). -/
abbrev normalLimbs (A : List Limb) : Prop := A.length = 0 ∨ limbAt A (A.length - 1) ≠ 0

theorem normalLimbs_cons {x y : Limb} {ys : List Limb} : normalLimbs (x :: y :: ys) ↔ normalLimbs (y :: ys) := by
  simp [normalLimbs]

theorem normalLimbs_tail {x : Limb} {xs : List Limb} (h : normalLimbs (x :: xs)) : normalLimbs xs := by
  cases xs with
  | nil => exact .inl rfl
  | cons y ys => exact normalLimbs_cons.mp h

/-- A normal vector of k + 1 limbs is worth at least B^k. -/
theorem le_limbsVal_of_normal {A : List Limb} (h : normalLimbs A) (hne : A ≠ []) :
    2 ^ (31 * (A.length - 1)) ≤ limbsVal A := by
  induction A with
  | nil => exact absurd rfl hne
  | cons x xs ih =>
    cases xs with
    | nil =>
      rcases h with h | h
      · simp at h
      · have : x.toNat ≠ 0 := fun h0 => h (by simpa using BitVec.eq_of_toNat_eq h0)
        simp; omega
    | cons y ys =>
      have := ih (normalLimbs_cons.mp h) (by simp)
      simp only [List.length_cons, Nat.add_sub_cancel] at this ⊢
      rw [limbsVal_cons, show 31 * (ys.length + 1) = 31 + 31 * ys.length by ring, pow_add]
      exact le_add_left (Nat.mul_le_mul_left _ this)

theorem limbsVal_eq_zero_of_normal {A : List Limb} (h : normalLimbs A) : limbsVal A = 0 ↔ A = [] := by
  constructor
  · intro h0
    by_contra hne
    have := le_limbsVal_of_normal h hne
    have : 0 < 2 ^ (31 * (A.length - 1)) := by positivity
    omega
  · rintro rfl; rfl

/-! ## Digits -/

theorem digit_toNat (m j : Nat) : (digit m j).toNat = m / 2 ^ (31 * j) % 2 ^ 31 := by
  simp [digit, Nat.shiftRight_eq_div_pow]

/-- The first n digits of m are worth m mod B^n. -/
theorem limbsVal_digits (m n : Nat) : limbsVal ((List.range n).map (digit m)) = m % 2 ^ (31 * n) := by
  induction n with
  | zero => simp [Nat.mod_one]
  | succ n ih =>
    rw [List.range_succ, List.map_append, limbsVal_append, ih]
    simp only [List.map_cons, List.map_nil, limbsVal_cons, limbsVal_nil, mul_zero, add_zero, List.length_map,
      List.length_range, digit_toNat]
    rw [show 31 * (n + 1) = 31 * n + 31 by ring, pow_add, Nat.mod_mul]

theorem limbAt_digits (m n j : Nat) (h : j < n) : limbAt ((List.range n).map (digit m)) j = digit m j := by
  simp [limbAt, h]

theorem digitCount_le_iff {m k : Nat} : digitCount m ≤ k ↔ m < 2 ^ (31 * k) := by
  rw [← bitlen_le_iff, digitCount]; omega

theorem digitCount_eq_zero {m : Nat} : digitCount m = 0 ↔ m = 0 := by
  rw [← Nat.le_zero, digitCount_le_iff]; simp

/-- The top digit of a magnitude that is not 0 is not 0. -/
theorem top_digit_ne_zero {m : Nat} (h : m ≠ 0) : digit m (digitCount m - 1) ≠ 0 := by
  intro h0
  have h1 : (digit m (digitCount m - 1)).toNat = 0 := by rw [h0]; rfl
  rw [digit_toNat] at h1
  have hpos : 0 < digitCount m := Nat.pos_of_ne_zero (fun h' => h (digitCount_eq_zero.mp h'))
  have hlo : 2 ^ (31 * (digitCount m - 1)) ≤ m := by
    by_contra hc
    have := digitCount_le_iff.mpr (not_le.mp hc)
    omega
  have hhi : m < 2 ^ (31 * digitCount m) := digitCount_le_iff.mp le_rfl
  have hq : m / 2 ^ (31 * (digitCount m - 1)) < 2 ^ 31 := by
    rw [Nat.div_lt_iff_lt_mul (by positivity), ← pow_add]
    rwa [show 31 + 31 * (digitCount m - 1) = 31 * digitCount m by omega]
  rw [Nat.mod_eq_of_lt hq] at h1
  have := Nat.div_pos hlo (by positivity)
  omega

/-! ## What fits -/

theorem fits_iff {cap : Nat} {z : Int} : fits cap z = true ↔ z.natAbs < 2 ^ (31 * cap) := by
  rw [fits, magLimit, decide_eq_true_iff]

theorem magLimit_pos (cap : Nat) : 0 < magLimit cap := by unfold magLimit; positivity

theorem fits_of_natAbs_le {cap : Nat} {y z : Int} (h : z.natAbs ≤ y.natAbs) (hy : fits cap y = true) :
    fits cap z = true := fits_iff.mpr (lt_of_le_of_lt h (fits_iff.mp hy))

@[simp] theorem fits_zero (cap : Nat) : fits cap 0 = true := fits_iff.mpr (by simp)

theorem fits_sentinel (cap : Nat) : fits cap (sentinel cap) = true := by
  have := magLimit_pos cap
  rw [fits_iff, sentinel, Int.natAbs_natCast]
  exact Nat.sub_lt this one_pos

end Sys2Proof.Machine
end

