-- ==== Sys2Proof/Laws/State.lean ====
section
/-!
SUPPORT. One lemma per field per update of the state, all true by rfl, so that no proof unfolds a record update.
-/

namespace Sys2Proof.Machine

/-! ## State.setV -/

@[simp] theorem State.setV_cfg (s : State) (i : Reg) (r : VReg) : (s.setV i r).cfg = s.cfg := rfl
@[simp] theorem State.setV_v (s : State) (i : Reg) (r : VReg) : (s.setV i r).v = s.v.set i r := rfl
@[simp] theorem State.setV_arg0 (s : State) (i : Reg) (r : VReg) : (s.setV i r).arg0 = s.arg0 := rfl
@[simp] theorem State.setV_arg1 (s : State) (i : Reg) (r : VReg) : (s.setV i r).arg1 = s.arg1 := rfl
@[simp] theorem State.setV_result (s : State) (i : Reg) (r : VReg) : (s.setV i r).result = s.result := rfl
@[simp] theorem State.setV_cmd (s : State) (i : Reg) (r : VReg) : (s.setV i r).cmd = s.cmd := rfl
@[simp] theorem State.setV_ie (s : State) (i : Reg) (r : VReg) : (s.setV i r).ie = s.ie := rfl
@[simp] theorem State.setV_done (s : State) (i : Reg) (r : VReg) : (s.setV i r).done = s.done := rfl
@[simp] theorem State.setV_err (s : State) (i : Reg) (r : VReg) : (s.setV i r).err = s.err := rfl
@[simp] theorem State.setV_dz (s : State) (i : Reg) (r : VReg) : (s.setV i r).dz = s.dz := rfl
@[simp] theorem State.setV_ovr (s : State) (i : Reg) (r : VReg) : (s.setV i r).ovr = s.ovr := rfl
@[simp] theorem State.setV_ecode (s : State) (i : Reg) (r : VReg) : (s.setV i r).ecode = s.ecode := rfl
@[simp] theorem State.setV_pending (s : State) (i : Reg) (r : VReg) : (s.setV i r).pending = s.pending := rfl
@[simp] theorem State.setV_rsp (s : State) (i : Reg) (r : VReg) : (s.setV i r).rsp = s.rsp := rfl
@[simp] theorem State.setV_draws (s : State) (i : Reg) (r : VReg) : (s.setV i r).draws = s.draws := rfl
@[simp] theorem State.setV_inputs (s : State) (i : Reg) (r : VReg) : (s.setV i r).inputs = s.inputs := rfl

/-! ## State.writeV -/

@[simp] theorem State.writeV_cfg (s : State) (i : Reg) (z : Int) : (s.writeV i z).cfg = s.cfg := rfl
@[simp] theorem State.writeV_v (s : State) (i : Reg) (z : Int) : (s.writeV i z).v = s.v.set i (norm s.cfg.cap z) := rfl
@[simp] theorem State.writeV_arg0 (s : State) (i : Reg) (z : Int) : (s.writeV i z).arg0 = s.arg0 := rfl
@[simp] theorem State.writeV_arg1 (s : State) (i : Reg) (z : Int) : (s.writeV i z).arg1 = s.arg1 := rfl
@[simp] theorem State.writeV_result (s : State) (i : Reg) (z : Int) : (s.writeV i z).result = s.result := rfl
@[simp] theorem State.writeV_cmd (s : State) (i : Reg) (z : Int) : (s.writeV i z).cmd = s.cmd := rfl
@[simp] theorem State.writeV_ie (s : State) (i : Reg) (z : Int) : (s.writeV i z).ie = s.ie := rfl
@[simp] theorem State.writeV_done (s : State) (i : Reg) (z : Int) : (s.writeV i z).done = s.done := rfl
@[simp] theorem State.writeV_err (s : State) (i : Reg) (z : Int) : (s.writeV i z).err = s.err := rfl
@[simp] theorem State.writeV_dz (s : State) (i : Reg) (z : Int) : (s.writeV i z).dz = s.dz := rfl
@[simp] theorem State.writeV_ovr (s : State) (i : Reg) (z : Int) : (s.writeV i z).ovr = s.ovr := rfl
@[simp] theorem State.writeV_ecode (s : State) (i : Reg) (z : Int) : (s.writeV i z).ecode = s.ecode := rfl
@[simp] theorem State.writeV_pending (s : State) (i : Reg) (z : Int) : (s.writeV i z).pending = s.pending := rfl
@[simp] theorem State.writeV_rsp (s : State) (i : Reg) (z : Int) : (s.writeV i z).rsp = s.rsp := rfl
@[simp] theorem State.writeV_draws (s : State) (i : Reg) (z : Int) : (s.writeV i z).draws = s.draws := rfl
@[simp] theorem State.writeV_inputs (s : State) (i : Reg) (z : Int) : (s.writeV i z).inputs = s.inputs := rfl

/-! ## State.writeResult -/

@[simp] theorem State.writeResult_cfg (s : State) (w : Word) : (s.writeResult w).cfg = s.cfg := rfl
@[simp] theorem State.writeResult_v (s : State) (w : Word) : (s.writeResult w).v = s.v := rfl
@[simp] theorem State.writeResult_arg0 (s : State) (w : Word) : (s.writeResult w).arg0 = s.arg0 := rfl
@[simp] theorem State.writeResult_arg1 (s : State) (w : Word) : (s.writeResult w).arg1 = s.arg1 := rfl
@[simp] theorem State.writeResult_result (s : State) (w : Word) : (s.writeResult w).result = w := rfl
@[simp] theorem State.writeResult_cmd (s : State) (w : Word) : (s.writeResult w).cmd = s.cmd := rfl
@[simp] theorem State.writeResult_ie (s : State) (w : Word) : (s.writeResult w).ie = s.ie := rfl
@[simp] theorem State.writeResult_done (s : State) (w : Word) : (s.writeResult w).done = s.done := rfl
@[simp] theorem State.writeResult_err (s : State) (w : Word) : (s.writeResult w).err = s.err := rfl
@[simp] theorem State.writeResult_dz (s : State) (w : Word) : (s.writeResult w).dz = s.dz := rfl
@[simp] theorem State.writeResult_ovr (s : State) (w : Word) : (s.writeResult w).ovr = s.ovr := rfl
@[simp] theorem State.writeResult_ecode (s : State) (w : Word) : (s.writeResult w).ecode = s.ecode := rfl
@[simp] theorem State.writeResult_pending (s : State) (w : Word) : (s.writeResult w).pending = s.pending := rfl
@[simp] theorem State.writeResult_rsp (s : State) (w : Word) : (s.writeResult w).rsp = s.rsp := rfl
@[simp] theorem State.writeResult_draws (s : State) (w : Word) : (s.writeResult w).draws = s.draws := rfl
@[simp] theorem State.writeResult_inputs (s : State) (w : Word) : (s.writeResult w).inputs = s.inputs := rfl

/-! ## State.setDz -/

@[simp] theorem State.setDz_cfg (s : State) : (s.setDz).cfg = s.cfg := rfl
@[simp] theorem State.setDz_v (s : State) : (s.setDz).v = s.v := rfl
@[simp] theorem State.setDz_arg0 (s : State) : (s.setDz).arg0 = s.arg0 := rfl
@[simp] theorem State.setDz_arg1 (s : State) : (s.setDz).arg1 = s.arg1 := rfl
@[simp] theorem State.setDz_result (s : State) : (s.setDz).result = s.result := rfl
@[simp] theorem State.setDz_cmd (s : State) : (s.setDz).cmd = s.cmd := rfl
@[simp] theorem State.setDz_ie (s : State) : (s.setDz).ie = s.ie := rfl
@[simp] theorem State.setDz_done (s : State) : (s.setDz).done = s.done := rfl
@[simp] theorem State.setDz_err (s : State) : (s.setDz).err = s.err := rfl
@[simp] theorem State.setDz_dz (s : State) : (s.setDz).dz = true := rfl
@[simp] theorem State.setDz_ovr (s : State) : (s.setDz).ovr = s.ovr := rfl
@[simp] theorem State.setDz_ecode (s : State) : (s.setDz).ecode = s.ecode := rfl
@[simp] theorem State.setDz_pending (s : State) : (s.setDz).pending = s.pending := rfl
@[simp] theorem State.setDz_rsp (s : State) : (s.setDz).rsp = s.rsp := rfl
@[simp] theorem State.setDz_draws (s : State) : (s.setDz).draws = s.draws := rfl
@[simp] theorem State.setDz_inputs (s : State) : (s.setDz).inputs = s.inputs := rfl

/-! ## State.complete -/

@[simp] theorem State.complete_cfg (s : State) (c : ECode) : (s.complete c).cfg = s.cfg := rfl
@[simp] theorem State.complete_v (s : State) (c : ECode) : (s.complete c).v = s.v := rfl
@[simp] theorem State.complete_arg0 (s : State) (c : ECode) : (s.complete c).arg0 = s.arg0 := rfl
@[simp] theorem State.complete_arg1 (s : State) (c : ECode) : (s.complete c).arg1 = s.arg1 := rfl
@[simp] theorem State.complete_result (s : State) (c : ECode) : (s.complete c).result = s.result := rfl
@[simp] theorem State.complete_cmd (s : State) (c : ECode) : (s.complete c).cmd = s.cmd := rfl
@[simp] theorem State.complete_ie (s : State) (c : ECode) : (s.complete c).ie = s.ie := rfl
@[simp] theorem State.complete_done (s : State) (c : ECode) : (s.complete c).done = true := rfl
@[simp] theorem State.complete_err (s : State) (c : ECode) : (s.complete c).err = (s.err || c != .ok) := rfl
@[simp] theorem State.complete_dz (s : State) (c : ECode) : (s.complete c).dz = s.dz := rfl
@[simp] theorem State.complete_ovr (s : State) (c : ECode) : (s.complete c).ovr = s.ovr := rfl
@[simp] theorem State.complete_ecode (s : State) (c : ECode) : (s.complete c).ecode = c := rfl
@[simp] theorem State.complete_pending (s : State) (c : ECode) : (s.complete c).pending = none := rfl
@[simp] theorem State.complete_rsp (s : State) (c : ECode) : (s.complete c).rsp = s.rsp := rfl
@[simp] theorem State.complete_draws (s : State) (c : ECode) : (s.complete c).draws = s.draws := rfl
@[simp] theorem State.complete_inputs (s : State) (c : ECode) : (s.complete c).inputs = s.inputs := rfl

/-! ## State.accept -/

@[simp] theorem State.accept_cfg (s : State) (w : Word) : (s.accept w).cfg = s.cfg := rfl
@[simp] theorem State.accept_v (s : State) (w : Word) : (s.accept w).v = s.v := rfl
@[simp] theorem State.accept_arg0 (s : State) (w : Word) : (s.accept w).arg0 = s.arg0 := rfl
@[simp] theorem State.accept_arg1 (s : State) (w : Word) : (s.accept w).arg1 = s.arg1 := rfl
@[simp] theorem State.accept_result (s : State) (w : Word) : (s.accept w).result = s.result := rfl
@[simp] theorem State.accept_cmd (s : State) (w : Word) : (s.accept w).cmd = w := rfl
@[simp] theorem State.accept_ie (s : State) (w : Word) : (s.accept w).ie = s.ie := rfl
@[simp] theorem State.accept_done (s : State) (w : Word) : (s.accept w).done = false := rfl
@[simp] theorem State.accept_err (s : State) (w : Word) : (s.accept w).err = s.err := rfl
@[simp] theorem State.accept_dz (s : State) (w : Word) : (s.accept w).dz = s.dz := rfl
@[simp] theorem State.accept_ovr (s : State) (w : Word) : (s.accept w).ovr = s.ovr := rfl
@[simp] theorem State.accept_ecode (s : State) (w : Word) : (s.accept w).ecode = s.ecode := rfl
@[simp] theorem State.accept_pending (s : State) (w : Word) : (s.accept w).pending = some { word := w, arg0 := s.arg0, arg1 := s.arg1 } := rfl
@[simp] theorem State.accept_rsp (s : State) (w : Word) : (s.accept w).rsp = s.rsp := rfl
@[simp] theorem State.accept_draws (s : State) (w : Word) : (s.accept w).draws = s.draws := rfl
@[simp] theorem State.accept_inputs (s : State) (w : Word) : (s.accept w).inputs = s.inputs := rfl

/-! ## State.clearStatus -/

@[simp] theorem State.clearStatus_cfg (s : State) (w : Word) : (s.clearStatus w).cfg = s.cfg := rfl
@[simp] theorem State.clearStatus_v (s : State) (w : Word) : (s.clearStatus w).v = s.v := rfl
@[simp] theorem State.clearStatus_arg0 (s : State) (w : Word) : (s.clearStatus w).arg0 = s.arg0 := rfl
@[simp] theorem State.clearStatus_arg1 (s : State) (w : Word) : (s.clearStatus w).arg1 = s.arg1 := rfl
@[simp] theorem State.clearStatus_result (s : State) (w : Word) : (s.clearStatus w).result = s.result := rfl
@[simp] theorem State.clearStatus_cmd (s : State) (w : Word) : (s.clearStatus w).cmd = s.cmd := rfl
@[simp] theorem State.clearStatus_ie (s : State) (w : Word) : (s.clearStatus w).ie = s.ie := rfl
@[simp] theorem State.clearStatus_done (s : State) (w : Word) : (s.clearStatus w).done = (s.done && !w.getLsbD 1) := rfl
@[simp] theorem State.clearStatus_err (s : State) (w : Word) : (s.clearStatus w).err = (s.err && !w.getLsbD 2) := rfl
@[simp] theorem State.clearStatus_dz (s : State) (w : Word) : (s.clearStatus w).dz = (s.dz && !w.getLsbD 3) := rfl
@[simp] theorem State.clearStatus_ovr (s : State) (w : Word) : (s.clearStatus w).ovr = (s.ovr && !w.getLsbD 4) := rfl
@[simp] theorem State.clearStatus_ecode (s : State) (w : Word) : (s.clearStatus w).ecode = s.ecode := rfl
@[simp] theorem State.clearStatus_pending (s : State) (w : Word) : (s.clearStatus w).pending = s.pending := rfl
@[simp] theorem State.clearStatus_rsp (s : State) (w : Word) : (s.clearStatus w).rsp = s.rsp := rfl
@[simp] theorem State.clearStatus_draws (s : State) (w : Word) : (s.clearStatus w).draws = s.draws := rfl
@[simp] theorem State.clearStatus_inputs (s : State) (w : Word) : (s.clearStatus w).inputs = s.inputs := rfl

/-! ## State.respond -/

@[simp] theorem State.respond_cfg (s : State) (d : Word) (e : Bool) : (s.respond d e).cfg = s.cfg := rfl
@[simp] theorem State.respond_v (s : State) (d : Word) (e : Bool) : (s.respond d e).v = s.v := rfl
@[simp] theorem State.respond_arg0 (s : State) (d : Word) (e : Bool) : (s.respond d e).arg0 = s.arg0 := rfl
@[simp] theorem State.respond_arg1 (s : State) (d : Word) (e : Bool) : (s.respond d e).arg1 = s.arg1 := rfl
@[simp] theorem State.respond_result (s : State) (d : Word) (e : Bool) : (s.respond d e).result = s.result := rfl
@[simp] theorem State.respond_cmd (s : State) (d : Word) (e : Bool) : (s.respond d e).cmd = s.cmd := rfl
@[simp] theorem State.respond_ie (s : State) (d : Word) (e : Bool) : (s.respond d e).ie = s.ie := rfl
@[simp] theorem State.respond_done (s : State) (d : Word) (e : Bool) : (s.respond d e).done = s.done := rfl
@[simp] theorem State.respond_err (s : State) (d : Word) (e : Bool) : (s.respond d e).err = s.err := rfl
@[simp] theorem State.respond_dz (s : State) (d : Word) (e : Bool) : (s.respond d e).dz = s.dz := rfl
@[simp] theorem State.respond_ovr (s : State) (d : Word) (e : Bool) : (s.respond d e).ovr = s.ovr := rfl
@[simp] theorem State.respond_ecode (s : State) (d : Word) (e : Bool) : (s.respond d e).ecode = s.ecode := rfl
@[simp] theorem State.respond_pending (s : State) (d : Word) (e : Bool) : (s.respond d e).pending = s.pending := rfl
@[simp] theorem State.respond_rsp (s : State) (d : Word) (e : Bool) : (s.respond d e).rsp = some { data := d, err := e } := rfl
@[simp] theorem State.respond_draws (s : State) (d : Word) (e : Bool) : (s.respond d e).draws = s.draws := rfl
@[simp] theorem State.respond_inputs (s : State) (d : Word) (e : Bool) : (s.respond d e).inputs = s.inputs := rfl

/-! ## State.resetNow -/

@[simp] theorem State.resetNow_cfg (s : State) : (s.resetNow).cfg = s.cfg := rfl
@[simp] theorem State.resetNow_v (s : State) : (s.resetNow).v = Vector.replicate 16 (VReg.zero s.cfg.cap) := rfl
@[simp] theorem State.resetNow_arg0 (s : State) : (s.resetNow).arg0 = 0 := rfl
@[simp] theorem State.resetNow_arg1 (s : State) : (s.resetNow).arg1 = 0 := rfl
@[simp] theorem State.resetNow_result (s : State) : (s.resetNow).result = 0 := rfl
@[simp] theorem State.resetNow_cmd (s : State) : (s.resetNow).cmd = 0 := rfl
@[simp] theorem State.resetNow_ie (s : State) : (s.resetNow).ie = false := rfl
@[simp] theorem State.resetNow_done (s : State) : (s.resetNow).done = false := rfl
@[simp] theorem State.resetNow_err (s : State) : (s.resetNow).err = false := rfl
@[simp] theorem State.resetNow_dz (s : State) : (s.resetNow).dz = false := rfl
@[simp] theorem State.resetNow_ovr (s : State) : (s.resetNow).ovr = false := rfl
@[simp] theorem State.resetNow_ecode (s : State) : (s.resetNow).ecode = .ok := rfl
@[simp] theorem State.resetNow_pending (s : State) : (s.resetNow).pending = none := rfl
@[simp] theorem State.resetNow_rsp (s : State) : (s.resetNow).rsp = none := rfl
@[simp] theorem State.resetNow_draws (s : State) : (s.resetNow).draws = s.draws := rfl
@[simp] theorem State.resetNow_inputs (s : State) : (s.resetNow).inputs = s.inputs := rfl

end Sys2Proof.Machine
end

