-- ==== Sys2Proof/Laws/Ops.lean ====
section
/-!
SUPPORT. The laws of the shared operations: norm, reads and writes of value registers, completion, and the operand
checks.
-/

namespace Sys2Proof.Machine

/-! ## norm (spec/00_scope.md R10) -/

@[simp] theorem norm_limbs_length (cap : Nat) (z : Int) : (norm cap z).limbs.length = cap := by simp [norm]

theorem digitCount_le_cap {cap : Nat} {z : Int} (h : fits cap z = true) : digitCount z.natAbs ≤ cap :=
  digitCount_le_iff.mpr (fits_iff.mp h)

theorem norm_len_toNat {cap : Nat} {z : Int} (hc : cap ≤ 65535) (h : fits cap z = true) :
    (norm cap z).len.toNat = digitCount z.natAbs := by
  have := digitCount_le_cap h
  simp only [norm, BitVec.toNat_ofNat]
  exact Nat.mod_eq_of_lt (by omega)

theorem norm_magLimbs {cap : Nat} {z : Int} (hc : cap ≤ 65535) (h : fits cap z = true) :
    (norm cap z).magLimbs cap = (List.range (digitCount z.natAbs)).map (digit z.natAbs) := by
  have hd := digitCount_le_cap h
  rw [VReg.magLimbs, norm_len_toNat hc h, min_eq_left hd]
  simp only [norm, ← List.map_take, List.take_range, min_eq_left hd]

/-- A value that fits is read back from what norm stores. -/
theorem norm_mag {cap : Nat} {z : Int} (hc : cap ≤ 65535) (h : fits cap z = true) :
    (norm cap z).mag cap = z.natAbs := by
  rw [VReg.mag, norm_magLimbs hc h, limbsVal_digits]
  exact Nat.mod_eq_of_lt (digitCount_le_iff.mp le_rfl)

theorem norm_val {cap : Nat} {z : Int} (hc : cap ≤ 65535) (h : fits cap z = true) : (norm cap z).val cap = z := by
  rw [VReg.val, norm_mag hc h]
  exact signed_natAbs z

/-- What norm stores of a value that fits is valid (spec/10_state.md R36). -/
theorem norm_valid {cap : Nat} {z : Int} (hc : cap ≤ 65535) (h : fits cap z = true) :
    (norm cap z).valid cap = true := by
  have hd := digitCount_le_cap h
  have hl := norm_len_toNat hc h
  by_cases hz : z = 0
  · subst hz; simp [norm, VReg.valid, digitCount]
  · have hm : z.natAbs ≠ 0 := by omega
    have hp : 0 < digitCount z.natAbs := Nat.pos_of_ne_zero fun h' => hm (digitCount_eq_zero.mp h')
    have hlen : (norm cap z).len ≠ 0 := fun h0 => by rw [h0] at hl; simp at hl; omega
    simp only [VReg.valid, hl, hd, decide_true, Bool.true_and, Bool.and_eq_true, Bool.or_eq_true, bne_iff_ne, ne_eq,
      hlen, not_false_eq_true, true_or, and_true]
    right
    rw [show (norm cap z).limbs = (List.range cap).map (digit z.natAbs) from rfl, limbAt_digits _ _ _ (by omega)]
    exact top_digit_ne_zero hm

/-! ## Valid registers (spec/10_state.md R35) -/

theorem VReg.valid_iff {cap : Nat} {r : VReg} : r.valid cap = true ↔
    r.len.toNat ≤ cap ∧ (r.len = 0 ∨ limbAt r.limbs (r.len.toNat - 1) ≠ 0) ∧ (r.len ≠ 0 ∨ r.sign = false) := by
  simp [VReg.valid, and_assoc]

/-- A valid register holds LEN limbs, whatever the list's length. -/
theorem VReg.magLimbs_length {cap : Nat} {r : VReg} (h : r.valid cap = true) :
    (r.magLimbs cap).length = r.len.toNat := by
  obtain ⟨h1, h2, -⟩ := VReg.valid_iff.mp h
  rw [VReg.magLimbs, List.length_take, min_eq_left h1, min_eq_left]
  by_contra hc
  rcases h2 with h2 | h2
  · rw [h2] at hc; simp at hc
  · exact h2 (limbAt_of_length_le (by omega))

theorem VReg.normal_magLimbs {cap : Nat} {r : VReg} (h : r.valid cap = true) : normalLimbs (r.magLimbs cap) := by
  have hl := VReg.magLimbs_length h
  obtain ⟨h1, h2, -⟩ := VReg.valid_iff.mp h
  rcases h2 with h2 | h2
  · left; rw [hl, h2]; rfl
  · by_cases h0 : r.len.toNat = 0
    · left; omega
    · right
      rw [hl, VReg.magLimbs, limbAt_take (by omega)]
      exact h2

theorem VReg.mag_lt (cap : Nat) (r : VReg) : r.mag cap < 2 ^ (31 * cap) := by
  refine lt_of_lt_of_le (limbsVal_lt _) (Nat.pow_le_pow_right (by norm_num) (Nat.mul_le_mul_left _ ?_))
  simp only [VReg.magLimbs, List.length_take]
  omega

/-- Every register's value fits. -/
theorem VReg.val_fits (cap : Nat) (r : VReg) : fits cap (r.val cap) = true := by
  rw [fits_iff, VReg.val, natAbs_signed]
  exact r.mag_lt cap

/-- In a valid register SIGN = 1 says that the value is negative. -/
theorem VReg.sign_eq {cap : Nat} {r : VReg} (h : r.valid cap = true) : r.sign = decide (r.val cap < 0) := by
  obtain ⟨-, -, h3⟩ := VReg.valid_iff.mp h
  have hn := VReg.normal_magLimbs h
  cases hs : r.sign with
  | false => simp [VReg.val, hs]
  | true =>
    rw [hs] at h3
    have hm : r.mag cap ≠ 0 := by
      intro h0
      have h0 := (limbsVal_eq_zero_of_normal hn).mp h0
      have hl := VReg.magLimbs_length h
      rw [h0] at hl
      rcases h3 with h3 | h3
      · exact h3 (BitVec.eq_of_toNat_eq hl.symm)
      · cases h3
    simp [VReg.val, hs]; omega

/-! ## Operands -/

@[simp] theorem State.operand_limbs (s : State) (i : Reg) : (s.operand i).limbs = (s.readV i).magLimbs s.cfg.cap := rfl
@[simp] theorem State.operand_val (s : State) (i : Reg) : (s.operand i).val = s.val i := rfl

theorem State.operand_mag (s : State) (i : Reg) : (s.operand i).mag = (s.val i).natAbs := by
  rw [← State.operand_val, Operand.val, natAbs_signed]

/-- A source operand as the datapaths meet it: normal, no longer than CAP, its sign that of its value. -/
structure Operand.Ok (cap : Nat) (a : Operand) : Prop where
  normal : normalLimbs a.limbs
  length : a.limbs.length ≤ cap
  sign : a.neg = decide (a.val < 0)

theorem State.operand_ok {s : State} {i : Reg} (h : s.validReg i = true) : (s.operand i).Ok s.cfg.cap where
  normal := VReg.normal_magLimbs h
  length := by
    rw [State.operand_limbs, VReg.magLimbs_length h]
    exact (VReg.valid_iff.mp h).1
  sign := VReg.sign_eq h

/-! ## Registers read and written -/

theorem State.readV_setV (s : State) (i j : Reg) (r : VReg) :
    (s.setV i r).readV j = if i = j then r else s.readV j := by
  simp only [State.readV, State.setV, Fin.getElem_fin, Vector.getElem_set, Fin.ext_iff]

@[simp] theorem State.readV_setV_self (s : State) (i : Reg) (r : VReg) : (s.setV i r).readV i = r := by
  simp [State.readV_setV]

theorem State.readV_setV_ne (s : State) {i j : Reg} (r : VReg) (h : i ≠ j) : (s.setV i r).readV j = s.readV j := by
  simp [State.readV_setV, h]

@[simp] theorem State.readV_writeV_self (s : State) (i : Reg) (z : Int) :
    (s.writeV i z).readV i = norm s.cfg.cap z := State.readV_setV_self s i _

theorem State.readV_writeV_ne (s : State) {i j : Reg} (z : Int) (h : i ≠ j) : (s.writeV i z).readV j = s.readV j :=
  State.readV_setV_ne s _ h

@[simp] theorem State.readV_writeResult (s : State) (w : Word) (j : Reg) : (s.writeResult w).readV j = s.readV j := rfl
@[simp] theorem State.readV_setDz (s : State) (j : Reg) : s.setDz.readV j = s.readV j := rfl
@[simp] theorem State.readV_complete (s : State) (c : ECode) (j : Reg) : (s.complete c).readV j = s.readV j := rfl
@[simp] theorem State.readV_accept (s : State) (w : Word) (j : Reg) : (s.accept w).readV j = s.readV j := rfl
@[simp] theorem State.readV_clearStatus (s : State) (w : Word) (j : Reg) : (s.clearStatus w).readV j = s.readV j := rfl
@[simp] theorem State.readV_respond (s : State) (d : Word) (e : Bool) (j : Reg) :
    (s.respond d e).readV j = s.readV j := rfl

@[simp] theorem State.readV_resetWith (c : Config) (j : Reg) :
    (State.resetWith c).readV j = VReg.zero c.cap := by
  simp [State.readV, State.resetWith]

@[simp] theorem State.readV_resetNow (s : State) (j : Reg) : s.resetNow.readV j = VReg.zero s.cfg.cap :=
  State.readV_resetWith s.cfg j

/-- A value that fits is read back from the register it was written to. -/
theorem State.val_writeV_self {s : State} {i : Reg} {z : Int} (hc : s.cfg.cap ≤ 65535)
    (h : fits s.cfg.cap z = true) : (s.writeV i z).val i = z := by
  rw [State.val, State.readV_writeV_self]; exact norm_val hc h

theorem State.val_writeV_ne {s : State} {i j : Reg} {z : Int} (h : i ≠ j) : (s.writeV i z).val j = s.val j := by
  rw [State.val, State.readV_writeV_ne s z h]; rfl

/-! ## What the shared endings and checks answer -/

theorem raiseFault_next {s t : State} {c : ECode} : raiseFault s c = .next t ↔ t = s.complete c := by
  simp [raiseFault, eq_comm]

theorem succeed_next {s t : State} : succeed s = .next t ↔ t = s.complete .ok := by
  simp [succeed, eq_comm]

/-- Everything `commitFitting` can do (spec/60_exceptions.md R305). -/
theorem commitFitting_next {s t : State} {rd : Reg} {z : Int} (h : commitFitting s rd z = .next t) :
    (fits s.cfg.cap z = true ∧ t = (s.writeV rd z).complete .ok) ∨
    (fits s.cfg.cap z = false ∧ t = s.complete .capacity) := by
  unfold commitFitting at h
  split at h
  · next hf => exact .inl ⟨hf, succeed_next.mp h⟩
  · next hf => exact .inr ⟨by simpa using hf, raiseFault_next.mp h⟩

/-- Everything `withSource` can do (R304). -/
theorem withSource_next {s t : State} {rs1 : Reg} {k : Operand → Result} (h : withSource s rs1 k = .next t) :
    (s.validReg rs1 = true ∧ k (s.operand rs1) = .next t) ∨ (s.validReg rs1 = false ∧ t = s.complete .operand) := by
  unfold withSource at h
  split at h
  · next hv => exact .inl ⟨hv, h⟩
  · next hv => exact .inr ⟨by simpa using hv, raiseFault_next.mp h⟩

/-- Everything `withSources` can do (R304). -/
theorem withSources_next {s t : State} {rs1 rs2 : Reg} {k : Operand → Operand → Result}
    (h : withSources s rs1 rs2 k = .next t) :
    (s.validReg rs1 = true ∧ s.validReg rs2 = true ∧ k (s.operand rs1) (s.operand rs2) = .next t) ∨
    ((s.validReg rs1 = false ∨ s.validReg rs2 = false) ∧ t = s.complete .operand) := by
  rcases withSource_next h with ⟨h1, h⟩ | ⟨h1, h⟩
  · rcases withSource_next h with ⟨h2, h⟩ | ⟨h2, h⟩
    · exact .inl ⟨h1, h2, h⟩
    · exact .inr ⟨.inr h2, h⟩
  · exact .inr ⟨.inl h1, h⟩

/-- Everything `withDistinct` can do (R303). -/
theorem withDistinct_next {s t : State} {rd rd2 : Reg} {k : Result} (h : withDistinct s rd rd2 k = .next t) :
    (rd ≠ rd2 ∧ k = .next t) ∨ (rd = rd2 ∧ t = s.complete .destAlias) := by
  unfold withDistinct at h
  split at h
  · next he => exact .inr ⟨he, raiseFault_next.mp h⟩
  · next he => exact .inl ⟨he, h⟩

@[simp] theorem withSource_valid {s : State} {rs1 : Reg} (h : s.validReg rs1 = true) (k : Operand → Result) :
    withSource s rs1 k = k (s.operand rs1) := by simp [withSource, h]

@[simp] theorem withSources_valid {s : State} {rs1 rs2 : Reg} (h1 : s.validReg rs1 = true)
    (h2 : s.validReg rs2 = true) (k : Operand → Operand → Result) :
    withSources s rs1 rs2 k = k (s.operand rs1) (s.operand rs2) := by simp [withSources, h1, h2]

@[simp] theorem withDistinct_ne {s : State} {rd rd2 : Reg} (h : rd ≠ rd2) (k : Result) :
    withDistinct s rd rd2 k = k := by simp [withDistinct, h]

end Sys2Proof.Machine
end

