-- ==== Sys2Proof/Laws/Adder.lean ====
section
/-!
SUPPORT. The laws of the carry core: `add_mag` adds, `sub_mag` subtracts the smaller magnitude from the larger,
`magcmp` is the sign of the difference, and the signed dispatch is exact (spec/40_limb_and_adder.md R134-R137, R141).
-/

namespace Sys2Proof.Machine

/-! ## Limb pairs -/

/-- A vector read out to any length not below its own keeps its value. -/
theorem limbsVal_map_limbAt {A : List Limb} {m : Nat} (h : A.length ≤ m) :
    limbsVal ((List.range m).map (limbAt A)) = limbsVal A := by
  induction A generalizing m with
  | nil =>
    have : (List.range m).map (limbAt []) = List.replicate m 0 := by
      simp [List.eq_replicate_iff]
    rw [this, limbsVal_replicate_zero, limbsVal_nil]
  | cons x xs ih =>
    obtain ⟨k, rfl⟩ : ∃ k, m = k + 1 := ⟨m - 1, by simp at h; omega⟩
    rw [List.range_succ_eq_map, List.map_cons, List.map_map, limbsVal_cons, limbsVal_cons]
    have : limbAt (x :: xs) ∘ Nat.succ = limbAt xs := rfl
    rw [this, ih (by simpa using h), limbAt_cons_zero]

theorem limbPairs_fst {m : Nat} {A Bv : List Limb} (h : A.length ≤ m) :
    limbsVal ((limbPairs m A Bv).map Prod.fst) = limbsVal A := by
  rw [limbPairs, List.map_map]; exact limbsVal_map_limbAt h

theorem limbPairs_snd {m : Nat} {A Bv : List Limb} (h : Bv.length ≤ m) :
    limbsVal ((limbPairs m A Bv).map Prod.snd) = limbsVal Bv := by
  rw [limbPairs, List.map_map]; exact limbsVal_map_limbAt h

@[simp] theorem limbPairs_length (m : Nat) (A Bv : List Limb) : (limbPairs m A Bv).length = m := by simp [limbPairs]

/-! ## add_mag (R134) -/

/-- The 32-bit sum never overflows (spec/00_scope.md R6). -/
theorem limbSum_toNat (a b : Limb) (c : Bool) : (limbSum a b c).toNat = a.toNat + b.toNat + c.toNat := by
  have ha := a.isLt
  have hb := b.isLt
  have hc : c.toNat ≤ 1 := Bool.toNat_le c
  simp only [limbSum, BitVec.toNat_add, BitVec.toNat_setWidth, BitVec.toNat_ofBool]
  omega

theorem low_limb_toNat {n : Nat} (s : BitVec n) : (s.extractLsb' 0 31).toNat = s.toNat % 2147483648 := by
  simp [BitVec.extractLsb'_toNat]

theorem limbSum_split (a b : Limb) (c : Bool) :
    ((limbSum a b c).extractLsb' 0 31).toNat + 2147483648 * ((limbSum a b c).getLsbD 31).toNat =
      a.toNat + b.toNat + c.toNat := by
  have ha := a.isLt
  have hb := b.isLt
  have hc : c.toNat ≤ 1 := Bool.toNat_le c
  rw [low_limb_toNat, BitVec.getLsbD, limbSum_toNat, Nat.testBit_eq_decide_div_mod_eq]
  by_cases h : (a.toNat + b.toNat + c.toNat) / 2 ^ 31 % 2 = 1
  · rw [decide_eq_true h, Bool.toNat_true]; omega
  · rw [decide_eq_false h, Bool.toNat_false]; omega

theorem addLoop_val (ps : List (Limb × Limb)) (c : Bool) :
    limbsVal (addLoop ps c) = limbsVal (ps.map Prod.fst) + limbsVal (ps.map Prod.snd) + c.toNat := by
  induction ps generalizing c with
  | nil => cases c <;> simp [addLoop]
  | cons p ps ih =>
    obtain ⟨a, b⟩ := p
    have := limbSum_split a b c
    simp only [addLoop, limbsVal_cons, ih, List.map_cons]
    linarith

/-- `add_mag` adds the magnitudes (R134). -/
theorem addMag_val (A Bv : List Limb) : limbsVal (addMag A Bv) = limbsVal A + limbsVal Bv := by
  rw [addMag, addLoop_val, limbPairs_fst (le_max_left _ _), limbPairs_snd (le_max_right _ _)]
  rfl

/-! ## magcmp (R136) -/

/-- Two vectors worth different amounts below limb j decide by limb j first. -/
theorem magcmpFrom_eq (A Bv : List Limb) (j : Nat) :
    magcmpFrom A Bv j =
      ((limbsVal ((List.range j).map (limbAt A)) : Int) - limbsVal ((List.range j).map (limbAt Bv))).sign := by
  induction j with
  | zero => rfl
  | succ j ih =>
    have hA := limbsVal_lt ((List.range j).map (limbAt A))
    have hB := limbsVal_lt ((List.range j).map (limbAt Bv))
    simp only [List.length_map, List.length_range] at hA hB
    simp only [List.range_succ, List.map_append, limbsVal_append, List.map_cons, List.map_nil, limbsVal_cons,
      limbsVal_nil, mul_zero, add_zero, List.length_map, List.length_range, magcmpFrom]
    generalize limbsVal ((List.range j).map (limbAt A)) = x at *
    generalize limbsVal ((List.range j).map (limbAt Bv)) = y at *
    generalize 2 ^ (31 * j) = P at *
    by_cases he : limbAt A j = limbAt Bv j
    · simp only [he, ne_eq, not_true_eq_false, if_false, ih]
      congr 1
      push_cast
      ring
    · simp only [ne_eq, he, not_false_eq_true, if_true, gt_iff_lt, BitVec.lt_def]
      have hne : (limbAt A j).toNat ≠ (limbAt Bv j).toNat := fun h => he (BitVec.eq_of_toNat_eq h)
      generalize (limbAt A j).toNat = p at *
      generalize (limbAt Bv j).toNat = q at *
      split
      · next h =>
        refine (Int.sign_eq_one_of_pos ?_).symm
        have : P * (q + 1) ≤ P * p := Nat.mul_le_mul_left _ h
        rw [Nat.mul_add, mul_one] at this
        push_cast
        have : (P * q + P : Int) ≤ P * p := by exact_mod_cast this
        omega
      · next h =>
        refine (Int.sign_eq_neg_one_of_neg ?_).symm
        have : P * (p + 1) ≤ P * q := Nat.mul_le_mul_left _ (by omega)
        rw [Nat.mul_add, mul_one] at this
        push_cast
        have : (P * p + P : Int) ≤ P * q := by exact_mod_cast this
        omega

theorem limbsVal_lt_of_length_lt {A Bv : List Limb} (h : A.length < Bv.length) (hB : normalLimbs Bv) :
    limbsVal A < limbsVal Bv := by
  refine lt_of_lt_of_le (limbsVal_lt A) (le_trans ?_ (le_limbsVal_of_normal hB (by rintro rfl; simp at h)))
  exact Nat.pow_le_pow_right (by norm_num) (by omega)

/-- "Because operands are normal, this equals sgn(mag(A) - mag(Bv))" (R136). -/
theorem magcmp_eq {A Bv : List Limb} (hA : normalLimbs A) (hB : normalLimbs Bv) :
    magcmp A Bv = ((limbsVal A : Int) - limbsVal Bv).sign := by
  unfold magcmp
  by_cases he : A.length = Bv.length
  · rw [if_neg (by simpa using he), magcmpFrom_eq, limbsVal_map_limbAt le_rfl, limbsVal_map_limbAt he.ge]
  · rw [if_pos he]
    split
    · next h => have := limbsVal_lt_of_length_lt h hA; exact (Int.sign_eq_one_of_pos (by omega)).symm
    · next h =>
      have := limbsVal_lt_of_length_lt (A := A) (Bv := Bv) (by omega) hB
      exact (Int.sign_eq_neg_one_of_neg (by omega)).symm

theorem magcmp_lt_iff {A Bv : List Limb} (hA : normalLimbs A) (hB : normalLimbs Bv) :
    magcmp A Bv < 0 ↔ limbsVal A < limbsVal Bv := by
  rw [magcmp_eq hA hB, Int.sign_neg_iff]; omega

theorem length_le_of_limbsVal_le {A Bv : List Limb} (hB : normalLimbs Bv) (h : limbsVal Bv ≤ limbsVal A) :
    Bv.length ≤ A.length := by
  by_contra hc
  have := limbsVal_lt_of_length_lt (not_le.mp hc) hB
  omega

/-! ## sub_mag (R135) -/

theorem trimTop_val (A : List Limb) : limbsVal (trimTop A) = limbsVal A := by
  induction A with
  | nil => rfl
  | cons x xs ih =>
    unfold trimTop
    split
    · next h =>
      rw [h] at ih
      split
      · next h0 => subst h0; simp [← ih]
      · simp [← ih]
    · next h => rw [h] at ih; simp [← ih]

theorem trimTop_normal (A : List Limb) : normalLimbs (trimTop A) := by
  induction A with
  | nil => exact .inl rfl
  | cons x xs ih =>
    unfold trimTop
    split
    · split
      · exact .inl rfl
      · next h => right; simpa using h
    · next h => rw [h] at ih; exact normalLimbs_cons.mpr ih

theorem limbDiff_bounds (a b : Limb) (bw : Bool) : -(2 ^ 31) ≤ limbDiff a b bw ∧ limbDiff a b bw < 2 ^ 31 := by
  have ha := a.isLt
  have hb := b.isLt
  have hc : bw.toNat ≤ 1 := Bool.toNat_le bw
  unfold limbDiff
  omega

theorem ofInt_limb_toNat {d : Int} (h0 : 0 ≤ d) (h1 : d < 2 ^ 31) : ((BitVec.ofInt 31 d).toNat : Int) = d := by
  rw [BitVec.toNat_ofInt]
  have : d % (2 ^ 31 : Nat) = d := Int.emod_eq_of_lt h0 (by simpa using h1)
  rw [this]
  omega

/-- The loop's value, with its final borrow. -/
theorem subLoop_val (ps : List (Limb × Limb)) (bw : Bool) : ∃ bw' : Bool,
    (limbsVal (subLoop ps bw) : Int) = limbsVal (ps.map Prod.fst) - limbsVal (ps.map Prod.snd) - bw.toNat +
      2 ^ (31 * ps.length) * bw'.toNat := by
  induction ps generalizing bw with
  | nil => exact ⟨bw, by simp [subLoop]⟩
  | cons p ps ih =>
    obtain ⟨a, b⟩ := p
    obtain ⟨lo, hi⟩ := limbDiff_bounds a b bw
    have hpow : (2 : Int) ^ (31 * (ps.length + 1)) = 2 ^ 31 * 2 ^ (31 * ps.length) := by
      rw [← pow_add]; congr 1; ring
    by_cases hd : limbDiff a b bw < 0
    · obtain ⟨bw', h⟩ := ih true
      refine ⟨bw', ?_⟩
      have hx := ofInt_limb_toNat (d := limbDiff a b bw + 2147483648) (by omega) (by omega)
      have hb : ((limbBase : Nat) : Int) = 2147483648 := by norm_num
      simp only [subLoop, hd, if_true, hb, limbsVal_cons, List.map_cons, List.length_cons, hpow]
      push_cast
      rw [h, hx, limbDiff]
      simp only [Bool.toNat_true]
      push_cast
      ring
    · obtain ⟨bw', h⟩ := ih false
      refine ⟨bw', ?_⟩
      have hx := ofInt_limb_toNat (d := limbDiff a b bw) (by omega) hi
      simp only [subLoop, hd, if_false, limbsVal_cons, List.map_cons, List.length_cons, hpow]
      push_cast
      rw [h, hx, limbDiff]
      simp only [Bool.toNat_false]
      push_cast
      ring

@[simp] theorem subLoop_length (ps : List (Limb × Limb)) (bw : Bool) : (subLoop ps bw).length = ps.length := by
  induction ps generalizing bw with
  | nil => rfl
  | cons p ps ih => obtain ⟨a, b⟩ := p; simp only [subLoop]; split <;> simp [ih]

/-- "At the end bw = 0": operands in order leave no borrow (R135). -/
theorem subOrdered_val {A Bv : List Limb} (hl : Bv.length ≤ A.length) (h : limbsVal Bv ≤ limbsVal A) :
    limbsVal (subOrdered A Bv) = limbsVal A - limbsVal Bv := by
  obtain ⟨bw', he⟩ := subLoop_val (limbPairs A.length A Bv) false
  have hlt := limbsVal_lt (subLoop (limbPairs A.length A Bv) false)
  rw [limbPairs_fst le_rfl, limbPairs_snd hl] at he
  simp only [subLoop_length, limbPairs_length, Bool.toNat_false] at he hlt
  rw [subOrdered, trimTop_val]
  cases bw' with
  | false => simp at he; omega
  | true =>
    have hlt' : ((limbsVal (subLoop (limbPairs A.length A Bv) false) : Nat) : Int) < 2 ^ (31 * A.length) := by
      exact_mod_cast hlt
    simp at he
    omega

/-- `sub_mag` gives |mag(A) - mag(Bv)|, and neg iff mag(A) < mag(Bv) (R135). -/
theorem subMag_spec {A Bv : List Limb} (hA : normalLimbs A) (hB : normalLimbs Bv) :
    limbsVal (subMag A Bv).1 = ((limbsVal A : Int) - limbsVal Bv).natAbs ∧
    (subMag A Bv).2 = decide (limbsVal A < limbsVal Bv) ∧ normalLimbs (subMag A Bv).1 := by
  unfold subMag
  by_cases h : limbsVal A < limbsVal Bv
  · rw [if_pos ((magcmp_lt_iff hA hB).mpr h)]
    refine ⟨?_, by simp [h], trimTop_normal _⟩
    rw [subOrdered_val (length_le_of_limbsVal_le hA h.le) h.le]
    omega
  · rw [if_neg (fun hc => h ((magcmp_lt_iff hA hB).mp hc))]
    refine ⟨?_, by simp [h], trimTop_normal _⟩
    rw [subOrdered_val (length_le_of_limbsVal_le hB (not_lt.mp h)) (not_lt.mp h)]
    omega

/-! ## Signed dispatch (R137, R141) -/

/-- Dropping the sign of an empty vector changes no value. -/
theorem signed_and_nonempty (n : Bool) (S : List Limb) : signed (n && !S.isEmpty) (limbsVal S) = signed n (limbsVal S) := by
  cases S <;> simp

/-- "The value returned is exactly a + b" (R137), whatever sign an operand that is zero carries. -/
theorem signedAdd_val {a b : Operand} (ha : normalLimbs a.limbs) (hb : normalLimbs b.limbs) :
    (signedAdd a b).val = a.val + b.val := by
  unfold signedAdd
  by_cases he : a.neg = b.neg
  · rw [if_pos he]
    simp only [Operand.val, Operand.mag, signed_and_nonempty]
    rw [addMag_val, he]
    cases b.neg <;> simp [signed] <;> ring
  · rw [if_neg he]
    obtain ⟨hv, hn, -⟩ := subMag_spec ha hb
    simp only [Operand.val, Operand.mag, signed_and_nonempty]
    rw [hv, hn]
    by_cases hlt : limbsVal a.limbs < limbsVal b.limbs
    · cases hna : a.neg <;> cases hnb : b.neg <;> simp only [hna, hnb, not_true_eq_false] at he <;>
        simp only [hlt, decide_true, if_true, signed_true, signed_false] <;> omega
    · cases hna : a.neg <;> cases hnb : b.neg <;> simp only [hna, hnb, not_true_eq_false] at he <;>
        simp only [hlt, decide_false, Bool.false_eq_true, if_false, signed_true, signed_false] <;> omega

@[simp] theorem Operand.negate_limbs (b : Operand) : b.negate.limbs = b.limbs := rfl

theorem Operand.negate_val (b : Operand) : b.negate.val = -b.val := by
  cases h : b.neg <;> simp [Operand.val, Operand.mag, Operand.negate, h]

/-- "r = sgn(a - b)" (R141). -/
theorem signedCompare_eq {cap : Nat} {a b : Operand} (ha : a.Ok cap) (hb : b.Ok cap) :
    signedCompare a b = (a.val - b.val).sign := by
  have hsa := ha.sign
  have hsb := hb.sign
  unfold signedCompare
  by_cases he : a.neg = b.neg
  · rw [if_neg (by simpa using he), magcmp_eq ha.normal hb.normal]
    cases hn : b.neg with
    | false => simp [Operand.val, Operand.mag, he, hn]
    | true =>
      rw [he, hn]
      simp only [Operand.val, Operand.mag, he, hn, signed_true, if_true, mul_neg, mul_one]
      rw [← Int.sign_neg]
      congr 1
      ring
  · rw [if_pos he]
    cases hn : a.neg with
    | true =>
      have hnb : b.neg = false := by cases h : b.neg <;> simp_all
      rw [hn] at hsa; rw [hnb] at hsb
      have h1 : a.val < 0 := by simpa using hsa
      have h2 : ¬ b.val < 0 := by simpa using hsb
      exact (Int.sign_eq_neg_one_of_neg (by omega)).symm
    | false =>
      have hnb : b.neg = true := by cases h : b.neg <;> simp_all
      rw [hn] at hsa; rw [hnb] at hsb
      have h1 : ¬ a.val < 0 := by simpa using hsa
      have h2 : b.val < 0 := by simpa using hsb
      exact (Int.sign_eq_one_of_pos (by omega)).symm

end Sys2Proof.Machine
end

