-- ==== Sys2Proof/Laws/Bus.lean ====
section
/-!
SUPPORT. The laws of the host bus: where the windows lie, what a transaction can do, and that writes keep the storage
of the registers (spec/20_memory.md).
-/

namespace Sys2Proof.Machine

/-! ## The register map -/

theorem cap_lt_windowWords (cap : Nat) : cap < windowWords cap := lt_two_pow_bitlen cap

theorem windowStride_pos (cap : Nat) : 0 < windowStride cap := by
  have := cap_lt_windowWords cap
  unfold windowStride; omega

/-- Word k of the window of V[i] stands at W(i) + 4 * k (R73). -/
theorem target_window {cap k : Nat} (i : Reg) (hk : k < windowWords cap) :
    target cap (windowBase cap i + 4 * k) = windowTarget cap i k := by
  have hs := windowStride_pos cap
  have hlt : 4 * k < windowStride cap := by unfold windowStride; omega
  have hoff : windowBase cap i + 4 * k - 0x1000 = 4 * k + windowStride cap * i.val := by
    unfold windowBase; rw [Nat.mul_comm]; omega
  have hq : (windowBase cap i + 4 * k - 0x1000) / windowStride cap = i.val := by
    rw [hoff, Nat.add_mul_div_left _ _ hs, Nat.div_eq_of_lt hlt, Nat.zero_add]
  have hr : (windowBase cap i + 4 * k - 0x1000) % windowStride cap = 4 * k := by
    rw [hoff, Nat.add_mul_mod_self_left, Nat.mod_eq_of_lt hlt]
  have h0 : ¬ windowBase cap i + 4 * k < 0x1000 := by unfold windowBase; omega
  rw [target, if_neg h0, dif_pos (by rw [hq]; exact i.isLt)]
  have hi : (⟨(windowBase cap i + 4 * k - 0x1000) / windowStride cap, by rw [hq]; exact i.isLt⟩ : Reg) = i :=
    Fin.ext hq
  rw [hi, hr, Nat.mul_div_cancel_left _ (by norm_num)]

/-- The header word of V[i] stands at W(i) (R73, R74). -/
theorem target_header (cap : Nat) (i : Reg) : target cap (windowBase cap i) = .header i := by
  have h := target_window (k := 0) i (lt_of_le_of_lt (Nat.zero_le _) (cap_lt_windowWords cap))
  simpa [windowTarget] using h

/-- The limb word L[j] stands at W(i) + 4 * (j + 1) (R73, R75). -/
theorem target_limb {cap j : Nat} (i : Reg) (hj : j < cap) :
    target cap (windowBase cap i + 4 * (j + 1)) = .limb i j := by
  rw [target_window i (by have := cap_lt_windowWords cap; omega), windowTarget, if_neg (by omega), if_pos (by omega)]
  rfl

/-- The windows lie within the port's address space (R70). -/
theorem window_in_space {cap k : Nat} (i : Reg) (hk : k < windowWords cap) :
    windowBase cap i + 4 * k < 2 ^ addrBits cap := by
  have hi := i.isLt
  have h1 : windowBase cap i + 4 * k ≤ 0x1000 + 16 * windowStride cap - 1 := by
    have h2 : (i.val + 1) * windowStride cap ≤ 16 * windowStride cap := Nat.mul_le_mul_right _ hi
    have h3 : 4 * k < windowStride cap := by unfold windowStride; omega
    rw [Nat.add_mul, one_mul] at h2
    unfold windowBase
    omega
  exact lt_of_le_of_lt h1 (lt_two_pow_bitlen _)

/-- The control region lies within the port's address space (R71). -/
theorem control_in_space {cap off : Nat} (h : off < 0x1000) : off < 2 ^ addrBits cap := by
  have hs := windowStride_pos cap
  refine lt_of_le_of_lt ?_ (lt_two_pow_bitlen (0x1000 + 16 * windowStride cap - 1))
  omega

/-! ## Reads and writes of register fields -/

@[simp] theorem VReg.withHeader_limbs (r : VReg) (w : Word) : (r.withHeader w).limbs = r.limbs := rfl
@[simp] theorem VReg.withHeader_len (r : VReg) (w : Word) : (r.withHeader w).len = w.extractLsb' 0 16 := rfl
@[simp] theorem VReg.withHeader_sign (r : VReg) (w : Word) : (r.withHeader w).sign = w.getLsbD 31 := rfl
@[simp] theorem VReg.withLimb_len (r : VReg) (j : Nat) (w : Word) : (r.withLimb j w).len = r.len := rfl
@[simp] theorem VReg.withLimb_sign (r : VReg) (j : Nat) (w : Word) : (r.withLimb j w).sign = r.sign := rfl
@[simp] theorem VReg.withLimb_length (r : VReg) (j : Nat) (w : Word) :
    (r.withLimb j w).limbs.length = r.limbs.length := by simp [VReg.withLimb]

/-- A limb is read back after it is written, and no other limb changes (R75). -/
theorem VReg.limbAt_withLimb {r : VReg} {j k : Nat} (w : Word) (hj : j < r.limbs.length) :
    limbAt (r.withLimb j w).limbs k = if j = k then w.extractLsb' 0 31 else limbAt r.limbs k := by
  simp only [VReg.withLimb, limbAt, List.getD_eq_getElem?_getD, List.getElem?_set, hj, if_true]
  split <;> rfl

/-! ## What a transaction can do -/

/-- Everything `busRead` can do: the space is left, an illegal access is answered with an error, or the word is read. -/
theorem busRead_cases (s : State) (off : Nat) (be : BitVec 4) :
    (2 ^ addrBits s.cfg.cap ≤ off ∧ busRead s off be = .fault .offsetOutsideSpace) ∨
    (off < 2 ^ addrBits s.cfg.cap ∧ legalAccess off be = false ∧ busRead s off be = .next (s.respond 0 true)) ∨
    (off < 2 ^ addrBits s.cfg.cap ∧ legalAccess off be = true ∧
      busRead s off be = .next (s.readWord (target s.cfg.cap off))) := by
  unfold busRead
  by_cases h : off < 2 ^ addrBits s.cfg.cap
  · cases hl : legalAccess off be <;> simp [h]
  · simp [h, not_lt.mp h]

/-- Everything `busWrite` can do. -/
theorem busWrite_cases (s : State) (off : Nat) (be : BitVec 4) (w : Word) :
    (2 ^ addrBits s.cfg.cap ≤ off ∧ busWrite s off be w = .fault .offsetOutsideSpace) ∨
    (off < 2 ^ addrBits s.cfg.cap ∧ legalAccess off be = false ∧ busWrite s off be w = .next (s.respond 0 true)) ∨
    (off < 2 ^ addrBits s.cfg.cap ∧ legalAccess off be = true ∧
      busWrite s off be w = .next ((s.writeWord (target s.cfg.cap off) w).respond 0 false)) := by
  unfold busWrite
  by_cases h : off < 2 ^ addrBits s.cfg.cap
  · cases hl : legalAccess off be <;> simp [h]
  · simp [h, not_lt.mp h]

/-- A legal read leaves everything but the response and the draws (R84). -/
theorem State.readWord_eq (s : State) (t : Target) :
    ∃ d n, s.readWord t = ({ s with draws := n } : State).respond d false := by
  unfold State.readWord
  split
  · exact ⟨_, _, rfl⟩
  · exact ⟨_, s.draws, rfl⟩

/-! ## Writes keep the registers' storage -/

/-- Replacing a register by one of as many limbs keeps every register's limb count. -/
theorem State.limbs_length_setV {s : State} {i : Reg} {r : VReg} (h : r.limbs.length = (s.readV i).limbs.length)
    (j : Reg) : ((s.setV i r).readV j).limbs.length = (s.readV j).limbs.length := by
  rw [State.readV_setV]
  split
  · next he => subst he; exact h
  · rfl

/-- No write changes the parameters. -/
@[simp] theorem State.writeWord_cfg (s : State) (t : Target) (w : Word) : (s.writeWord t w).cfg = s.cfg := by
  unfold State.writeWord
  split
  · rfl
  · cases t <;> simp only [State.writeTarget, State.writeCtrl] <;> first | rfl | (split <;> rfl)

/-- No write changes what is to come. -/
@[simp] theorem State.writeWord_inputs (s : State) (t : Target) (w : Word) : (s.writeWord t w).inputs = s.inputs := by
  unfold State.writeWord
  split
  · rfl
  · cases t <;> simp only [State.writeTarget, State.writeCtrl] <;> first | rfl | (split <;> rfl)

/-- A write keeps every register at CAP limbs. -/
theorem State.writeWord_limbs_length {s : State} (h : ∀ i : Reg, (s.readV i).limbs.length = s.cfg.cap) (t : Target)
    (w : Word) (j : Reg) : ((s.writeWord t w).readV j).limbs.length = s.cfg.cap := by
  unfold State.writeWord
  split
  · exact h j
  · cases t with
    | ctrl =>
      simp only [State.writeTarget, State.writeCtrl]
      split
      · simp [VReg.zero]
      · exact h j
    | header i => rw [State.writeTarget, State.limbs_length_setV (by simp)]; exact h j
    | limb i k => rw [State.writeTarget, State.limbs_length_setV (by simp)]; exact h j
    | id | status | cmd | arg0 | arg1 | result | windowReserved | unmapped => exact h j

/-! ## Legal transactions, and where they go -/

@[simp] theorem legalAccess_of_aligned {off : Nat} (h : off % 4 = 0) : legalAccess off 0xF = true := by
  unfold legalAccess; rw [h]; rfl

/-- R79: anything else is no legal access. -/
theorem legalAccess_eq_false {off : Nat} {be : BitVec 4} (h : be ≠ 0xF ∨ off % 4 ≠ 0) : legalAccess off be = false := by
  unfold legalAccess
  rw [Bool.and_eq_false_iff]
  exact h.imp (fun h => beq_eq_false_iff_ne.mpr h) (fun h => beq_eq_false_iff_ne.mpr h)

theorem busWrite_legal {s : State} {off : Nat} (w : Word) (h : off < 2 ^ addrBits s.cfg.cap) (h4 : off % 4 = 0) :
    busWrite s off 0xF w = .next ((s.writeWord (target s.cfg.cap off) w).respond 0 false) := by
  rw [busWrite, if_pos h, legalAccess_of_aligned h4, if_pos rfl]

theorem busRead_legal {s : State} {off : Nat} (h : off < 2 ^ addrBits s.cfg.cap) (h4 : off % 4 = 0) :
    busRead s off 0xF = .next (s.readWord (target s.cfg.cap off)) := by
  rw [busRead, if_pos h, legalAccess_of_aligned h4, if_pos rfl]

theorem target_control (cap : Nat) {off : Nat} (h : off < 0x1000) : target cap off = controlTarget off := if_pos h

theorem windowBase_aligned (cap : Nat) (i : Reg) : windowBase cap i % 4 = 0 := by
  unfold windowBase windowStride
  rw [show i.val * (4 * windowWords cap) = 4 * (i.val * windowWords cap) by ring]
  omega

/-- Every aligned offset from a window's start to its end is a word of it. -/
theorem exists_window_word {cap off : Nat} {i : Reg} (h1 : windowBase cap i ≤ off)
    (h2 : off < windowBase cap i + windowStride cap) (h4 : off % 4 = 0) :
    ∃ k < windowWords cap, off = windowBase cap i + 4 * k := by
  have := windowBase_aligned cap i
  have : windowStride cap = 4 * windowWords cap := rfl
  exact ⟨(off - windowBase cap i) / 4, by omega, by omega⟩

theorem inWindow_target {cap k : Nat} (i : Reg) (hk : k < windowWords cap) :
    (target cap (windowBase cap i + 4 * k)).inWindow = true := by
  rw [target_window i hk, windowTarget]
  split
  · rfl
  · split <;> rfl

/-- An aligned offset at which a window's word stands is that window's base plus the word's place. -/
theorem offset_of_window {cap off : Nat} (h4 : off % 4 = 0) (h0 : ¬ off < 0x1000)
    (h : (off - 0x1000) / windowStride cap < 16) :
    off = windowBase cap ⟨(off - 0x1000) / windowStride cap, h⟩ + 4 * ((off - 0x1000) % windowStride cap / 4) := by
  have hd := Nat.div_add_mod (off - 0x1000) (windowStride cap)
  rw [Nat.mul_comm] at hd
  have hm : (off - 0x1000) % windowStride cap % 4 = 0 := by rw [windowStride, Nat.mod_mul_right_mod]; omega
  simp only [windowBase]
  omega

/-- L[j] of V[i] stands at one aligned offset only (R73, R75). -/
theorem offset_of_limb {cap off j : Nat} {i : Reg} (h4 : off % 4 = 0) (h : target cap off = .limb i j) :
    off = windowBase cap i + 4 * (j + 1) := by
  unfold target at h
  by_cases h0 : off < 0x1000
  · rw [if_pos h0] at h
    unfold controlTarget at h
    repeat' (split at h; · cases h)
    cases h
  · rw [if_neg h0] at h
    by_cases h1 : (off - 0x1000) / windowStride cap < 16
    · rw [dif_pos h1, windowTarget] at h
      have ho := offset_of_window h4 h0 h1
      split at h
      · cases h
      · split at h
        · cases h
          rw [Nat.sub_add_cancel (by omega)]
          exact ho
        · cases h
    · rw [dif_neg h1] at h
      cases h

/-- Nothing stands at a reserved control offset or above the windows (R77). -/
theorem target_unmapped {cap off : Nat}
    (h : (0x01C ≤ off ∧ off < 0x1000) ∨ 0x1000 + 16 * windowStride cap ≤ off) : target cap off = .unmapped := by
  rcases h with ⟨h1, h2⟩ | h
  · rw [target_control cap h2, controlTarget]
    repeat' rw [if_neg (by omega)]
  · have hs : ¬ (off - 0x1000) / windowStride cap < 16 := by
      rw [Nat.div_lt_iff_lt_mul (windowStride_pos cap)]
      omega
    rw [target, if_neg (by omega), dif_neg hs]

/-- The words of a window past its last limb are reserved (R76). -/
theorem target_windowReserved {cap k : Nat} (i : Reg) (h : cap < k) (hk : k < windowWords cap) :
    target cap (windowBase cap i + 4 * k) = .windowReserved i := by
  rw [target_window i hk, windowTarget, if_neg (by omega), if_neg (by omega)]

/-- With no command pending a legal read answers the word that stands at its offset. -/
theorem busRead_idle {s : State} {off : Nat} (hp : s.pending = none) (h : off < 2 ^ addrBits s.cfg.cap)
    (h4 : off % 4 = 0) : busRead s off 0xF = .next (s.respond (s.wordAt off) false) := by
  rw [busRead_legal h h4, State.readWord, State.busy, hp]
  rfl

/-- With no command pending a legal write has its target's effect. -/
theorem busWrite_idle {s : State} {off : Nat} (w : Word) (hp : s.pending = none) (h : off < 2 ^ addrBits s.cfg.cap)
    (h4 : off % 4 = 0) :
    busWrite s off 0xF w = .next ((s.writeTarget w (target s.cfg.cap off)).respond 0 false) := by
  rw [busWrite_legal w h h4, State.writeWord, State.busy, hp]
  rfl

/-- VW is the smallest power of two ≥ CAP + 1 (R5). -/
theorem windowWords_least {cap m : Nat} (h : cap + 1 ≤ 2 ^ m) : bitlen cap ≤ m := bitlen_le_iff.mpr h

/-- ADDR_BITS is the smallest number of bits that carries every window's offsets (R5). -/
theorem addrBits_spec (cap : Nat) :
    0x1000 + 16 * windowStride cap ≤ 2 ^ addrBits cap ∧
    ∀ m, 0x1000 + 16 * windowStride cap ≤ 2 ^ m → addrBits cap ≤ m := by
  have := lt_two_pow_bitlen (0x1000 + 16 * windowStride cap - 1)
  refine ⟨by unfold addrBits; omega, fun m h => bitlen_le_iff.mpr (by omega)⟩

end Sys2Proof.Machine
end

