-- ==== Sys2Proof/Laws/Decode.lean ====
section
/-!
SUPPORT. The laws of the command word: reading back the fields of a packed word (spec/30_encoding.md R101) and masking
it (R102).
-/

namespace Sys2Proof

/-! ## Appended bit vectors -/

theorem toNat_append_add {m n : Nat} (x : BitVec m) (y : BitVec n) : (x ++ y).toNat = x.toNat * 2 ^ n + y.toNat := by
  rw [BitVec.toNat_append, ← Nat.shiftLeft_add_eq_or_of_lt y.isLt, Nat.shiftLeft_eq]

theorem append_and_append {m n : Nat} (x a : BitVec m) (y b : BitVec n) :
    (x ++ y) &&& (a ++ b) = (x &&& a) ++ (y &&& b) := by
  apply BitVec.eq_of_getLsbD_eq
  intro i hi
  simp only [BitVec.getLsbD_and, BitVec.getLsbD_append]
  split <;> rfl

theorem six_fields_and (x a : BitVec 8) (y1 b1 y2 b2 y3 b3 y4 b4 : BitVec 4) (z c : BitVec 8) :
    (x ++ y1 ++ y2 ++ y3 ++ y4 ++ z) &&& (a ++ b1 ++ b2 ++ b3 ++ b4 ++ c) =
      (x &&& a) ++ (y1 &&& b1) ++ (y2 &&& b2) ++ (y3 &&& b3) ++ (y4 &&& b4) ++ (z &&& c) := by
  simp only [append_and_append]

/-! ## Fields of a packed word (R101) -/

/-- The fields of a word as digits. -/
theorem packWord_toNat (op : BitVec 8) (rd rd2 rs1 rs2 : Reg) :
    (packWord op rd rd2 rs1 rs2).toNat =
      op.toNat + 256 * rd.val + 4096 * rs1.val + 65536 * rs2.val + 1048576 * rd2.val := by
  simp only [packWord, toNat_append_add, regBits, BitVec.toNat_ofFin, BitVec.toNat_ofNat]
  omega

theorem regField_val (lo : Nat) (w : Word) : (regField lo w).val = w.toNat / 2 ^ lo % 16 := by
  simp [regField, BitVec.extractLsb', Nat.shiftRight_eq_div_pow, BitVec.ofNat, Fin.ofNat]

@[simp] theorem opField_packWord (op : BitVec 8) (rd rd2 rs1 rs2 : Reg) : opField (packWord op rd rd2 rs1 rs2) = op := by
  apply BitVec.eq_of_toNat_eq
  have := op.isLt
  rw [opField, BitVec.extractLsb'_toNat, packWord_toNat, Nat.shiftRight_zero]
  omega

@[simp] theorem rdField_packWord (op : BitVec 8) (rd rd2 rs1 rs2 : Reg) : rdField (packWord op rd rd2 rs1 rs2) = rd := by
  apply Fin.ext
  have := op.isLt
  rw [rdField, regField_val, packWord_toNat]
  omega

@[simp] theorem rs1Field_packWord (op : BitVec 8) (rd rd2 rs1 rs2 : Reg) :
    rs1Field (packWord op rd rd2 rs1 rs2) = rs1 := by
  apply Fin.ext
  have := op.isLt
  rw [rs1Field, regField_val, packWord_toNat]
  omega

@[simp] theorem rs2Field_packWord (op : BitVec 8) (rd rd2 rs1 rs2 : Reg) :
    rs2Field (packWord op rd rd2 rs1 rs2) = rs2 := by
  apply Fin.ext
  have := op.isLt
  rw [rs2Field, regField_val, packWord_toNat]
  omega

@[simp] theorem rd2Field_packWord (op : BitVec 8) (rd rd2 rs1 rs2 : Reg) :
    rd2Field (packWord op rd rd2 rs1 rs2) = rd2 := by
  apply Fin.ext
  have := op.isLt
  rw [rd2Field, regField_val, packWord_toNat]
  omega

/-! ## Masked words (R102, R105) -/

/-- A mask by fields: RSV and OP always matched, each register field matched or not. -/
def fieldMask (rd rd2 rs1 rs2 : BitVec 4) : Word := 0xFF#8 ++ rd2 ++ rs2 ++ rs1 ++ rd ++ 0xFF#8

/-- Masking a packed word masks its fields. -/
theorem packWord_and_fieldMask (op : BitVec 8) (rd rd2 rs1 rs2 : Reg) (a b c d : BitVec 4) :
    packWord op rd rd2 rs1 rs2 &&& fieldMask a b c d =
      0#8 ++ (regBits rd2 &&& b) ++ (regBits rs2 &&& d) ++ (regBits rs1 &&& c) ++ (regBits rd &&& a) ++ op := by
  have h := six_fields_and 0#8 0xFF#8 (regBits rd2) b (regBits rs2) d (regBits rs1) c (regBits rd) a op 0xFF#8
  rwa [BitVec.zero_and, show op &&& 0xFF#8 = op from BitVec.and_allOnes] at h

/-- The masks of R102 by fields: 0 lets a used field be anything, 0xF makes an unused field match. -/
theorem Format.mask_eq (f : Format) : f.mask =
    match f with
    | .n => fieldMask 0xF#4 0xF#4 0xF#4 0xF#4
    | .d => fieldMask 0#4 0xF#4 0xF#4 0xF#4
    | .ds => fieldMask 0#4 0xF#4 0#4 0xF#4
    | .dss => fieldMask 0#4 0xF#4 0#4 0#4
    | .ddss => fieldMask 0#4 0#4 0#4 0#4
    | .dds => fieldMask 0#4 0#4 0#4 0xF#4
    | .s => fieldMask 0xF#4 0xF#4 0#4 0xF#4
    | .ss => fieldMask 0xF#4 0xF#4 0#4 0#4 := by cases f <;> decide

@[simp] theorem regBits_zero : regBits 0 = 0#4 := rfl

/-- The opcode's word: every field 0. -/
theorem zero_fields (op : BitVec 8) : (0#8 ++ 0#4 ++ 0#4 ++ 0#4 ++ 0#4 ++ op : Word) = op.setWidth 32 := by
  apply BitVec.eq_of_toNat_eq
  have := op.isLt
  simp only [toNat_append_add, BitVec.toNat_ofNat, BitVec.toNat_setWidth]
  omega

/-- Every command's word, masked by its format, is its opcode's word: the unused fields are 0 (R103, R104). -/
theorem encode_and_mask (i : Instr) : encode i &&& i.format.mask = (opField (encode i)).setWidth 32 := by
  cases i <;>
    simp only [encode, Instr.format, Format.mask_eq, packWord_and_fieldMask, regBits_zero, BitVec.and_zero,
      BitVec.zero_and, zero_fields, opField_packWord]

end Sys2Proof
end

