-- ==== Sys2Proof/Laws/Divider.lean ====
section
/-!
SUPPORT. The laws of the dividers: `div_mag` is exact division, EST_ref and every ESTIMATOR keep the bound, `divx_mag`
equals `div_mag`, signs truncate toward zero, and the multiplicity is maximal (spec/43_divider.md R210-R231).
-/

namespace Sys2Proof.Machine

/-! ## div_mag (R210) -/

theorem bits_below_succ (A i : Nat) : A % 2 ^ (i + 1) = A >>> i % 2 * 2 ^ i + A % 2 ^ i := by
  rw [Nat.shiftRight_eq_div_pow, pow_succ, Nat.mod_mul]; ring

/-- The loop divides what the remainder and the bits still to come are worth. -/
theorem divLoop_eq {A D : Nat} (i Q Rm : Nat) (h : Rm < D) :
    divLoop A D i (Q, Rm) = (Q + (Rm * 2 ^ i + A % 2 ^ i) / D, (Rm * 2 ^ i + A % 2 ^ i) % D) := by
  induction i generalizing Q Rm with
  | zero => simp [divLoop, Nat.mod_one, Nat.div_eq_of_lt h, Nat.mod_eq_of_lt h]
  | succ i ih =>
    have hb : A >>> i % 2 < 2 := Nat.mod_lt _ two_pos
    have hsum : Rm * 2 ^ (i + 1) + A % 2 ^ (i + 1) = (2 * Rm + A >>> i % 2) * 2 ^ i + A % 2 ^ i := by
      rw [bits_below_succ]; ring
    simp only [divLoop]
    split
    · next hge =>
      have hsub : (2 * Rm + A >>> i % 2) * 2 ^ i + A % 2 ^ i =
          (2 * Rm + A >>> i % 2 - D) * 2 ^ i + A % 2 ^ i + D * 2 ^ i := by
        obtain ⟨x, hx⟩ := Nat.exists_eq_add_of_le hge
        rw [hx, Nat.add_sub_cancel_left]; ring
      rw [ih _ _ (by omega), hsum, hsub, Nat.add_mul_div_left _ _ (by omega), Nat.add_mul_mod_self_left]
      congr 1
      ring
    · next hlt => rw [ih _ _ (by omega), hsum]

/-- "Q = floor(A / D) and Rm = A - Q*D" (R210). -/
theorem divMag_eq {A D : Nat} (h : 0 < D) : divMag A D = (A / D, A % D) := by
  rw [divMag, divLoop_eq _ _ _ h]
  simp [Nat.mod_eq_of_lt (lt_two_pow_bitlen A)]

/-! ## ESTIMATOR (R222, R223) -/

theorem estRef_le {A D : Nat} (h : 0 < D) : estRef A D ≤ A / D := by
  unfold estRef
  dsimp only
  split
  · exact le_rfl
  · rw [Nat.div_div_eq_div_mul]
    refine Nat.div_le_div_left ?_ h
    have := Nat.lt_mul_div_succ D (show 0 < 2 ^ (bitlen D - 62) by positivity)
    exact this.le

/-- Any divisor of at most two limbs gives the exact quotient (R221). -/
theorem estRef_exact {A D : Nat} (h : bitlen D ≤ 62) : estRef A D = A / D := by
  rw [estRef, if_pos (by omega)]

/-- The contract of R222, whichever the ESTIMATOR. -/
theorem estimate_le (e : Estimator) {A D : Nat} (h : 0 < D) : estimate e A D ≤ A / D := by
  cases e with
  | estRef => exact estRef_le h
  | free => exact min_le_right _ _

/-! ## divx_mag (R213) -/

/-- The first loop keeps Q * D + Rm. -/
theorem divxLoop_keeps (e : Estimator) {D : Nat} (h : 0 < D) (f Q Rm : Nat) :
    (divxLoop e D f (Q, Rm)).1 * D + (divxLoop e D f (Q, Rm)).2 = Q * D + Rm := by
  induction f generalizing Q Rm with
  | zero => rfl
  | succ f ih =>
    unfold divxLoop
    split
    · rfl
    · have hle : estimate e Rm D * D ≤ Rm := (Nat.mul_le_mul_right _ (estimate_le e h)).trans (Nat.div_mul_le_self _ _)
      rw [ih, Nat.add_mul]
      omega

/-- The correction loop divides what is left, given passes enough. -/
theorem divxCorrect_eq {D : Nat} (h : 0 < D) (f Q Rm : Nat) (hf : Rm / D < f) :
    divxCorrect D f (Q, Rm) = (Q + Rm / D, Rm % D) := by
  induction f generalizing Q Rm with
  | zero => exact absurd hf (Nat.not_lt_zero _)
  | succ f ih =>
    unfold divxCorrect
    split
    · next hge =>
      have hd : Rm / D = (Rm - D) / D + 1 := by rw [Nat.div_eq_sub_div h hge]
      rw [ih _ _ (by omega), hd, Nat.mod_eq_sub_mod hge]
      congr 1
      ring
    · next hlt => rw [Nat.div_eq_of_lt (by omega), Nat.mod_eq_of_lt (by omega)]; rfl

/-- "The result equals div_mag(A, D)" for every ESTIMATOR (R213, R214). -/
theorem divxMag_eq (e : Estimator) {A D : Nat} (h : 0 < D) : divxMag e A D = divMag A D := by
  have hk := divxLoop_keeps e h (A / D + 1) 0 A
  rw [divMag_eq h, divxMag]
  generalize divxLoop e D (A / D + 1) (0, A) = p at *
  obtain ⟨Q, Rm⟩ := p
  simp only [Nat.zero_mul, Nat.zero_add] at hk
  have hdiv : A / D = Q + Rm / D := by rw [← hk, add_comm, Nat.add_mul_div_right _ _ h, add_comm]
  have hmod : A % D = Rm % D := by rw [← hk, add_comm, Nat.add_mul_mod_self_right]
  rw [divxCorrect_eq h _ _ _ (by omega), hdiv, hmod]

/-! ## Signed results (R212) -/

theorem signed_div_eq_tdiv (x y : Int) : signed (productSign x y) (x.natAbs / y.natAbs) = x.tdiv y := by
  unfold productSign
  rcases Int.natAbs_eq x with hx | hx <;> rcases Int.natAbs_eq y with hy | hy
  all_goals
    generalize x.natAbs = m at *
    generalize y.natAbs = n at *
    subst hx hy
    simp only [Int.neg_tdiv, Int.tdiv_neg, neg_neg, ← Int.natCast_div, Int.tdiv_eq_ediv_of_nonneg (Int.natCast_nonneg _)]
    rcases Nat.eq_zero_or_pos m with rfl | hm <;> rcases Nat.eq_zero_or_pos n with rfl | hn <;> simp [signed, *]
    try exact fun h => absurd (by constructor <;> intro <;> omega) h

theorem signed_mod_eq_tmod (x y : Int) : signed (decide (x < 0)) (x.natAbs % y.natAbs) = x.tmod y := by
  rcases Int.natAbs_eq x with hx | hx <;> rcases Int.natAbs_eq y with hy | hy
  all_goals
    generalize x.natAbs = m at *
    generalize y.natAbs = n at *
    subst hx hy
    simp only [Int.neg_tmod, Int.tmod_neg, ← Int.natCast_mod, Int.tmod_eq_emod_of_nonneg (Int.natCast_nonneg _)]
    rcases Nat.eq_zero_or_pos m with rfl | hm <;> simp [signed, *]

/-- "q = trunc(a / b) and r = a - q*b" (R212). -/
theorem signedQuotRem_exact (x y : Int) :
    signedQuotRem x y (x.natAbs / y.natAbs, x.natAbs % y.natAbs) = (x.tdiv y, x.tmod y) := by
  rw [signedQuotRem, signed_div_eq_tdiv, signed_mod_eq_tmod]

theorem signedDiv_eq {x y : Int} (h : y ≠ 0) : signedDiv x y = (x.tdiv y, x.tmod y) := by
  rw [signedDiv, divMag_eq (by omega), signedQuotRem_exact]

/-! ## Divisor multiplicity (R230, R231) -/

/-- The core divides d out until it no longer divides; the bound on the passes is never reached. -/
theorem removeCore_spec {d : Int} (hd : 2 ≤ d.natAbs) (f k : Nat) (c : Int) (hc : c ≠ 0) (hf : c.natAbs < 2 ^ f) :
    ∃ j c', removeCore d f (k, c) = (k + j, c') ∧ c = c' * d ^ j ∧ ¬ d ∣ c' := by
  induction f generalizing k c with
  | zero => omega
  | succ f ih =>
    have hd0 : d ≠ 0 := by omega
    unfold removeCore
    rw [signedDiv_eq hd0]
    by_cases hr : c.tmod d = 0
    · obtain ⟨q, rfl⟩ := Int.dvd_of_tmod_eq_zero hr
      have hq : q ≠ 0 := by rintro rfl; simp at hc
      have hlt : q.natAbs < 2 ^ f := by
        rw [Int.natAbs_mul, pow_succ] at hf
        nlinarith [Nat.mul_le_mul_right q.natAbs hd]
      obtain ⟨j, c', h1, h2, h3⟩ := ih (k + 1) q hq hlt
      refine ⟨j + 1, c', ?_, ?_, h3⟩
      · rw [if_neg (by simp)]
        simp only [Int.mul_tdiv_cancel_left _ hd0, h1]
        congr 1
        ring
      · rw [h2]; ring
    · refine ⟨0, c, ?_, by simp, fun hdvd => hr (Int.tmod_eq_zero_of_dvd hdvd)⟩
      rw [if_pos (by simpa using hr)]
      rfl

/-- "k is the largest integer with d^k | v, and c = v / d^k exactly" (R231). -/
theorem removeFactor_spec {v d : Int} (hv : v ≠ 0) (hd : 2 ≤ d.natAbs) :
    v = (removeFactor v d).2 * d ^ (removeFactor v d).1 ∧ ¬ d ∣ (removeFactor v d).2 := by
  rw [removeFactor, if_neg hv, if_neg (by omega)]
  obtain ⟨j, c', h1, h2, h3⟩ := removeCore_spec hd (bitlen v.natAbs) 0 v hv (lt_two_pow_bitlen _)
  rw [h1]
  simpa using ⟨h2, h3⟩

theorem removeFactor_zero (d : Int) : removeFactor 0 d = (0, 0) := by simp [removeFactor]

theorem removeFactor_unit {v d : Int} (hv : v ≠ 0) (hd : d.natAbs = 1) : removeFactor v d = (1, v.tdiv d) := by
  rw [removeFactor, if_neg hv, if_pos hd, signedDiv_eq (by omega)]

/-- "CAPACITY cannot arise (|c| ≤ |v|)" (R231). -/
theorem removeFactor_natAbs_le {v d : Int} (hd : d ≠ 0) : (removeFactor v d).2.natAbs ≤ v.natAbs := by
  by_cases hv : v = 0
  · subst hv; simp [removeFactor_zero]
  · by_cases h1 : d.natAbs = 1
    · rw [removeFactor_unit hv h1, Int.natAbs_tdiv]
      exact Nat.div_le_self _ _
    · obtain ⟨h2, -⟩ := removeFactor_spec hv (d := d) (by omega)
      have hp : 0 < (d ^ (removeFactor v d).1).natAbs := by
        rw [Int.natAbs_pow]; exact Nat.pow_pos (by omega)
      calc _ ≤ (removeFactor v d).2.natAbs * (d ^ (removeFactor v d).1).natAbs := Nat.le_mul_of_pos_right _ hp
        _ = v.natAbs := by rw [← Int.natAbs_mul, ← h2]

/-- The multiplicity is below the bit length of the value, so it fits RESULT (R231). -/
theorem removeFactor_count_le {v d : Int} (hd : d ≠ 0) : (removeFactor v d).1 ≤ max 1 (bitlen v.natAbs) := by
  by_cases hv : v = 0
  · subst hv; simp [removeFactor_zero]
  · by_cases h1 : d.natAbs = 1
    · rw [removeFactor_unit hv h1]; exact le_max_left _ _
    · obtain ⟨h2, -⟩ := removeFactor_spec hv (d := d) (by omega)
      refine le_max_of_le_right (lt_bitlen_iff.mpr ?_).le
      have hc : (removeFactor v d).2 ≠ 0 := by intro h0; rw [h0, zero_mul] at h2; exact hv h2
      have habs := congrArg Int.natAbs h2
      rw [Int.natAbs_mul, Int.natAbs_pow] at habs
      calc 2 ^ (removeFactor v d).1 ≤ d.natAbs ^ (removeFactor v d).1 := Nat.pow_le_pow_left (by omega) _
        _ ≤ (removeFactor v d).2.natAbs * d.natAbs ^ (removeFactor v d).1 := Nat.le_mul_of_pos_left _ (by omega)
        _ = v.natAbs := habs.symm

end Sys2Proof.Machine
end

