-- ==== Sys2Proof/Laws/Shifter.lean ====
section
/-!
SUPPORT. The laws of the barrel shifter: `shl_mag` multiplies by 2^n, `shr_mag` divides by 2^n
(spec/41_shifter.md R170, R171), and the early capacity decision of SHL is the exact one.
-/

namespace Sys2Proof.Machine

/-! ## shl_mag (R170) -/

/-- The 64-bit word of the loop, exactly. -/
theorem shlWord_toNat {r : Nat} (hr : r < 31) (t : Limb) {c : Wide} (hc : c.toNat < 2 ^ r) :
    ((t.setWidth 64 <<< r) ||| c).toNat = t.toNat * 2 ^ r + c.toNat := by
  have ht := t.isLt
  have h1 : t.toNat * 2 ^ r < 2 ^ 64 := by
    calc t.toNat * 2 ^ r < 2 ^ 31 * 2 ^ r := Nat.mul_lt_mul_of_pos_right ht (by positivity)
      _ = 2 ^ (31 + r) := by rw [pow_add]
      _ ≤ 2 ^ 64 := Nat.pow_le_pow_right (by norm_num) (by omega)
  rw [BitVec.toNat_or, BitVec.toNat_shiftLeft, BitVec.toNat_setWidth, Nat.mod_eq_of_lt (by omega : t.toNat < 2 ^ 64),
    Nat.mod_eq_of_lt (by rwa [Nat.shiftLeft_eq]), ← Nat.shiftLeft_add_eq_or_of_lt hc, Nat.shiftLeft_eq]

theorem shlLoop_val {r : Nat} (hr : r < 31) (ts : List Limb) {c : Wide} (hc : c.toNat < 2 ^ r) :
    limbsVal (shlLoop r ts c) = limbsVal ts * 2 ^ r + c.toNat := by
  induction ts generalizing c with
  | nil =>
    have h31 : 2 ^ r < 2 ^ 31 := Nat.pow_lt_pow_right (by norm_num) hr
    unfold shlLoop
    split
    · rw [limbsVal_cons, low_limb_toNat, limbsVal_nil]; omega
    · next h => simp only [ne_eq, not_not] at h; subst h; simp
  | cons t ts ih =>
    have hw := shlWord_toNat hr t hc
    have ht := t.isLt
    have hc' : (((t.setWidth 64 <<< r) ||| c) >>> 31).toNat < 2 ^ r := by
      rw [BitVec.toNat_ushiftRight, hw, Nat.shiftRight_eq_div_pow, Nat.div_lt_iff_lt_mul (by positivity)]
      have : (t.toNat + 1) * 2 ^ r ≤ 2 ^ 31 * 2 ^ r := Nat.mul_le_mul_right _ ht
      rw [Nat.add_mul, one_mul] at this
      linarith
    simp only [shlLoop, limbsVal_cons, ih hc', low_limb_toNat]
    rw [BitVec.toNat_ushiftRight, hw, Nat.shiftRight_eq_div_pow]
    have := Nat.mod_add_div (t.toNat * 2 ^ r + c.toNat) 2147483648
    simp only [Nat.reducePow]
    linarith

/-- "The magnitude is mag(A) * 2^n" (R170). -/
theorem shlMag_val (A : List Limb) (n : Nat) : limbsVal (shlMag A n) = limbsVal A * 2 ^ n := by
  have hr : n % 31 < 31 := Nat.mod_lt _ (by norm_num)
  rw [shlMag, limbsVal_append, limbsVal_replicate_zero, List.length_replicate,
    shlLoop_val hr A (by simp)]
  conv_rhs => rw [← Nat.div_add_mod n 31, pow_add]
  rw [show (0 : Wide).toNat = 0 from rfl]
  ring

/-- The early decision is the exact one: |a| * 2^n ≥ B^CAP, for |a| not 0 (R172). -/
theorem shlOverflows_iff {cap m n : Nat} (h : m ≠ 0) : shlOverflows cap m n = true ↔ 2 ^ (31 * cap) ≤ m * 2 ^ n := by
  rw [shlOverflows, decide_eq_true_iff, ← bitlen_mul_two_pow h, lt_bitlen_iff]

/-! ## shr_mag (R171) -/

/-- Limb j of a vector is digit j of its value. -/
theorem limbAt_toNat (A : List Limb) (j : Nat) : (limbAt A j).toNat = limbsVal A / 2 ^ (31 * j) % 2 ^ 31 := by
  induction A generalizing j with
  | nil => simp
  | cons x xs ih =>
    have hx := x.isLt
    cases j with
    | zero => simp only [limbAt_cons_zero, limbsVal_cons, mul_zero, pow_zero, Nat.div_one]; omega
    | succ j =>
      rw [limbAt_cons_succ, ih, show 31 * (j + 1) = 31 + 31 * j by ring, pow_add, ← Nat.div_div_eq_div_mul]
      congr 2
      rw [limbsVal_cons]
      omega

/-- Two limbs side by side, shifted down: bits r..r+30 of a number. -/
theorem shr_bits {r : Nat} (hr : r < 31) (X : Nat) :
    (X % 2 ^ 31 / 2 ^ r + X / 2 ^ 31 % 2 ^ 31 * 2 ^ (31 - r)) % 2 ^ 31 = X / 2 ^ r % 2 ^ 31 := by
  have hsplit : X / 2 ^ r = X % 2 ^ 31 / 2 ^ r + X / 2 ^ 31 * 2 ^ (31 - r) := by
    conv_lhs => rw [← Nat.mod_add_div X (2 ^ 31)]
    rw [show 2 ^ 31 * (X / 2 ^ 31) = X / 2 ^ 31 * 2 ^ (31 - r) * 2 ^ r by
      rw [mul_assoc, ← pow_add, Nat.sub_add_cancel hr.le, mul_comm], Nat.add_mul_div_right _ _ (by positivity)]
  rw [hsplit, Nat.add_mod, Nat.add_mod (X % 2 ^ 31 / 2 ^ r), Nat.mul_mod, Nat.mod_mod, ← Nat.mul_mod]

theorem shrLimb_toNat {A : List Limb} {q r j : Nat} (hr : r < 31) :
    shrLimb A q r j = digit (limbsVal A / 2 ^ (31 * q + r)) j := by
  apply BitVec.eq_of_toNat_eq
  have h0 : limbsVal A / 2 ^ (31 * q + r) / 2 ^ (31 * j) = limbsVal A / 2 ^ (31 * (j + q)) / 2 ^ r := by
    rw [Nat.div_div_eq_div_mul, Nat.div_div_eq_div_mul, ← pow_add, ← pow_add]
    congr 2; ring
  have h1 : limbsVal A / 2 ^ (31 * (j + q + 1)) = limbsVal A / 2 ^ (31 * (j + q)) / 2 ^ 31 := by
    rw [Nat.div_div_eq_div_mul, ← pow_add]; congr 2
  rw [digit_toNat, h0, ← shr_bits hr]
  have hx := (limbAt A (j + q)).isLt
  have hy := (limbAt A (j + q + 1)).isLt
  have ex := limbAt_toNat A (j + q)
  have ey := limbAt_toNat A (j + q + 1)
  rw [h1] at ey
  rw [← ex, ← ey]
  have hlo : (limbAt A (j + q)).toNat / 2 ^ r < 2 ^ (31 - r) := by
    rw [Nat.div_lt_iff_lt_mul (by positivity), ← pow_add, Nat.sub_add_cancel hr.le]; exact hx
  have hhi : (limbAt A (j + q + 1)).toNat * 2 ^ (31 - r) < 2 ^ 64 := by
    calc _ < 2 ^ 31 * 2 ^ (31 - r) := Nat.mul_lt_mul_of_pos_right hy (by positivity)
      _ = 2 ^ (31 + (31 - r)) := by rw [pow_add]
      _ ≤ 2 ^ 64 := Nat.pow_le_pow_right (by norm_num) (by omega)
  rw [shrLimb, low_limb_toNat, BitVec.toNat_or, BitVec.toNat_ushiftRight, BitVec.toNat_shiftLeft, BitVec.toNat_setWidth,
    BitVec.toNat_setWidth, Nat.mod_eq_of_lt (by omega : (limbAt A (j + q)).toNat < 2 ^ 64),
    Nat.mod_eq_of_lt (by omega : (limbAt A (j + q + 1)).toNat < 2 ^ 64),
    Nat.mod_eq_of_lt (a := _ <<< _) (by rwa [Nat.shiftLeft_eq]), Nat.shiftRight_eq_div_pow, Nat.or_comm,
    ← Nat.shiftLeft_add_eq_or_of_lt hlo, Nat.shiftLeft_eq, add_comm]
  rfl

theorem trimOne_val (T : List Limb) : limbsVal (trimOne T) = limbsVal T := by
  unfold trimOne
  split
  · next h =>
    obtain ⟨h0, h1⟩ := h
    have hne : T ≠ [] := List.ne_nil_of_length_pos h0
    have hl : T.getLast hne = 0 := by
      rw [← h1, limbAt, List.getLast_eq_getElem, List.getD_eq_getElem _ _ (by omega)]
    conv_rhs => rw [← List.dropLast_append_getLast hne, limbsVal_append, hl]
    simp
  · rfl

/-- "The magnitude is floor(mag(A) / 2^n)" (R171). -/
theorem shrMag_val (A : List Limb) (n : Nat) : limbsVal (shrMag A n) = limbsVal A / 2 ^ n := by
  have hr : n % 31 < 31 := Nat.mod_lt _ (by norm_num)
  have hn : 31 * (n / 31) + n % 31 = n := Nat.div_add_mod n 31
  have hlt := limbsVal_lt A
  unfold shrMag
  split
  · next h =>
    rw [limbsVal_nil, Nat.div_eq_of_lt]
    exact lt_of_lt_of_le hlt (Nat.pow_le_pow_right (by norm_num) (by omega))
  · next h =>
    have hmap : (List.range (A.length - n / 31)).map (shrLimb A (n / 31) (n % 31)) =
        (List.range (A.length - n / 31)).map (digit (limbsVal A / 2 ^ n)) := by
      refine List.map_congr_left fun j _ => ?_
      rw [shrLimb_toNat hr, hn]
    rw [trimOne_val, hmap, limbsVal_digits, Nat.mod_eq_of_lt]
    rw [Nat.div_lt_iff_lt_mul (by positivity), ← pow_add]
    exact lt_of_lt_of_le hlt (Nat.pow_le_pow_right (by norm_num) (by omega))

end Sys2Proof.Machine
end

