-- ==== Sys2Proof/Laws/Multiplier.lean ====
section
/-!
SUPPORT. The laws of the limb multiplier: `mul_mag` multiplies, and no intermediate overflows
(spec/42_multiplier.md R190, R192).
-/

namespace Sys2Proof.Machine

/-- The 64-bit intermediate `t` of the inner pass never overflows: t < 2^63 (R190). -/
theorem mulWord_toNat (a b p : Limb) {c : Wide} (hc : c.toNat < 2 ^ 31) :
    (a.setWidth 64 * b.setWidth 64 + p.setWidth 64 + c).toNat = a.toNat * b.toNat + p.toNat + c.toNat ∧
    a.toNat * b.toNat + p.toNat + c.toNat < 2 ^ 62 := by
  have ha : a.toNat ≤ 2147483647 := by have := a.isLt; omega
  have hb : b.toNat ≤ 2147483647 := by have := b.isLt; omega
  have hp := p.isLt
  have hab : a.toNat * b.toNat ≤ 2147483647 * 2147483647 := Nat.mul_le_mul ha hb
  simp only [BitVec.toNat_add, BitVec.toNat_mul, BitVec.toNat_setWidth]
  rw [Nat.mod_eq_of_lt (by omega : a.toNat < 2 ^ 64), Nat.mod_eq_of_lt (by omega : b.toNat < 2 ^ 64)]
  omega

/-- The value of one inner pass: the limb times the second operand, plus the slice, plus the carry. -/
theorem mulRow_val (a : Limb) (bs ps : List Limb) {c : Wide} (hl : ps.length = bs.length) (hc : c.toNat < 2 ^ 31) :
    limbsVal (mulRow a bs ps c) = a.toNat * limbsVal bs + limbsVal ps + c.toNat := by
  induction bs generalizing ps c with
  | nil =>
    obtain rfl := List.length_eq_zero_iff.mp hl
    simp only [mulRow, limbsVal_cons, low_limb_toNat, limbsVal_nil]
    omega
  | cons b bs ih =>
    obtain _ | ⟨p, ps⟩ := ps
    · simp at hl
    obtain ⟨ht, hb⟩ := mulWord_toNat a b p hc
    have hc' : ((a.setWidth 64 * b.setWidth 64 + p.setWidth 64 + c) >>> 31).toNat < 2 ^ 31 := by
      rw [BitVec.toNat_ushiftRight, ht, Nat.shiftRight_eq_div_pow]; omega
    simp only [mulRow, limbsVal_cons, ih ps (by simpa using hl) hc', low_limb_toNat]
    rw [BitVec.toNat_ushiftRight, ht, Nat.shiftRight_eq_div_pow]
    have := Nat.mod_add_div (a.toNat * b.toNat + p.toNat + c.toNat) 2147483648
    simp only [Nat.reducePow]
    linarith

theorem mulRow_length (a : Limb) (bs ps : List Limb) (c : Wide) (hl : ps.length = bs.length) :
    (mulRow a bs ps c).length = bs.length + 1 := by
  induction bs generalizing ps c with
  | nil => obtain rfl := List.length_eq_zero_iff.mp hl; rfl
  | cons b bs ih =>
    obtain _ | ⟨p, ps⟩ := ps
    · simp at hl
    · simp [mulRow, ih ps _ (by simpa using hl)]

theorem mulLoop_val (Bv A slice : List Limb) (hl : slice.length = Bv.length) :
    limbsVal (mulLoop Bv A slice) = limbsVal A * limbsVal Bv + limbsVal slice := by
  induction A generalizing slice with
  | nil => simp [mulLoop]
  | cons a as ih =>
    have hv := mulRow_val a Bv slice (c := 0) hl (by simp)
    have hn := mulRow_length a Bv slice 0 hl
    unfold mulLoop
    split
    · next h => rw [h] at hn; simp at hn
    · next p ps h =>
      rw [h] at hv hn
      rw [limbsVal_cons, ih ps (by simpa using hn), limbsVal_cons]
      rw [show (0 : Wide).toNat = 0 from rfl, limbsVal_cons, add_zero] at hv
      linarith

/-- `mul_mag` multiplies the magnitudes (R190). -/
theorem mulMag_val (A Bv : List Limb) : limbsVal (mulMag A Bv) = limbsVal A * limbsVal Bv := by
  rw [mulMag, trimOne_val, mulLoop_val _ _ _ (by simp), limbsVal_replicate_zero, add_zero]

/-- MUL's value is exactly a * b (R192). -/
theorem signedMul_eq (a b : Operand) : signedMul a b = a.val * b.val := by
  unfold signedMul
  split
  · next h => rcases h with h | h <;> simp [Operand.val, h]
  · rw [mulMag_val]
    cases ha : a.neg <;> cases hb : b.neg <;> simp [Operand.val, Operand.mag, ha, hb]

end Sys2Proof.Machine
end

