-- ==== Sys2Proof/Laws/PowerRoot.lean ====
section
/-!
SUPPORT. The laws of the power and root datapaths: `pow_core` is the power, the digit algorithms keep their
invariants, and Newton's iteration ends at the floor root (spec/44_power_root.md R250-R257).
-/

namespace Sys2Proof.Machine

/-! ## pow_core (R250) -/

theorem powLoop_eq (f : Nat) (r s : Int) (e : Nat) (h : e < 2 ^ f) : powLoop f r s e = r * s ^ e := by
  induction f generalizing r s e with
  | zero => obtain rfl : e = 0 := by omega
            simp [powLoop]
  | succ f ih =>
    unfold powLoop
    split
    · next h0 => subst h0; simp
    · next h0 =>
      rw [ih _ _ _ (by rw [pow_succ] at h; omega)]
      have he : e = 2 * (e / 2) + e % 2 := (Nat.div_add_mod e 2).symm
      have hs : (if e / 2 > 0 then s * s else s) ^ (e / 2) = s ^ (2 * (e / 2)) := by
        split
        · rw [pow_mul, sq]
        · next h2 => rw [show e / 2 = 0 by omega]
      rw [hs]
      conv_rhs => rw [he, pow_add]
      split
      · next h1 => rw [h1]; ring
      · next h1 => rw [show e % 2 = 0 by omega]; ring

/-- "r = x^n" (R250). -/
theorem powCore_eq {x : Int} {n : Nat} (h : n < 2 ^ 32) : powCore x n = x ^ n := by
  rw [powCore, powLoop_eq _ _ _ _ h, one_mul]

/-- The early decision of POW is sound: the power reaches B^CAP (R251). -/
theorem powOverflows_sound {cap m n : Nat} (hc : 0 < cap) (h : powOverflows cap m n = true) : 2 ^ (31 * cap) ≤ m ^ n := by
  rw [powOverflows, decide_eq_true_iff] at h
  by_cases hm : m = 0
  · subst hm
    simp at h
    omega
  · calc 2 ^ (31 * cap) ≤ 2 ^ ((bitlen m - 1) * n) := Nat.pow_le_pow_right (by norm_num) h
      _ = (2 ^ (bitlen m - 1)) ^ n := by rw [pow_mul]
      _ ≤ m ^ n := Nat.pow_le_pow_left (two_pow_bitlen_sub_le hm) n

/-! ## sqrt_core (R252) -/

theorem ceilDiv_mul_ge (m : Nat) {k : Nat} (h : 0 < k) : m ≤ ceilDiv m k * k := by
  have := Nat.lt_mul_div_succ (m + k - 1) h
  unfold ceilDiv
  rw [Nat.mul_add, mul_one, mul_comm] at this
  omega

/-- One digit of base b more: floor(N / b^p) from floor(N / b^(p+1)). -/
theorem next_digit (N b p : Nat) : N / b ^ p = b * (N / b ^ (p + 1)) + N / b ^ p % b := by
  rw [pow_succ, ← Nat.div_div_eq_div_mul]
  exact (Nat.div_add_mod _ _).symm

/-- "After the step for p, res^2 + rem = floor(N / 4^p) and 0 ≤ rem ≤ 2*res" (R252). -/
theorem sqrtLoop_spec {N : Nat} (p res rem : Nat) (h : res ^ 2 + rem = N / 4 ^ p) (hr : rem ≤ 2 * res) :
    (sqrtLoop N p (res, rem)).1 ^ 2 + (sqrtLoop N p (res, rem)).2 = N ∧
    (sqrtLoop N p (res, rem)).2 ≤ 2 * (sqrtLoop N p (res, rem)).1 := by
  induction p generalizing res rem with
  | zero => exact ⟨by simpa [sqrtLoop] using h, hr⟩
  | succ p ih =>
    have hd := next_digit N 4 p
    have hb : N >>> (2 * p) % 4 = N / 4 ^ p % 4 := by
      rw [Nat.shiftRight_eq_div_pow, pow_mul, show (2 : Nat) ^ 2 = 4 by norm_num]
    have hlt : N / 4 ^ p % 4 < 4 := Nat.mod_lt _ (by norm_num)
    rw [← h] at hd
    simp only [sqrtLoop, hb]
    generalize N / 4 ^ p % 4 = b at *
    split
    · next hge =>
      refine ih _ _ ?_ (by omega)
      rw [hd]
      have : (2 * res + 1) ^ 2 = 4 * res ^ 2 + (4 * res + 1) := by ring
      omega
    · next hlt' =>
      refine ih _ _ ?_ (by omega)
      rw [hd]
      have : (2 * res) ^ 2 = 4 * res ^ 2 := by ring
      omega

theorem sqrtCore_spec (N : Nat) :
    (sqrtCore N).1 ^ 2 + (sqrtCore N).2 = N ∧ (sqrtCore N).2 ≤ 2 * (sqrtCore N).1 := by
  refine sqrtLoop_spec _ 0 0 ?_ le_rfl
  rw [Nat.div_eq_of_lt]
  · rfl
  rw [show (4 : Nat) = 2 ^ 2 by norm_num, ← pow_mul, mul_comm]
  exact lt_of_lt_of_le (lt_two_pow_bitlen N) (Nat.pow_le_pow_right (by norm_num) (ceilDiv_mul_ge _ two_pos))

/-- "At the end res = isqrt(N)" (R252). -/
theorem sqrtCore_isqrt (N : Nat) : (sqrtCore N).1 ^ 2 ≤ N ∧ N < ((sqrtCore N).1 + 1) ^ 2 := by
  obtain ⟨h1, h2⟩ := sqrtCore_spec N
  have : ((sqrtCore N).1 + 1) ^ 2 = (sqrtCore N).1 ^ 2 + 2 * (sqrtCore N).1 + 1 := by ring
  omega

/-! ## cbrt_core (R254) -/

/-- "After the step for p, res^3 + rem = floor(N / 8^p) with rem ≥ 0 and (res+1)^3 > floor(N / 8^p)" (R254). -/
theorem cbrtLoop_spec {N : Nat} (p res rem : Nat) (h : res ^ 3 + rem = N / 8 ^ p)
    (hr : rem ≤ 3 * res ^ 2 + 3 * res) :
    (cbrtLoop N p (res, rem)).1 ^ 3 + (cbrtLoop N p (res, rem)).2 = N ∧
    (cbrtLoop N p (res, rem)).2 ≤ 3 * (cbrtLoop N p (res, rem)).1 ^ 2 + 3 * (cbrtLoop N p (res, rem)).1 := by
  induction p generalizing res rem with
  | zero => exact ⟨by simpa [cbrtLoop] using h, hr⟩
  | succ p ih =>
    have hd := next_digit N 8 p
    have hb : N >>> (3 * p) % 8 = N / 8 ^ p % 8 := by
      rw [Nat.shiftRight_eq_div_pow, pow_mul, show (2 : Nat) ^ 3 = 8 by norm_num]
    have hlt : N / 8 ^ p % 8 < 8 := Nat.mod_lt _ (by norm_num)
    rw [← h] at hd
    have ht : 12 * res * res = 12 * res ^ 2 := by ring
    simp only [cbrtLoop, hb, ht]
    generalize N / 8 ^ p % 8 = b at *
    have e1 : (2 * res + 1) ^ 3 = 8 * res ^ 3 + (12 * res ^ 2 + 6 * res + 1) := by ring
    have e2 : (2 * res + 1) ^ 2 = 4 * res ^ 2 + 4 * res + 1 := by ring
    have e3 : (2 * res) ^ 3 = 8 * res ^ 3 := by ring
    have e4 : (2 * res) ^ 2 = 4 * res ^ 2 := by ring
    split
    · exact ih _ _ (by omega) (by omega)
    · exact ih _ _ (by omega) (by omega)

theorem cbrtCore_spec (N : Nat) :
    (cbrtCore N).1 ^ 3 + (cbrtCore N).2 = N ∧ (cbrtCore N).2 ≤ 3 * (cbrtCore N).1 ^ 2 + 3 * (cbrtCore N).1 := by
  refine cbrtLoop_spec _ 0 0 ?_ (by norm_num)
  rw [Nat.div_eq_of_lt]
  · rfl
  rw [show (8 : Nat) = 2 ^ 3 by norm_num, ← pow_mul, mul_comm]
  exact lt_of_lt_of_le (lt_two_pow_bitlen N) (Nat.pow_le_pow_right (by norm_num) (ceilDiv_mul_ge _ (by norm_num)))

/-- "At the end res = iroot(N, 3)" (R254). -/
theorem cbrtCore_iroot (N : Nat) : (cbrtCore N).1 ^ 3 ≤ N ∧ N < ((cbrtCore N).1 + 1) ^ 3 := by
  obtain ⟨h1, h2⟩ := cbrtCore_spec N
  have : ((cbrtCore N).1 + 1) ^ 3 = (cbrtCore N).1 ^ 3 + 3 * (cbrtCore N).1 ^ 2 + 3 * (cbrtCore N).1 + 1 := by ring
  omega

/-! ## root_core (R256) -/

/-- Newton's iteration, started above the root, stops at the floor root; the bound on the passes is never reached. -/
theorem rootLoop_spec {N n : Nat} (hN : 2 ≤ N) (hn : 2 ≤ n) (f x : Nat) (hx : 1 ≤ x) (hf : x ≤ f)
    (hlt : N < (x + 1) ^ n) : rootLoop N n f x ^ n ≤ N ∧ N < (rootLoop N n f x + 1) ^ n := by
  induction f generalizing x with
  | zero => omega
  | succ f ih =>
    obtain ⟨k, rfl⟩ : ∃ k, n = k + 1 := ⟨n - 1, by omega⟩
    unfold rootLoop
    split
    · next hge =>
      refine ⟨?_, hlt⟩
      rw [ge_iff_le, newtonStep, Nat.add_sub_cancel, Nat.le_div_iff_mul_le (by omega)] at hge
      have hle : x ≤ N / x ^ k := by
        have : x * (k + 1) = k * x + x := by ring
        omega
      rw [Nat.le_div_iff_mul_le (Nat.pow_pos hx)] at hle
      rw [pow_succ, mul_comm]
      exact hle
    · next hlt' =>
      have h2 : 2 ≤ x := by
        by_contra hc
        obtain rfl : x = 1 := by omega
        apply hlt'
        rw [ge_iff_le, newtonStep, Nat.le_div_iff_mul_le (by omega)]
        simp
        omega
      refine ih _ ?_ (by omega) ?_
      · rw [newtonStep, Nat.le_div_iff_mul_le (by omega), Nat.add_sub_cancel]
        have : k * 2 ≤ k * x := Nat.mul_le_mul_left _ h2
        generalize N / x ^ k = i
        omega
      · have := Nat.nthRoot.lt_pow_go_succ_aux (a := N) (b := x) (n := k) (by omega)
        rwa [newtonStep, Nat.add_sub_cancel, add_comm (k * x)]

/-- "The result is iroot(N, n)" (R256). -/
theorem rootCore_iroot {N n : Nat} (hN : 2 ≤ N) (hn : 2 ≤ n) :
    rootCore N n ^ n ≤ N ∧ N < (rootCore N n + 1) ^ n := by
  unfold rootCore
  split
  · next h => exact ⟨by simp; omega, bitlen_le_iff.mp h⟩
  · refine rootLoop_spec hN hn _ _ (Nat.one_le_two_pow) le_rfl ?_
    calc N < 2 ^ bitlen N := lt_two_pow_bitlen N
      _ ≤ 2 ^ (ceilDiv (bitlen N) n * n) := Nat.pow_le_pow_right (by norm_num) (ceilDiv_mul_ge _ (by omega))
      _ = (2 ^ ceilDiv (bitlen N) n) ^ n := by rw [pow_mul]
      _ ≤ (2 ^ ceilDiv (bitlen N) n + 1) ^ n := Nat.pow_le_pow_left (Nat.le_succ _) n

/-! ## Signed roots (R255, R257) -/

/-- What `iroot(|a|, n)` says of a magnitude m: the largest whose n-th power is not above |a| (R7). -/
abbrev isIroot (m A n : Nat) : Prop := m ^ n ≤ A ∧ A < (m + 1) ^ n

/-- The cube root is sign-symmetric (R255). -/
theorem signedCbrt_spec (a : Operand) :
    ∃ m, isIroot m a.mag 3 ∧ signedCbrt a = signed a.neg m := by
  unfold signedCbrt
  split
  · next h => exact ⟨0, by rw [h]; exact ⟨by norm_num, by norm_num⟩, rfl⟩
  · exact ⟨_, cbrtCore_iroot _, rfl⟩

/-- The case of R257 in which the root is sgn(a) * iroot(|a|, n). -/
theorem signedRoot_spec {a : Int} {n : Nat} (hn : n ≠ 0) (h : 0 ≤ a ∨ n % 2 = 1) :
    ∃ m, isIroot m a.natAbs n ∧ signedRoot a n = signed (decide (a < 0)) m := by
  unfold signedRoot
  split
  · next h1 => subst h1; exact ⟨a.natAbs, by simp [isIroot], (signed_natAbs a).symm⟩
  · next h1 =>
    split
    · next h0 => subst h0; exact ⟨0, by simp [isIroot, hn], by simp⟩
    · next h0 =>
      rw [if_neg (by omega)]
      refine ⟨_, ?_, rfl⟩
      split
      · next h2 => rw [h2]; exact ⟨by simp, by simpa using Nat.one_lt_two_pow hn⟩
      · exact rootCore_iroot (by omega) (by omega)

/-- "For a < 0 and n even, s = 0" (R257). -/
theorem signedRoot_even {a : Int} {n : Nat} (ha : a < 0) (he : n % 2 = 0) : signedRoot a n = 0 := by
  unfold signedRoot
  rw [if_neg (by omega), if_neg (by omega), if_pos ⟨ha, he⟩]

end Sys2Proof.Machine
end

