-- ==== Sys2Proof/Laws/Step.lean ====
section
/-!
SUPPORT. The laws of the step: which input it takes, and what the MPID's turn does with the pending command.
-/

namespace Sys2Proof.Machine

theorem step_of_no_input {s : State} (h : s.inputs = []) : step s = mpidTurn s := by simp [step, h]

theorem step_of_input {s : State} {i : Input} {rest : List Input} (h : s.inputs = i :: rest) :
    step s = takeInput { s with inputs := rest } i := by simp [step, h]

/-- With no command pending the MPID is idle. -/
theorem mpidTurn_idle {s : State} (h : s.pending = none) : mpidTurn s = .next s := by simp [mpidTurn, h]

/-- A pending word that decodes is executed (spec/60_exceptions.md R311). -/
theorem mpidTurn_exec {s : State} {p : Pending} {i : Instr} (h : s.pending = some p) (hd : decode p.word = .ok i) :
    mpidTurn s = exec i s := by simp [mpidTurn, h, hd]

/-- A pending word that does not decode completes with ILLEGAL (R302). -/
theorem mpidTurn_illegal {s : State} {p : Pending} {e : IllegalReason} (h : s.pending = some p)
    (hd : decode p.word = .error e) : mpidTurn s = .next (s.complete .illegal) := by
  simp [mpidTurn, h, hd, raiseFault]

/-- Everything the MPID's turn can do. -/
theorem mpidTurn_cases (s : State) :
    (s.pending = none ∧ mpidTurn s = .next s) ∨
    (∃ p i, s.pending = some p ∧ decode p.word = .ok i ∧ mpidTurn s = exec i s) ∨
    (∃ p e, s.pending = some p ∧ decode p.word = .error e ∧ mpidTurn s = .next (s.complete .illegal)) := by
  cases hp : s.pending with
  | none => exact .inl ⟨rfl, mpidTurn_idle hp⟩
  | some p =>
    cases hd : decode p.word with
    | ok i => exact .inr (.inl ⟨p, i, rfl, hd, mpidTurn_exec hp hd⟩)
    | error e => exact .inr (.inr ⟨p, e, rfl, hd, mpidTurn_illegal hp hd⟩)

/-! ## Scalars -/

theorem State.scalar0_of_pending {s : State} {p : Pending} (h : s.pending = some p) : s.scalar0 = p.arg0 := by
  simp [State.scalar0, h]

theorem State.scalar1_of_pending {s : State} {p : Pending} (h : s.pending = some p) : s.scalar1 = p.arg1 := by
  simp [State.scalar1, h]

theorem State.count_lt (s : State) : s.count < 2 ^ 32 := s.scalar0.isLt

/-- A run whose first step answers a next state goes on from that state. -/
theorem run_succ {s t : State} (k : Nat) (h : step s = .next t) : core.run (k + 1) s = core.run k t := by
  have h' : core.step s = .next t := h
  simp only [Host.Core.run, h']

end Sys2Proof.Machine
end

