-- ==== Sys2Proof/Laws/Exec.lean ====
section
/-!
SUPPORT. What any command can do, said once: it ends with a fault's code and nothing else changed, or it commits:
normal forms of integers that fit to its destinations, RESULT and DZ where its row allows, and ends without fault.
-/

namespace Sys2Proof.Machine

/-- What a command that succeeds has done to the state before its completion writes the status. -/
structure Committed (i : Instr) (s t : State) : Prop where
  frame : s.FrameOf i t
  dest : s.cfg.wf → ∀ d ∈ i.dests, ∃ z : Int, fits s.cfg.cap z = true ∧ t.readV d = norm s.cfg.cap z
  dz_kept : s.dz = true → t.dz = true
  err : t.err = s.err

theorem State.FrameOf.refl (i : Instr) (s : State) : s.FrameOf i s :=
  ⟨rfl, fun _ _ => rfl, fun _ => rfl, fun _ => rfl, rfl, rfl, rfl, rfl, rfl, rfl, rfl, rfl⟩

/-- Completing changes nothing that a frame speaks of. -/
theorem State.FrameOf.complete {i : Instr} {s t : State} (h : s.FrameOf i t) (c : ECode) : s.FrameOf i (t.complete c) :=
  ⟨h.cfg, h.registers, h.result, h.dz, h.arg0, h.arg1, h.cmd, h.ie, h.ovr, h.rsp, h.draws, h.inputs⟩

/-- One destination written. -/
theorem Committed.one {i : Instr} {s : State} {rd : Reg} {z : Int} (hd : i.dests = [rd]) (hz : s.cfg.wf → fits s.cfg.cap z = true) :
    Committed i s (s.writeV rd z) where
  frame := ⟨rfl, fun j hj => by
    rw [hd, List.mem_singleton] at hj
    exact State.readV_writeV_ne s z fun h => hj h.symm, fun _ => rfl, fun _ => rfl, rfl, rfl, rfl, rfl, rfl, rfl, rfl, rfl⟩
  dest hc d h := by
    rw [hd, List.mem_singleton] at h
    subst h
    exact ⟨z, hz hc, State.readV_writeV_self s d z⟩
  dz_kept h := h
  err := rfl

/-- Two destinations written, one after the other. -/
theorem Committed.two {i : Instr} {s : State} {rd rd2 : Reg} {y z : Int} (hd : i.dests = [rd, rd2]) (hne : rd ≠ rd2)
    (hy : fits s.cfg.cap y = true) (hz : fits s.cfg.cap z = true) :
    Committed i s ((s.writeV rd y).writeV rd2 z) where
  frame := ⟨rfl, fun j hj => by
    simp only [hd, List.mem_cons, List.not_mem_nil, or_false, not_or] at hj
    rw [State.readV_writeV_ne _ z fun h => hj.2 h.symm, State.readV_writeV_ne s y fun h => hj.1 h.symm],
    fun _ => rfl, fun _ => rfl, rfl, rfl, rfl, rfl, rfl, rfl, rfl, rfl⟩
  dest hc d h := by
    simp only [hd, List.mem_cons, List.not_mem_nil, or_false] at h
    by_cases h2 : d = rd2
    · subst h2
      exact ⟨z, hz, State.readV_writeV_self _ d z⟩
    · obtain rfl := h.resolve_right h2
      exact ⟨y, hy, by rw [State.readV_writeV_ne _ z hne.symm, State.readV_writeV_self]⟩
  dz_kept h := h
  err := rfl

/-- RESULT written as well. -/
theorem Committed.writeResult {i : Instr} {s t : State} (h : Committed i s t) (hr : i.writesResult = true) (w : Word) :
    Committed i s (t.writeResult w) where
  frame := ⟨h.frame.cfg, h.frame.registers, by simp [hr], h.frame.dz, h.frame.arg0, h.frame.arg1, h.frame.cmd,
    h.frame.ie, h.frame.ovr, h.frame.rsp, h.frame.draws, h.frame.inputs⟩
  dest := h.dest
  dz_kept := h.dz_kept
  err := h.err

/-- DZ set as well. -/
theorem Committed.setDz {i : Instr} {s t : State} (h : Committed i s t) (hr : i.mayDivideByZero = true) :
    Committed i s t.setDz where
  frame := ⟨h.frame.cfg, h.frame.registers, h.frame.result, by simp [hr], h.frame.arg0, h.frame.arg1, h.frame.cmd,
    h.frame.ie, h.frame.ovr, h.frame.rsp, h.frame.draws, h.frame.inputs⟩
  dest := h.dest
  dz_kept _ := rfl
  err := h.err

/-- No destination. -/
theorem Committed.none {i : Instr} {s : State} (hd : i.dests = []) : Committed i s s where
  frame := .refl i s
  dest := by simp [hd]
  dz_kept h := h
  err := rfl

theorem State.fits_val (s : State) (i : Reg) : fits s.cfg.cap (s.val i) = true := VReg.val_fits _ _

theorem State.natAbs_val (s : State) (i : Reg) : (s.operand i).mag = (s.val i).natAbs := State.operand_mag s i

/-- How a command can end. -/
abbrev Ends (i : Instr) (s : State) (r : Result) : Prop :=
  (∃ c, c ≠ .ok ∧ c ≠ .illegal ∧ r = .next (s.complete c)) ∨ (∃ t, Committed i s t ∧ r = .next (t.complete .ok))

theorem Ends.fault {i : Instr} {s : State} {c : ECode} (h : c ≠ .ok) (h' : c ≠ .illegal) : Ends i s (raiseFault s c) :=
  .inl ⟨c, h, h', rfl⟩

theorem Ends.succeed {i : Instr} {s t : State} (h : Committed i s t) : Ends i s (succeed t) := .inr ⟨t, h, rfl⟩

theorem Ends.fitting {i : Instr} {s : State} {rd : Reg} (hd : i.dests = [rd]) (z : Int) :
    Ends i s (commitFitting s rd z) := by
  unfold commitFitting
  split
  · exact .succeed (.one hd fun _ => ‹_›)
  · exact .fault (by decide) (by decide)

theorem Ends.source {i : Instr} {s : State} {rs1 : Reg} {k : Operand → Result} (h : s.validReg rs1 = true → Ends i s (k (s.operand rs1))) :
    Ends i s (withSource s rs1 k) := by
  unfold withSource
  split
  · exact h ‹_›
  · exact .fault (by decide) (by decide)

theorem Ends.sources {i : Instr} {s : State} {rs1 rs2 : Reg} {k : Operand → Operand → Result}
    (h : s.validReg rs1 = true → s.validReg rs2 = true → Ends i s (k (s.operand rs1) (s.operand rs2))) : Ends i s (withSources s rs1 rs2 k) :=
  .source fun h1 => .source (h h1)

theorem Ends.distinct {i : Instr} {s : State} {rd rd2 : Reg} {k : Result} (h : rd ≠ rd2 → Ends i s k) :
    Ends i s (withDistinct s rd rd2 k) := by
  unfold withDistinct
  split
  · exact .fault (by decide) (by decide)
  · exact h ‹_›

/-- DIV and DIVX commit with whatever quotient and remainder are not above the dividend's magnitude. -/
theorem Ends.division {i : Instr} {s : State} {rd rd2 rs1 : Reg} {y : Int} {qr : Nat × Nat}
    (hd : i.dests = [rd, rd2]) (hz : i.mayDivideByZero = true) (hne : rd ≠ rd2)
    (hqr : y ≠ 0 → qr = ((s.val rs1).natAbs / y.natAbs, (s.val rs1).natAbs % y.natAbs)) :
    Ends i s (commitDivision s rd rd2 (s.val rs1) y qr) := by
  unfold commitDivision
  split
  · exact .succeed ((Committed.two hd hne (fits_sentinel _) (s.fits_val rs1)).setDz hz)
  · rw [hqr ‹_›]
    refine .succeed (.two hd hne (fits_of_natAbs_le ?_ (s.fits_val rs1)) (fits_of_natAbs_le ?_ (s.fits_val rs1))) <;>
      simp only [signedQuotRem, natAbs_signed]
    · exact Nat.div_le_self _ _
    · exact Nat.mod_le _ _

/-- The value that a root's remainder subtracts is not above the radicand's magnitude, and has its sign. -/
theorem natAbs_sub_le {a x : Int} (h : (0 ≤ x ∧ x ≤ a) ∨ (a ≤ x ∧ x ≤ 0)) : (a - x).natAbs ≤ a.natAbs := by omega

theorem natAbs_le_pow_natAbs {x : Int} {n : Nat} (hn : n ≠ 0) : x.natAbs ≤ (x ^ n).natAbs := by
  rw [Int.natAbs_pow]; exact Nat.le_self_pow hn _

/-- A signed power of odd degree, or of any degree of a magnitude, lies between 0 and the radicand. -/
theorem signed_pow_between {a : Int} {m n : Nat} (hp : 0 ≤ a ∨ n % 2 = 1) (hm : m ^ n ≤ a.natAbs) :
    let x := signed (decide (a < 0)) m
    (0 ≤ x ^ n ∧ x ^ n ≤ a) ∨ (a ≤ x ^ n ∧ x ^ n ≤ 0) := by
  intro x
  have hm' : ((m : Int) ^ n) ≤ a.natAbs := by exact_mod_cast hm
  by_cases h : a < 0
  · have ho : Odd n := Nat.odd_iff.mpr (hp.resolve_left (by omega))
    simp only [x, h, decide_true, signed_true, ho.neg_pow]
    right
    have := pow_nonneg (Int.natCast_nonneg m) n
    omega
  · simp only [x, h, decide_false, signed_false]
    left
    exact ⟨pow_nonneg (Int.natCast_nonneg m) n, by omega⟩

/-- The root that ROOT writes and what it leaves fit. -/
theorem signedRoot_fits {cap : Nat} {a : Int} {n : Nat} (hn : n ≠ 0) (ha : fits cap a = true) :
    fits cap (signedRoot a n) = true ∧ fits cap (a - signedRoot a n ^ n) = true := by
  have key : (0 ≤ signedRoot a n ^ n ∧ signedRoot a n ^ n ≤ a) ∨ (a ≤ signedRoot a n ^ n ∧ signedRoot a n ^ n ≤ 0) := by
    by_cases h : 0 ≤ a ∨ n % 2 = 1
    · obtain ⟨m, hm, he⟩ := signedRoot_spec hn h
      rw [he]
      exact signed_pow_between h hm.1
    · rw [signedRoot_even (by omega) (by omega), zero_pow hn]
      right; omega
  refine ⟨fits_of_natAbs_le (le_trans (natAbs_le_pow_natAbs hn) ?_) ha, fits_of_natAbs_le (natAbs_sub_le key) ha⟩
  omega

/-- The root that CBRT writes and what it leaves fit. -/
theorem signedCbrt_fits {cap : Nat} {a : Operand} (hs : a.neg = decide (a.val < 0)) (ha : fits cap a.val = true) :
    fits cap (signedCbrt a) = true ∧ fits cap (a.val - signedCbrt a ^ 3) = true := by
  obtain ⟨m, hm, he⟩ := signedCbrt_spec a
  have hmag : a.mag = a.val.natAbs := by simp [Operand.val]
  have key := signed_pow_between (a := a.val) (n := 3) (.inr rfl) (hmag ▸ hm.1)
  rw [← hs] at key
  rw [he]
  refine ⟨fits_of_natAbs_le (le_trans (natAbs_le_pow_natAbs (n := 3) (by decide)) ?_) ha,
    fits_of_natAbs_le (natAbs_sub_le key) ha⟩
  simp only at key
  omega

/-- An immediate fits in three limbs, so in every register (spec/40_limb_and_adder.md R133). -/
theorem fits_imm64 {cap : Nat} (hc : 3 ≤ cap) (x : BitVec 64) : fits cap x.toInt = true := by
  rw [fits_iff]
  have h1 : x.toInt.natAbs ≤ 2 ^ 63 := by
    have := BitVec.le_toInt x
    have := BitVec.toInt_lt (x := x)
    omega
  exact lt_of_le_of_lt h1 (Nat.pow_lt_pow_right (by norm_num) (by omega))

/-- How every command ends (spec/60_exceptions.md R300, R309, R312). -/
theorem exec_ends (i : Instr) (s : State) : Ends i s (exec i s) := by
  cases i with
  | nop =>
    simp only [exec, execNop]
    exact .succeed (.none rfl)
  | mov rd rs1 =>
    simp only [exec, execMov]
    exact .source fun _ => .succeed (.one rfl fun _ => s.fits_val rs1)
  | ldi rd =>
    simp only [exec, execLdi]
    exact .succeed (.one rfl fun hc => fits_imm64 hc.1 _)
  | add rd rs1 rs2 =>
    simp only [exec, execAdd]
    exact .sources fun _ _ => .fitting rfl _
  | sub rd rs1 rs2 =>
    simp only [exec, execSub]
    exact .sources fun _ _ => .fitting rfl _
  | cmp rs1 rs2 =>
    simp only [exec, execCmp]
    exact .sources fun _ _ => .succeed ((Committed.none rfl).writeResult rfl _)
  | cmpm rs1 rs2 =>
    simp only [exec, execCmpm]
    exact .sources fun _ _ => .succeed ((Committed.none rfl).writeResult rfl _)
  | bits rs1 =>
    simp only [exec, execBits]
    exact .source fun _ => .succeed ((Committed.none rfl).writeResult rfl _)
  | shl rd rs1 =>
    simp only [exec, execShl]
    refine .source fun _ => ?_
    split
    · exact .succeed (.one rfl fun _ => fits_zero _)
    · split
      · exact .fault (by decide) (by decide)
      · exact .fitting rfl _
  | shr rd rs1 =>
    simp only [exec, execShr]
    refine .source fun _ => .succeed (.one rfl fun _ => fits_of_natAbs_le ?_ (s.fits_val rs1))
    rw [shrMag_val, natAbs_signed, ← s.natAbs_val rs1]
    exact Nat.div_le_self _ _
  | mul rd rs1 rs2 =>
    simp only [exec, execMul]
    exact .sources fun _ _ => .fitting rfl _
  | div rd rd2 rs1 rs2 =>
    simp only [exec, execDiv]
    refine .distinct fun hne => .sources fun _ _ => .division rfl rfl hne fun hy => ?_
    rw [divMag_eq (by rw [s.natAbs_val]; exact Int.natAbs_pos.mpr hy), s.natAbs_val, s.natAbs_val]; rfl
  | diva rd rs1 rs2 =>
    simp only [exec, execDiva]
    refine .sources fun _ _ => ?_
    split
    · exact .succeed ((Committed.one rfl fun _ => fits_sentinel _).setDz rfl)
    · rename_i hy
      refine .succeed (.one rfl fun _ => fits_of_natAbs_le ?_ (s.fits_val rs1))
      rw [natAbs_signed, ← s.natAbs_val rs1]
      exact le_trans (estimate_le _ (by rw [s.natAbs_val]; exact Int.natAbs_pos.mpr hy)) (Nat.div_le_self _ _)
  | divx rd rd2 rs1 rs2 =>
    simp only [exec, execDivx]
    refine .distinct fun hne => .sources fun _ _ => .division rfl rfl hne fun hy => ?_
    have h : 0 < (s.operand rs2).mag := by rw [s.natAbs_val]; exact Int.natAbs_pos.mpr hy
    rw [divxMag_eq _ h, divMag_eq h, s.natAbs_val, s.natAbs_val]; rfl
  | remove rd rs1 rs2 =>
    simp only [exec, execRemove]
    refine .sources fun _ _ => ?_
    split
    · exact .succeed (((Committed.one rfl fun _ => s.fits_val rs1).writeResult rfl _).setDz rfl)
    · exact .succeed ((Committed.one rfl fun _ =>
        fits_of_natAbs_le (removeFactor_natAbs_le ‹_›) (s.fits_val rs1)).writeResult rfl _)
  | pow rd rs1 =>
    simp only [exec, execPow]
    refine .source fun _ => ?_
    split
    · exact .fault (by decide) (by decide)
    · exact .fitting rfl _
  | sqrt rd rd2 rs1 =>
    simp only [exec, execSqrt]
    refine .distinct fun hne => .source fun _ => ?_
    split
    · exact .succeed (.two rfl hne (fits_zero _) (s.fits_val rs1))
    · have h := sqrtCore_spec (s.operand rs1).mag
      have hm := s.natAbs_val rs1
      have := Nat.le_self_pow (n := 2) (by decide) (sqrtCore (s.operand rs1).mag).1
      refine .succeed (.two rfl hne (fits_of_natAbs_le ?_ (s.fits_val rs1)) (fits_of_natAbs_le ?_ (s.fits_val rs1))) <;>
        rw [Int.natAbs_natCast] <;> omega
  | cbrt rd rd2 rs1 =>
    simp only [exec, execCbrt]
    refine .distinct fun hne => .source fun hv => ?_
    have h := signedCbrt_fits (State.operand_ok hv).sign (s.fits_val rs1)
    exact .succeed (.two rfl hne h.1 h.2)
  | root rd rd2 rs1 =>
    simp only [exec, execRoot]
    refine .distinct fun hne => .source fun _ => ?_
    split
    · exact .fault (by decide) (by decide)
    · have h := signedRoot_fits ‹_› (s.fits_val rs1)
      refine .succeed (.two rfl hne h.1 ?_)
      rw [powCore_eq s.count_lt]
      exact h.2

end Sys2Proof.Machine
end

