-- ==== Sys2Proof/Laws/LimbBuffer.lean ====
section
/-!
SUPPORT. The bit count of spec/40_limb_and_adder.md R142 is the bit length of the magnitude.
-/

namespace Sys2Proof.Machine

/-- Adding what lies below a block of bits does not change the bit length above it. -/
theorem bitlen_add_mul_two_pow {l t k : Nat} (hl : l < 2 ^ k) (ht : t ≠ 0) :
    bitlen (l + 2 ^ k * t) = bitlen t + k := by
  have h1 := two_pow_bitlen_sub_le ht
  have h2 := lt_two_pow_bitlen t
  have hp := bitlen_pos ht
  have e : bitlen t + k = (bitlen t - 1 + k) + 1 := by omega
  rw [e]
  apply bitlen_unique
  · rw [pow_add]
    nlinarith [Nat.two_pow_pos k]
  · rw [← e, pow_add]
    nlinarith [Nat.two_pow_pos k]

/-- R142: the top limb's bit length plus 31 for every limb below it is the bit length of the whole. -/
theorem countBits_eq {A : List Limb} (h : normalLimbs A) : countBits A = bitlen (limbsVal A) := by
  unfold countBits
  rcases List.eq_nil_or_concat A with rfl | ⟨L, b, rfl⟩
  · simp
  · have htop : limbAt (L ++ [b]) L.length = b := by
      simp [limbAt]
    rw [List.concat_eq_append] at h ⊢
    simp only [normalLimbs, List.length_append, List.length_singleton, Nat.add_sub_cancel] at h ⊢
    rw [htop] at h ⊢
    have hb : b.toNat ≠ 0 := fun h0 => h.resolve_left (by omega) (BitVec.eq_of_toNat_eq (by simpa using h0))
    rw [if_neg (by omega), limbsVal_append]
    simp only [limbsVal_cons, limbsVal_nil, Nat.mul_zero, Nat.add_zero]
    rw [bitlen_add_mul_two_pow (limbsVal_lt L) hb]

end Sys2Proof.Machine
end

