-- ==== Sys2Proof/Laws/PerInstr.lean ====
section
/-!
SUPPORT. Laws stated per command. RowMatches: the word of every command is accepted by a row of the opcode map that has
the command's format and makes the command again from the word's fields (spec/30_encoding.md R105, R107).
-/

namespace Sys2Proof.Laws.RowMatches

/-- Row `k` of the opcode map has the command's format, accepts its word, and rebuilds it from its fields. -/
def At (k : Nat) (i : Instr) : Prop :=
  ∃ r, opcodeMap[k]? = some r ∧ r.format = i.format ∧ r.accepts (encode i) = true ∧
    r.make (rdField (encode i)) (rd2Field (encode i)) (rs1Field (encode i)) (rs2Field (encode i)) = i

/-- Some row does. -/
def Statement (i : Instr) : Prop := ∃ k, At k i

theorem at_of {k : Nat} {i : Instr} {r : Row} (hr : opcodeMap[k]? = some r) (hf : r.format = i.format)
    (ho : r.op = opField (encode i))
    (hm : r.make (rdField (encode i)) (rd2Field (encode i)) (rs1Field (encode i)) (rs2Field (encode i)) = i) :
    Statement i :=
  ⟨k, r, hr, hf, by rw [Row.accepts, Row.mask, hf, encode_and_mask, Row.matchWord, ho]; exact beq_self_eq_true _, hm⟩

theorem nop : Statement .nop := at_of (k := 0) rfl rfl (by simp [encode]) (by simp)
theorem mov (rd rs1 : Reg) : Statement (.mov rd rs1) := at_of (k := 1) rfl rfl (by simp [encode]) (by simp [encode])
theorem ldi (rd : Reg) : Statement (.ldi rd) := at_of (k := 2) rfl rfl (by simp [encode]) (by simp [encode])
theorem add (rd rs1 rs2 : Reg) : Statement (.add rd rs1 rs2) :=
  at_of (k := 3) rfl rfl (by simp [encode]) (by simp [encode])
theorem sub (rd rs1 rs2 : Reg) : Statement (.sub rd rs1 rs2) :=
  at_of (k := 4) rfl rfl (by simp [encode]) (by simp [encode])
theorem cmp (rs1 rs2 : Reg) : Statement (.cmp rs1 rs2) := at_of (k := 5) rfl rfl (by simp [encode]) (by simp [encode])
theorem cmpm (rs1 rs2 : Reg) : Statement (.cmpm rs1 rs2) :=
  at_of (k := 6) rfl rfl (by simp [encode]) (by simp [encode])
theorem bits (rs1 : Reg) : Statement (.bits rs1) := at_of (k := 7) rfl rfl (by simp [encode]) (by simp [encode])
theorem shl (rd rs1 : Reg) : Statement (.shl rd rs1) := at_of (k := 8) rfl rfl (by simp [encode]) (by simp [encode])
theorem shr (rd rs1 : Reg) : Statement (.shr rd rs1) := at_of (k := 9) rfl rfl (by simp [encode]) (by simp [encode])
theorem mul (rd rs1 rs2 : Reg) : Statement (.mul rd rs1 rs2) :=
  at_of (k := 10) rfl rfl (by simp [encode]) (by simp [encode])
theorem div (rd rd2 rs1 rs2 : Reg) : Statement (.div rd rd2 rs1 rs2) :=
  at_of (k := 11) rfl rfl (by simp [encode]) (by simp [encode])
theorem diva (rd rs1 rs2 : Reg) : Statement (.diva rd rs1 rs2) :=
  at_of (k := 12) rfl rfl (by simp [encode]) (by simp [encode])
theorem divx (rd rd2 rs1 rs2 : Reg) : Statement (.divx rd rd2 rs1 rs2) :=
  at_of (k := 13) rfl rfl (by simp [encode]) (by simp [encode])
theorem remove (rd rs1 rs2 : Reg) : Statement (.remove rd rs1 rs2) :=
  at_of (k := 14) rfl rfl (by simp [encode]) (by simp [encode])
theorem pow (rd rs1 : Reg) : Statement (.pow rd rs1) := at_of (k := 15) rfl rfl (by simp [encode]) (by simp [encode])
theorem sqrt (rd rd2 rs1 : Reg) : Statement (.sqrt rd rd2 rs1) :=
  at_of (k := 16) rfl rfl (by simp [encode]) (by simp [encode])
theorem cbrt (rd rd2 rs1 : Reg) : Statement (.cbrt rd rd2 rs1) :=
  at_of (k := 17) rfl rfl (by simp [encode]) (by simp [encode])
theorem root (rd rd2 rs1 : Reg) : Statement (.root rd rd2 rs1) :=
  at_of (k := 18) rfl rfl (by simp [encode]) (by simp [encode])

end Sys2Proof.Laws.RowMatches
end

