-- ==== Sys2Proof/Tests/Slice0.lean ====
section
/-!
SUPPORT. Tests. Expected results are those of spec/95_test_vectors.md (named T-...), of the examples of the rules, or
worked out by hand from the encodings of spec/30_encoding.md; then the witnesses: for every obligation that has
hypotheses, a state and operands that meet them, and for its clauses the boundary values.
-/

namespace Sys2Proof.Tests

-- Each theorem is checked before the next is read, so that their kernel evaluations do not all wait in threads.
set_option Elab.async false

open Sys2Proof Sys2Proof.Machine

/-! ## Helpers -/

/-- The next state, if the outcome is one. -/
def nextOf : Result → Option State
  | .next t => some t
  | .fault _ => none
  | .refused _ => none

/-- The reset state with V1 = a, V2 = b, ARG0 = x (default parameters). -/
def loaded (a b : Int) (x : Word) : State := { (State.reset.writeV 1 a).writeV 2 b with arg0 := x }

/-- The reset state of the smallest MPID, CAP = 3. -/
def tiny : State := State.resetWith { cap := 3, estimator := .estRef }

/-- `tiny` with V1 = a, V2 = b, ARG0 = x, ARG1 = y. -/
def small (a b : Int) (x y : Word) : State := { (tiny.writeV 1 a).writeV 2 b with arg0 := x, arg1 := y }

/-- The state after the command word `w` has run as the next command. -/
def ran (w : Nat) (s : State) : Option State := nextOf (step (s.withFetchWord 32 w))

/-- The value of register `i`, RESULT and STATUS after it. -/
def seen (w : Nat) (s : State) (i : Reg) : Option (Int × Word × Word) :=
  (ran w s).map fun t => (t.val i, t.result, t.statusWord)

/-- The header and the first three limb words of V3, as the host reads them (CAP = 3). -/
def words (w : Nat) (s : State) : Option (List Word) :=
  (ran w s).map fun t => [0, 4, 8, 12].map fun k => t.wordAt (windowBase 3 3 + k)

/-- STATUS after a command. -/
def status (w : Nat) (s : State) : Option Word := (ran w s).map State.statusWord

/-- What a read answers after a write with byte enables `be`. -/
def writeRead (s : State) (off : Nat) (be : BitVec 4) (w : Word) (off' : Nat) : Option Response :=
  (nextOf (busWrite s off be w)).bind fun t => (nextOf (busRead t off' 0xF)).bind fun u => u.rsp

/-- A state with the command word `w` pending. -/
def busyWith (s : State) (w : Word) : State := s.accept w

/-! ## Decoding: words written out from R101, R102, R105 -/

theorem test_decode_moves :
    decode 0x00000000 = .ok .nop ∧ decode 0x0000A901 = .ok (.mov 9 10) ∧ decode 0x00000F02 = .ok (.ldi 15) ∧
    decode 0x00001014 = .ok (.bits 1) := by decide

theorem test_decode_adder :
    decode 0x00021310 = .ok (.add 3 1 2) ∧ decode 0x000CBA11 = .ok (.sub 10 11 12) ∧
    decode 0x00021012 = .ok (.cmp 1 2) ∧ decode 0x000FE013 = .ok (.cmpm 14 15) := by decide

theorem test_decode_shifter :
    decode 0x00001320 = .ok (.shl 3 1) ∧ decode 0x00007621 = .ok (.shr 6 7) := by decide

theorem test_decode_multiplier : decode 0x00021330 = .ok (.mul 3 1 2) := by decide

theorem test_decode_divider :
    decode 0x00521440 = .ok (.div 4 5 1 2) ∧ decode 0x00021341 = .ok (.diva 3 1 2) ∧
    decode 0x00421342 = .ok (.divx 3 4 1 2) ∧ decode 0x00098743 = .ok (.remove 7 8 9) := by decide

theorem test_decode_power_root :
    decode 0x00001350 = .ok (.pow 3 1) ∧ decode 0x00401351 = .ok (.sqrt 3 4 1) ∧
    decode 0x00401352 = .ok (.cbrt 3 4 1) ∧ decode 0x00401353 = .ok (.root 3 4 1) := by decide

/-- T-E1 to T-E6. -/
theorem test_decode_illegal :
    decode 0x00000003 = .error .reservedOpcode ∧ decode 0x01021310 = .error .reservedBits ∧
    decode 0x00000100 = .error .unusedField ∧ decode 0x00121310 = .error .unusedField ∧
    decode 0x00021312 = .error .unusedField ∧ decode 0x00421351 = .error .unusedField := by decide

/-- The example of R109. -/
theorem test_assembler : (Instr.div 4 5 1 2).asm = "DIV v4, v5, v1, v2" := by decide

/-! ## WellFormed: an ill-formed command for each check -/

theorem test_illformed_div : (Instr.div 3 3 1 2).wellFormed = false := by decide
theorem test_illformed_divx : (Instr.divx 0 0 1 2).wellFormed = false := by decide
theorem test_illformed_sqrt : (Instr.sqrt 3 3 1).wellFormed = false := by decide
theorem test_illformed_cbrt : (Instr.cbrt 15 15 1).wellFormed = false := by decide
theorem test_illformed_root : (Instr.root 7 7 7).wellFormed = false := by decide
theorem test_wellformed_alias : (Instr.div 1 2 1 2).wellFormed = true := by decide

/-! ## Commands -/

/-- T-NOP -/
theorem test_nop : status 0x00000000 (small 13 5 0 0) = some 0x2 := by decide +kernel
/-- T-MOV -/
theorem test_mov : words 0x00001301 (small (-5) 0 0 0) = some [0x80000001, 5, 0, 0] := by decide +kernel
/-- T-LDI2 -/
theorem test_ldi_min : words 0x00000302 (small 0 0 0 0x80000000) = some [0x80000003, 0, 0, 2] := by decide +kernel
/-- T-LDI4 -/
theorem test_ldi_unsigned_low : words 0x00000302 (small 0 0 0x80000000 0) = some [0x00000002, 0, 1, 0] := by
  decide +kernel
/-- T-ADD2 -/
theorem test_add_carry : words 0x00021310 (small 2147483647 1 0 0) = some [0x00000002, 0, 1, 0] := by decide +kernel
/-- T-ADD4 -/
theorem test_add_capacity : seen 0x00021310 (loaded (sentinel 63) 1 0) 3 = some (0, 0, 0x506) := by decide +kernel
/-- T-SUB4 -/
theorem test_sub_borrow : words 0x00021311 (small 2147483648 1 0 0) = some [0x00000001, 0x7FFFFFFF, 0, 0] := by
  decide +kernel
/-- T-SUB2 -/
theorem test_sub_negative : seen 0x00021311 (small 5 18 0 0) 3 = some (-13, 0, 0x2) := by decide +kernel
/-- T-CMP3 -/
theorem test_cmp_zero : seen 0x00021012 (small (-5) 0 0 0) 3 = some (0, 0xFFFFFFFF, 0x2) := by decide +kernel
/-- T-CMP4 -/
theorem test_cmp_negative : seen 0x00021012 (small (-3) (-7) 0 0) 3 = some (0, 1, 0x2) := by decide +kernel
/-- T-CMPM1 -/
theorem test_cmpm_sign : seen 0x00021013 (small (-7) 5 0 0) 3 = some (0, 1, 0x2) := by decide +kernel
/-- T-CMPM2 -/
theorem test_cmpm_equal : seen 0x00021013 (small (-5) 5 0 0) 3 = some (0, 0, 0x2) := by decide +kernel
/-- T-BITS6 -/
theorem test_bits_limb : seen 0x00001014 (small 2147483648 0 0 0) 3 = some (0, 32, 0x2) := by decide +kernel
/-- T-BITS7 -/
theorem test_bits_full : seen 0x00001014 (loaded (sentinel 63) 0 0) 3 = some (0, 1953, 0x2) := by decide +kernel
/-- T-SHL2 -/
theorem test_shl_sign : seen 0x00001320 (small (-3) 0 1 0) 3 = some (-6, 0, 0x2) := by decide +kernel
/-- T-SHL6 -/
theorem test_shl_capacity : seen 0x00001320 (loaded 1 0 1953) 3 = some (0, 0, 0x506) := by decide +kernel
/-- T-SHR3 -/
theorem test_shr_toward_zero : seen 0x00001321 (small (-3) 0 1 0) 3 = some (-1, 0, 0x2) := by decide +kernel
/-- T-SHR7 -/
theorem test_shr_limb : words 0x00001321 (small (2 ^ 62 + 2 ^ 31) 0 31 0) = some [0x00000002, 1, 1, 0] := by
  decide +kernel
/-- T-MUL5 -/
theorem test_mul_carry : words 0x00021330 (small 2147483647 2147483647 0 0) = some [0x00000002, 1, 0x7FFFFFFE, 0] := by
  decide +kernel
/-- T-MUL4 -/
theorem test_mul_zero : words 0x00021330 (small 0 (-5) 0 0) = some [0, 0, 0, 0] := by decide +kernel
/-- T-DIV5 -/
theorem test_div_signs : (ran 0x00421340 (small (-7) (-2) 0 0)).map (fun t => (t.val 3, t.val 4)) = some (3, -1) := by
  decide +kernel
/-- T-DIV12 -/
theorem test_div_zero : (ran 0x00421340 (loaded 13 0 0)).map (fun t => (t.val 3, t.val 4, t.statusWord)) =
    some (sentinel 63, 13, 0xA) := by decide +kernel
/-- T-DIVX3 -/
theorem test_divx_passes :
    (ran 0x00421342 (loaded (2 ^ 155 + 12345) (2 ^ 62 + 3) 0)).map (fun t => (t.val 3, t.val 4)) =
    some (9903520314283042192750542848, 19327365177) := by decide +kernel
/-- T-DIVX1 -/
theorem test_divx_sign : (ran 0x00421342 (small (-65) 5 0 0)).map (fun t => (t.val 3, t.val 4)) = some (-13, 0) := by
  decide +kernel
/-- T-DIVA5 -/
theorem test_diva_one_low : seen 0x00021341 (loaded (2 ^ 200 + 1) (2 ^ 100 - 1) 0) 3 = some (2 ^ 100, 0, 0x2) := by
  decide +kernel
/-- T-DIVA2 -/
theorem test_diva_sign : seen 0x00021341 (small (-65) 5 0 0) 3 = some (-13, 0, 0x2) := by decide +kernel
/-- T-REM2 -/
theorem test_remove_sign : seen 0x00021343 (small (-24) 2 0 0) 3 = some (-3, 3, 0x2) := by decide +kernel
/-- T-REM9 -/
theorem test_remove_zero : seen 0x00021343 (small 13 0 0 0) 3 = some (13, 0, 0xA) := by decide +kernel
/-- T-POW5 -/
theorem test_pow_largest_exponent : seen 0x00001350 (small (-1) 0 0xFFFFFFFF 0) 3 = some (-1, 0, 0x2) := by
  decide +kernel
/-- T-POW8 -/
theorem test_pow_capacity : seen 0x00001350 (loaded 2 0 1953) 3 = some (0, 0, 0x506) := by decide +kernel
/-- T-SQ7 -/
theorem test_sqrt_negative : (ran 0x00401351 (small (-9) 0 0 0)).map (fun t => (t.val 3, t.val 4)) = some (0, -9) := by
  decide +kernel
/-- T-SQ9 -/
theorem test_sqrt_in_place : (ran 0x00201151 (small 10 0 0 0)).map (fun t => (t.val 1, t.val 2)) = some (3, 1) := by
  decide +kernel
/-- T-CB4 -/
theorem test_cbrt_negative : (ran 0x00401352 (small (-9) 0 0 0)).map (fun t => (t.val 3, t.val 4)) = some (-2, -1) := by
  decide +kernel
/-- T-RT12 -/
theorem test_root_high_degree :
    (ran 0x00401353 (small (2 ^ 64 + 1) 0 64 0)).map (fun t => (t.val 3, t.val 4)) = some (2, 1) := by decide +kernel
/-- T-RT8 -/
theorem test_root_degree_zero : status 0x00401353 (small 17 0 0 0) = some 0x406 := by decide +kernel

/-! ## Faults (T-E1, T-E7, T-E9 to T-E11, T-E15; T-E12 to T-E14 with the RS2 field 0, log 22) -/

theorem test_illegal_status : status 0x00000003 (small 13 5 0 0) = some 0x106 := by decide +kernel
theorem test_alias_status : status 0x00321340 (small 13 5 0 0) = some 0x206 := by decide +kernel

/-- `tiny` with header word `h` and limbs 0 and 1 of V1 written by the host. -/
def rawV1 (h l0 l1 : Word) : State :=
  tiny.setV 1 ((((tiny.readV 1).withHeader h).withLimb 0 l0).withLimb 1 l1)

theorem test_negative_zero : status 0x00001301 (rawV1 0x80000000 0 0) = some 0x306 := by decide +kernel
theorem test_top_limb_zero : status 0x00001301 (rawV1 0x00000002 5 0) = some 0x306 := by decide +kernel
theorem test_len_above_cap : status 0x00001301 (rawV1 0x00000004 5 5) = some 0x306 := by decide +kernel
theorem test_priority :
    status 0x00301353 (rawV1 0x80000000 0 0) = some 0x206 ∧ status 0x00401353 (rawV1 0x80000000 0 0) = some 0x306 ∧
    status 0x01301353 (rawV1 0x80000000 0 0) = some 0x106 := by decide +kernel
theorem test_err_sticky : ((ran 0x00000003 tiny).bind (ran 0x00021310)).map State.statusWord = some 0x6 := by
  decide +kernel

/-! ## Host notation (R110): LI v3, -5 -/

theorem test_pseudo_li :
    pseudoLi 3 (-5) = [.write 0x010 0xF 0xFFFFFFFB, .write 0x014 0xF 0xFFFFFFFF, .write 0x00C 0xF 0x00000302, .mpid] := by
  decide

/-! ## The bus (T-B1 to T-B12) -/

theorem test_id_ignores_writes : writeRead State.reset 0x000 0xF 0xFFFFFFFF 0x000 = some ⟨0x003F101F, false⟩ := by
  decide +kernel
theorem test_arg0_reads_back : writeRead State.reset 0x010 0xF 7 0x010 = some ⟨7, false⟩ := by decide +kernel
theorem test_arg1_reads_back : writeRead State.reset 0x014 0xF 7 0x014 = some ⟨7, false⟩ := by decide +kernel
theorem test_reserved_reads_zero : writeRead State.reset 0xFFC 0xF 7 0xFFC = some ⟨0, false⟩ := by decide +kernel
theorem test_unaligned_read : nextOf (busRead State.reset 0x002 0xF) = some { State.reset with rsp := some ⟨0, true⟩ } := by
  decide +kernel
theorem test_narrow_write : writeRead State.reset 0x1104 0x3 5 0x1104 = some ⟨0, false⟩ := by decide +kernel
theorem test_limb_bit31 : writeRead State.reset 0x1104 0xF 0xFFFFFFFF 0x1104 = some ⟨0x7FFFFFFF, false⟩ := by
  decide +kernel
theorem test_header_bits : writeRead State.reset 0x1100 0xF 0xFFFFFFFF 0x1100 = some ⟨0x8000FFFF, false⟩ := by
  decide +kernel
theorem test_window_address : (nextOf (busWrite State.reset 0x130C 0xF 7)).map (fun t => limbAt (t.readV 3).limbs 2) =
    some 7 := by decide +kernel
theorem test_soft_reset : writeRead (loaded 1 2 3) 0x004 0xF 3 0x004 = some ⟨0, false⟩ := by decide +kernel
theorem test_result_read_only : writeRead State.reset 0x018 0xF 5 0x018 = some ⟨0, false⟩ := by decide +kernel
theorem test_status_write_one_to_clear :
    ((ran 0x00000003 tiny).bind fun t => nextOf (busWrite t 0x008 0xF 0xFFFFFFFF)).map State.statusWord = some 0x100 := by
  decide +kernel
theorem test_map_of_defaults :
    windowWords 63 = 64 ∧ windowStride 63 = 0x100 ∧ addrBits 63 = 13 ∧ windowBase 63 3 = 0x1300 := by decide

/-! ## Witnesses: states and operands that meet the hypotheses of the obligations -/

/-- A busy machine: V1 = 13, V2 = 5, ADD v3, v1, v2 pending. -/
def busy : State := busyWith (small 13 5 0 0) 0x00021310

theorem witness_EncodeOfDecode : decode 0x00521440 = .ok (.div 4 5 1 2) := by decide

theorem witness_DecodingFollowsTheMap :
    (∃ r ∈ opcodeMap, 0x00021310#32 &&& r.mask = r.matchWord) ∧
    (∀ r ∈ opcodeMap, 0x00000003#32 &&& r.mask ≠ r.matchWord) ∧
    (∃ r, opcodeMap[18]? = some r ∧ 0x00FFFF53#32 &&& r.mask ≠ r.matchWord ∧
      0x00F0FF53#32 &&& r.mask = r.matchWord) := by decide

theorem witness_ReservedWordsAreIllegal :
    rsvField 0x01000000 ≠ 0 ∧ rsvField 0x80000000 ≠ 0 ∧
    (∀ r ∈ opcodeMap, r.op ≠ opField 0x00000054) ∧ (∀ r ∈ opcodeMap, r.op ≠ opField 0x000000FF) ∧
    (∃ r ∈ opcodeMap, r.op = opField 0x00000100 ∧ 0x00000100#32 &&& r.mask ≠ r.matchWord) := by decide

theorem witness_ResetValues :
    (Config.mk 3 .estRef).wf ∧ (Config.mk 65535 .free).wf ∧ Config.default.wf := by decide

theorem witness_ResetEvents :
    ({ busy with inputs := [.hwReset] } : State).inputs = .hwReset :: [] ∧
    ({ busy with inputs := [.write 0x004 0xF 0xFFFFFFFF] } : State).inputs = .write 0x004 0xF 0xFFFFFFFF :: [] ∧
    (0xFFFFFFFF#32).getLsbD 1 = true := by decide +kernel

theorem witness_ControlRegister : (0xFFFFFFFD#32).getLsbD 1 = false := by decide

theorem witness_IdleMachineRests :
    State.reset.pending = none ∧ State.reset.inputs = [] ∧
    ({ State.reset with inputs := [.mpid] } : State).inputs = .mpid :: [] := by decide

theorem witness_IllegalAccessIsBusError :
    0x1FFF < 2 ^ addrBits 63 ∧ 0x1FFF % 4 ≠ 0 ∧ (0x7 : BitVec 4) ≠ 0xF ∧ 0x1FFC < 2 ^ addrBits 63 ∧ 0x1FFC % 4 = 0 := by
  decide

theorem witness_ReadsHaveNoSideEffect :
    nextOf (busRead tiny 0x000 0xF) = some { tiny with rsp := some ⟨0x0003101F, false⟩ } ∧
    tiny.pending = none ∧ 0x1FFC % 4 = 0 ∧ 0x1FFC < 2 ^ addrBits tiny.cfg.cap := by decide +kernel

theorem witness_HeaderWordWrite : tiny.pending = none := by decide

theorem witness_LimbWordWrite : tiny.wf ∧ tiny.pending = none ∧ 0 < tiny.cfg.cap ∧ 2 < tiny.cfg.cap := by
  decide +kernel

/-- The first and last reserved control offsets, the first and last offsets above the windows (CAP = 3), and the first and
last reserved words of a window (CAP = 4). -/
theorem witness_RegisterMapAccess :
    tiny.pending = none ∧ 0x01C ≤ 0xFFC ∧ 0xFFC < 0x1000 ∧ 0xFFC % 4 = 0 ∧
    0x1000 + 16 * windowStride tiny.cfg.cap = 0x1100 ∧ 0x1FFC < 2 ^ addrBits tiny.cfg.cap ∧
    (State.resetWith ⟨4, .estRef⟩).pending = none ∧ windowBase 4 15 + 4 * (4 + 1) = 0x11F4 ∧
    0x11FC < windowBase 4 15 + windowStride 4 := by decide +kernel

theorem witness_CommandAccepted : tiny.pending = none ∧ busy.pending ≠ none := by decide +kernel

theorem witness_OnlyCmdWriteStartsCommand :
    (nextOf (step { small 13 5 7 8 with inputs := [.write 0x00C 0xF 0x00021310] })).map State.pending =
      some (some ⟨0x00021310, 7, 8⟩) ∧ (small 13 5 7 8).pending = none := by decide +kernel

/-- CAP = 4 gives each window eight words, the last three reserved: offset 0x1014 is one of them; the windows end at
0x1200. -/
theorem witness_BusyWritesAreDiscarded :
    (busyWith (State.resetWith ⟨4, .estRef⟩) 0).pending ≠ none ∧
    (busyWith (State.resetWith ⟨4, .estRef⟩) 0).cfg.cap = 4 ∧ windowBase 4 0 = 0x1000 ∧
    (0x1000 ≤ 0x1014 ∧ 0x1014 < 0x1000 + windowStride 4) ∧ windowBase 4 15 + windowStride 4 = 0x1200 ∧
    0x1000 + 16 * windowStride 4 = 0x1200 ∧ 0x1200 < 2 ^ addrBits 4 ∧ 0x1200 % 4 = 0 := by decide +kernel

theorem witness_BusyWindowReadIsFree :
    busy.pending ≠ none ∧ 0x10FC % 4 = 0 ∧ windowBase busy.cfg.cap 15 ≤ 0x10FC ∧
    0x10FC < windowBase busy.cfg.cap 15 + windowStride busy.cfg.cap ∧
    windowBase busy.cfg.cap 0 ≤ 0x1000 := by decide +kernel

theorem witness_NothingVisibleBeforeCompletion :
    (nextOf (step { busy with inputs := [.write 0x010 0xF 9] })).map (fun t => (t.pending, t.ovr)) =
      some (some ⟨0x00021310, 0, 0⟩, true) := by decide +kernel

theorem witness_InterruptLine :
    (nextOf (exec .nop { tiny with ie := true })).map State.irq = some true ∧
    (nextOf (busWrite { tiny with ie := true, done := true } 0x00C 0xF 0)).map State.irq = some false ∧
    (nextOf (busWrite { tiny with ie := true, done := true } 0x008 0xF 2)).map State.irq = some false ∧
    (2#32).getLsbD 1 = true := by decide +kernel

theorem witness_StepRunsDecodedCommand :
    busy.pending = some ⟨0x00021310, 0, 0⟩ ∧ decode 0x00021310 = .ok (.add 3 1 2) ∧ busy.inputs = [] ∧
    ({ busy with inputs := [.mpid, .mpid] } : State).inputs = .mpid :: [.mpid] ∧
    ({ busy with inputs := [.read 0x008 0xF] } : State).inputs = .read 0x008 0xF :: [] ∧
    ({ busy with inputs := [.write 0x010 0xF 9] } : State).inputs = .write 0x010 0xF 9 :: [] := by decide +kernel

theorem witness_PlacedCommandRunsNext :
    (nextOf (step ((small 13 5 0 0).withFetchWord 32 (encode (.add 3 1 2)).toNat))).map (fun t => t.val 3) = some 18 := by
  decide +kernel

theorem witness_IllegalWordFaults :
    (busyWith tiny 0x00000003).pending = some ⟨0x00000003, 0, 0⟩ ∧ decode 0x00000003 = .error .reservedOpcode ∧
    (busyWith tiny 0x00000003).inputs = [] := by decide

theorem witness_StepNeverStopsInSpace :
    ({ tiny with inputs := [.read 0x1FFF 0, .write 0x1FFC 0xF 0, .mpid, .hwReset] } : State).inputsInSpace = true ∧
    2 ^ addrBits 3 = 0x2000 ∧
    ({ tiny with inputs := [.read 0x2000 0xF] } : State).inputs = .read 0x2000 0xF :: [] := by decide +kernel

theorem witness_FaultsArePrecise :
    (nextOf (exec (.mul 3 1 2) (small (2 ^ 62) (2 ^ 31) 0 0))).map State.ecode = some .capacity := by decide +kernel

/-- Each of the four codes a decoded command can end with. -/
theorem witness_WhichCommandsRaiseWhich :
    tiny.cfg.wf ∧ (nextOf (exec (.div 3 3 1 2) tiny)).map State.ecode = some .destAlias ∧
    (nextOf (exec (.mov 3 1) (rawV1 0x80000000 0 0))).map State.ecode = some .operand ∧
    (nextOf (exec (.root 3 4 1) tiny)).map State.ecode = some .arg ∧
    (nextOf (exec (.add 3 1 2) (small (sentinel 3) 1 0 0))).map State.ecode = some .capacity ∧
    (nextOf (exec (.shl 3 1) (small 1 0 93 0))).map State.ecode = some .capacity ∧
    (nextOf (exec (.pow 3 1) (small 2 0 93 0))).map State.ecode = some .capacity ∧
    (nextOf (exec (.pow 3 1) (small 2 0 92 0))).map State.ecode = some .ok := by decide +kernel

theorem witness_EqualDestinationsFault :
    (nextOf (exec (.root 5 5 1) tiny)).map State.ecode = some .destAlias ∧
    (nextOf (exec (.root 1 2 1) (small 9 0 2 0))).map State.ecode = some .ok := by decide +kernel

/-- LEN one above CAP, a zero top limb at LEN = CAP, a negative zero. -/
theorem witness_InvalidSourceFaults :
    (Instr.root 3 4 1).wellFormed = true ∧ 1 ∈ (Instr.root 3 4 1).sources ∧
    3 < ((rawV1 0x00000004 5 5).readV 1).len.toNat ∧
    (((rawV1 0x00000003 5 5).readV 1).len ≠ 0 ∧
      limbAt ((rawV1 0x00000003 5 5).readV 1).limbs (((rawV1 0x00000003 5 5).readV 1).len.toNat - 1) = 0) ∧
    (((rawV1 0x80000000 5 5).readV 1).len = 0 ∧ ((rawV1 0x80000000 5 5).readV 1).sign = true) ∧
    (nextOf (exec (.mov 3 1) (rawV1 0x00000004 5 5))).map State.ecode = some .operand := by decide +kernel

theorem witness_CommandsLeaveTheRest : (nextOf (exec (.cmp 1 2) (small 13 5 0 0))).isSome = true := by decide +kernel

/-- An offset in the window of V4, none of it a destination of ADD v3, v1, v2, and CMP's RESULT left out. -/
theorem witness_CommandsLeaveOtherBytes :
    (nextOf (exec (.add 3 1 2) (small 13 5 0 0))).isSome = true ∧
    (∀ d ∈ (Instr.add 3 1 2).dests,
      ¬ (windowBase 3 d ≤ windowBase 3 4 ∧ windowBase 3 4 < windowBase 3 d + windowStride 3)) ∧
    windowBase 3 4 / 4 ≠ 0x008 / 4 ∧ windowBase 3 4 / 4 ≠ 0x018 / 4 ∧ (Instr.cmp 1 2).writesResult = true := by
  decide +kernel

theorem witness_WrittenRegistersAreNormal :
    tiny.cfg.wf ∧ (nextOf (exec (.div 3 4 1 2) (small 13 5 0 0))).map State.ecode = some .ok ∧
    4 ∈ (Instr.div 3 4 1 2).dests := by decide +kernel

/-- The premises of the statements about a command's result: parameters in range and valid sources V1, V2. -/
abbrev ready (s : State) : Prop := s.cfg.wf ∧ s.validReg 1 = true ∧ s.validReg 2 = true

theorem witness_MovCopiesValue : (small (-5) 0 0 0).cfg.wf ∧ (small (-5) 0 0 0).validReg 1 = true := by decide +kernel

theorem witness_LdiLoadsImmediate :
    (busyWith (small 0 0 0 0x80000000) 0x00000302).cfg.wf ∧
    (busyWith (small 0 0 0 0x80000000) 0x00000302).pending = some ⟨0x00000302, 0, 0x80000000⟩ := by decide +kernel

/-- The largest magnitude that fits, and the first that does not, for both operations. -/
theorem witness_SumsAreExact :
    ready (small 5 18 0 0) ∧ ready (small (-sentinel 3) 1 0 0) ∧
    ready (small (sentinel 3 - 1) 1 0 0) ∧ ready (small (sentinel 3) 1 0 0) ∧
    ((small (sentinel 3 - 1) 1 0 0).val 1 + (small (sentinel 3 - 1) 1 0 0).val 2).natAbs < limbBase ^ 3 ∧
    limbBase ^ 3 ≤ ((small (sentinel 3) 1 0 0).val 1 + (small (sentinel 3) 1 0 0).val 2).natAbs ∧
    ((small 5 18 0 0).val 1 - (small 5 18 0 0).val 2).natAbs < limbBase ^ 3 ∧
    limbBase ^ 3 ≤ ((small (-sentinel 3) 1 0 0).val 1 - (small (-sentinel 3) 1 0 0).val 2).natAbs := by decide +kernel

theorem witness_ComparisonsGiveTheSign :
    (small (-5) 5 0 0).validReg 1 = true ∧ (small (-5) 5 0 0).validReg 2 = true := by decide +kernel

theorem witness_BitsCountsTheMagnitude :
    ready (small 0 0 0 0) ∧ ready (small (sentinel 3) 0 0 0) ∧
    (small 0 0 0 0).val 1 = 0 ∧ (small (sentinel 3) 0 0 0).val 1 ≠ 0 ∧ (small (sentinel 3) 0 0 0).validReg 1 = true := by
  decide +kernel

/-- The largest shift that fits and the first that does not. -/
theorem witness_ShlMultipliesByPower :
    ready (small 1 0 92 0) ∧ ready (small 1 0 93 0) ∧
    ((small 1 0 92 0).val 1).natAbs * 2 ^ (small 1 0 92 0).count < limbBase ^ 3 ∧
    limbBase ^ 3 ≤ ((small 1 0 93 0).val 1).natAbs * 2 ^ (small 1 0 93 0).count := by decide +kernel

theorem witness_ShrRoundsTowardZero :
    (small (-3) 0 1 0).cfg.wf ∧ (small (-3) 0 1 0).validReg 1 = true := by decide +kernel

theorem witness_MulIsExact :
    ready (small (2 ^ 62) (2 ^ 30) 0 0) ∧ ready (small (2 ^ 62) (2 ^ 31) 0 0) ∧
    ((small (2 ^ 62) (2 ^ 30) 0 0).val 1 * (small (2 ^ 62) (2 ^ 30) 0 0).val 2).natAbs < limbBase ^ 3 ∧
    limbBase ^ 3 ≤ ((small (2 ^ 62) (2 ^ 31) 0 0).val 1 * (small (2 ^ 62) (2 ^ 31) 0 0).val 2).natAbs := by
  decide +kernel

theorem witness_DivisionIsExact :
    ready (small (-7) 2 0 0) ∧
    (3 : Reg) ≠ 4 ∧ (small (-7) 2 0 0).val 2 ≠ 0 ∧ (small (-7) 2 0 0).validReg 1 = true ∧
    (small (-7) 2 0 0).validReg 2 = true := by decide +kernel

theorem witness_DivisionByZeroGivesSentinel :
    (small 13 0 0 0).cfg.wf ∧ (small 13 0 0 0).validReg 1 = true ∧ (small 13 0 0 0).validReg 2 = true ∧
    (small 13 0 0 0).val 2 = 0 := by decide +kernel

/-- With a divisor of 62 bits and with one of 63. -/
theorem witness_DivaNeverOverestimates :
    ready (small 65 (2 ^ 62 - 1) 0 0) ∧
    (small 65 (2 ^ 62 - 1) 0 0).val 2 ≠ 0 ∧ (small 65 (2 ^ 62 - 1) 0 0).cfg.estimator = .estRef ∧
    ((small 65 (2 ^ 62 - 1) 0 0).val 2).natAbs < 2 ^ 62 ∧ (small 65 (2 ^ 62) 0 0).validReg 2 = true := by decide +kernel

theorem witness_RemoveFindsMultiplicity :
    ready (small (-24) 2 0 0) ∧
    (small (-24) 2 0 0).val 1 ≠ 0 ∧ 2 ≤ ((small (-24) 2 0 0).val 2).natAbs ∧ (small (-24) 2 0 0).validReg 1 = true ∧
    (small (-24) 2 0 0).validReg 2 = true := by decide +kernel

theorem witness_RemoveDegenerateInputs :
    ready (small 13 0 0 0) ∧ ready (small 0 7 0 0) ∧ ready (small 8 (-1) 0 0) ∧
    (small 13 0 0 0).val 2 = 0 ∧ ((small 0 7 0 0).val 2 ≠ 0 ∧ (small 0 7 0 0).val 1 = 0) ∧
    (((small 8 (-1) 0 0).val 2).natAbs = 1 ∧ (small 8 (-1) 0 0).val 1 ≠ 0) := by decide +kernel

/-- 2^92 fits in three limbs, 2^93 does not. -/
theorem witness_PowIsExact :
    ready (small 2 0 92 0) ∧ ready (small 2 0 93 0) ∧
    ((small 2 0 92 0).val 1).natAbs ^ (small 2 0 92 0).count < limbBase ^ 3 ∧
    limbBase ^ 3 ≤ ((small 2 0 93 0).val 1).natAbs ^ (small 2 0 93 0).count := by decide +kernel

theorem witness_SqrtIsTheIntegerRoot :
    ready (small 10 0 0 0) ∧ ready (small (-9) 0 0 0) ∧
    0 ≤ (small 10 0 0 0).val 1 ∧ (small (-9) 0 0 0).val 1 < 0 ∧ (small (-9) 0 0 0).validReg 1 = true := by
  decide +kernel

theorem witness_CbrtIsTheIntegerRoot :
    (small (-9) 0 0 0).cfg.wf ∧ (3 : Reg) ≠ 4 ∧ (small (-9) 0 0 0).validReg 1 = true := by decide +kernel

theorem witness_RootIsTheIntegerRoot :
    ready (small (-33) 0 5 0) ∧ ready (small (-1) 0 2 0) ∧
    (small (-33) 0 5 0).count ≠ 0 ∧ (small (-33) 0 5 0).count % 2 = 1 ∧ (small (-1) 0 2 0).val 1 < 0 ∧
    (small (-1) 0 2 0).count % 2 = 0 ∧ (small (-1) 0 2 0).validReg 1 = true := by decide +kernel

theorem witness_RootOfDegreeZeroFaults :
    (3 : Reg) ≠ 4 ∧ (small 17 0 0 0).validReg 1 = true ∧ (small 17 0 0 0).count = 0 := by decide +kernel

theorem witness_RootAgreesWithSqrtAndCbrt : (small 17 0 2 0).count = 2 ∧ (small 17 0 3 0).count = 3 := by
  decide +kernel

theorem witness_ResetMeetsInvariants : (Config.mk 3 .free).wf ∧ (Config.mk 65535 .estRef).wf := by decide

theorem witness_StepKeepsStorage : busy.wf ∧ (nextOf (step busy)).isSome = true := by decide +kernel

theorem witness_StepKeepsLatchedCommand :
    busy.latchKept = true ∧ (nextOf (step { busy with inputs := [.write 0x010 0xF 9] })).isSome = true := by
  decide +kernel

theorem witness_OnlyWindowWritesInvalidate :
    busy.wf ∧ busy.allValid ∧ (nextOf (step { busy with inputs := [.write 0x010 0xF 9] })).isSome = true ∧
    (target 3 0x010).inWindow = false := by decide +kernel

/-- All three flags set, and a write of STATUS that clears DONE only. -/
theorem witness_StickyFlagsStay :
    (nextOf (step { tiny with err := true, dz := true, ovr := true, inputs := [.write 0x008 0xF 2] })).isSome = true ∧
    (2#32).getLsbD 2 = false ∧ (2#32).getLsbD 3 = false ∧ (2#32).getLsbD 4 = false := by decide +kernel

/-- The three ways a pending command ends: the MPID's turn, a hardware reset, a soft reset. -/
theorem witness_AcceptedCommandCompletes :
    (nextOf (step busy)).map State.pending = some none ∧
    (nextOf (step { busyWith tiny 0x00000003 with inputs := [.mpid] })).map State.pending = some none ∧
    (nextOf (step { busy with inputs := [.hwReset] })).map State.pending = some none ∧
    (nextOf (step { busy with inputs := [.write 0x004 0xF 2] })).map State.pending = some none ∧
    ({ busy with inputs := [.read 0x008 0xF, .write 0x1FFC 0xF 0] } : State).inputsInSpace = true := by decide +kernel

end Sys2Proof.Tests
end

section
/-!
PROOFS. The statements of spec/00_scope.md: every step keeps the registers' storage (R5, R33), and what the register
map answers to reads and does with writes (R5, R71, R73, R76, R77).
-/

namespace Sys2Proof.Machine

/-! ## Every operation keeps the storage -/

/-- `State.wf` speaks of the parameters and of the registers' limb counts alone. -/
theorem State.wf.of_storage {s t : State} (hs : s.wf) (hcfg : t.cfg = s.cfg)
    (hlimbs : ∀ i : Reg, (t.readV i).limbs.length = s.cfg.cap) : t.wf :=
  ⟨hcfg ▸ hs.1, fun i => hcfg ▸ hlimbs i⟩

theorem State.wf_complete {s : State} {c : ECode} : (s.complete c).wf ↔ s.wf := Iff.rfl

theorem State.wf_respond {s : State} {d : Word} {e : Bool} : (s.respond d e).wf ↔ s.wf := Iff.rfl

theorem State.wf.resetNow {s : State} (hs : s.wf) : s.resetNow.wf :=
  hs.of_storage s.resetNow_cfg fun i => by simp [VReg.zero]

theorem State.wf.writeWord {s : State} (hs : s.wf) (t : Target) (w : Word) : (s.writeWord t w).wf :=
  hs.of_storage (s.writeWord_cfg t w) (State.writeWord_limbs_length hs.2 t w)

theorem State.wf.readWord {s : State} (hs : s.wf) (t : Target) : (s.readWord t).wf := by
  obtain ⟨d, n, h⟩ := s.readWord_eq t
  rw [h]
  exact hs

/-- A command's commit stores normal forms, of CAP limbs each, and leaves every other register. -/
theorem Committed.wf {i : Instr} {s t : State} (h : Committed i s t) (hs : s.wf) : t.wf := by
  refine hs.of_storage h.frame.cfg fun j => ?_
  by_cases hj : j ∈ i.dests
  · obtain ⟨z, -, hz⟩ := h.dest hs.1 j hj
    rw [hz, norm_limbs_length]
  · rw [h.frame.registers j hj]
    exact hs.2 j

theorem exec_wf {i : Instr} {s t : State} (hs : s.wf) (h : exec i s = .next t) : t.wf := by
  rcases exec_ends i s with ⟨c, -, -, he⟩ | ⟨u, hu, he⟩
  · cases he.symm.trans h
    exact hs
  · cases he.symm.trans h
    exact State.wf_complete.mpr (hu.wf hs)

theorem mpidTurn_wf {s t : State} (hs : s.wf) (h : mpidTurn s = .next t) : t.wf := by
  rcases mpidTurn_cases s with ⟨-, he⟩ | ⟨p, i, -, -, he⟩ | ⟨p, e, -, -, he⟩
  · cases he.symm.trans h
    exact hs
  · exact exec_wf hs (he.symm.trans h)
  · cases he.symm.trans h
    exact hs

theorem busRead_wf {s t : State} {off : Nat} {be : BitVec 4} (hs : s.wf) (h : busRead s off be = .next t) :
    t.wf := by
  rcases busRead_cases s off be with ⟨-, he⟩ | ⟨-, -, he⟩ | ⟨-, -, he⟩ <;> cases he.symm.trans h
  · exact hs
  · exact hs.readWord _

theorem busWrite_wf {s t : State} {off : Nat} {be : BitVec 4} {w : Word} (hs : s.wf)
    (h : busWrite s off be w = .next t) : t.wf := by
  rcases busWrite_cases s off be w with ⟨-, he⟩ | ⟨-, -, he⟩ | ⟨-, -, he⟩ <;> cases he.symm.trans h
  · exact hs
  · exact State.wf_respond.mpr (hs.writeWord _ w)

theorem takeInput_wf {s t : State} {i : Input} (hs : s.wf) (h : takeInput s i = .next t) : t.wf := by
  cases i with
  | read off be => exact busRead_wf hs h
  | write off be w => exact busWrite_wf hs h
  | mpid => exact mpidTurn_wf hs h
  | hwReset =>
    cases h
    exact hs.resetNow

/-- Settles O56, by the input that the step takes: the MPID's turn commits normal forms or changes no register, a bus
write replaces registers limb for limb, and a reset fills every register with CAP zeros. -/
theorem stepKeepsStorage : Obligations.StepKeepsStorage := by
  intro s t hs h
  cases hi : s.inputs with
  | nil => exact mpidTurn_wf hs (step_of_no_input hi ▸ h)
  | cons i rest =>
    rw [step_of_input hi] at h
    exact takeInput_wf (s := { s with inputs := rest }) hs h

/-! ## Transactions outside the windows -/

/-- A legal read outside the windows answers the word that stands there, busy or not (R83). -/
theorem busRead_of_target {s : State} {off : Nat} {t : Target} (h : off < 2 ^ addrBits s.cfg.cap) (h4 : off % 4 = 0)
    (ht : target s.cfg.cap off = t) (hw : t.inWindow = false) :
    busRead s off 0xF = .next (s.respond (s.readTarget t) false) := by
  rw [busRead_legal h h4, ht, State.readWord, hw, Bool.and_false]
  rfl

/-- A legal write of what is never locked has its target's effect, busy or not (R81). -/
theorem busWrite_of_unlocked {s : State} {off : Nat} {t : Target} (w : Word) (h : off < 2 ^ addrBits s.cfg.cap)
    (h4 : off % 4 = 0) (ht : target s.cfg.cap off = t) (hl : t.lockedWhileBusy = false) :
    busWrite s off 0xF w = .next ((s.writeTarget w t).respond 0 false) := by
  rw [busWrite_legal w h h4, ht, State.writeWord, hl, Bool.and_false]
  rfl

/-- A legal read of the control region answers its register, busy or not (R71, R83). -/
theorem busRead_control (s : State) {off : Nat} (h : off < 0x1000) (h4 : off % 4 = 0)
    (hw : (controlTarget off).inWindow = false) :
    busRead s off 0xF = .next (s.respond (s.readTarget (controlTarget off)) false) :=
  busRead_of_target (control_in_space h) h4 (target_control _ h) hw

/-- A legal write of the control region with no command pending has its register's effect (R71). -/
theorem busWrite_control {s : State} {off : Nat} (w : Word) (hp : s.pending = none) (h : off < 0x1000)
    (h4 : off % 4 = 0) :
    busWrite s off 0xF w = .next ((s.writeTarget w (controlTarget off)).respond 0 false) := by
  rw [busWrite_idle w hp (control_in_space h) h4, target_control _ h]

/-- ID as a number: CAP in [31:16], 16 in [15:8], 31 in [7:0] (R42). -/
theorem State.idWord_eq_ofNat (s : State) : s.idWord = BitVec.ofNat 32 (65536 * s.cfg.cap + 0x101F) := by
  apply BitVec.eq_of_toNat_eq
  rw [State.idWord, BitVec.toNat_append, BitVec.toNat_append, ← Nat.shiftLeft_add_eq_or_of_lt (BitVec.isLt _),
    ← Nat.shiftLeft_add_eq_or_of_lt (BitVec.isLt _)]
  simp only [BitVec.toNat_ofNat, Nat.shiftLeft_eq]
  omega

/-- A reserved word of a window reads 0 and ignores writes while no command is pending (R76). -/
theorem windowReserved_access {s : State} {i : Reg} {off : Nat} (w : Word) (hp : s.pending = none)
    (h4 : off % 4 = 0) (hlo : windowBase s.cfg.cap i + 4 * (s.cfg.cap + 1) ≤ off)
    (hhi : off < windowBase s.cfg.cap i + windowStride s.cfg.cap) :
    busRead s off 0xF = .next (s.respond 0 false) ∧ busWrite s off 0xF w = .next (s.respond 0 false) := by
  obtain ⟨k, hk, rfl⟩ := exists_window_word (by omega) hhi h4
  have ht := target_windowReserved i (show s.cfg.cap < k by omega) hk
  have hin := window_in_space i hk
  constructor
  · rw [busRead_idle hp hin h4, State.wordAt, ht]
    rfl
  · rw [busWrite_idle w hp hin h4, ht]
    rfl

/-- An offset at which nothing stands reads 0 and ignores writes, busy or not (R77). -/
theorem unmapped_access {s : State} {off : Nat} (w : Word) (h4 : off % 4 = 0) (hin : off < 2 ^ addrBits s.cfg.cap)
    (h : (0x01C ≤ off ∧ off < 0x1000) ∨ 0x1000 + 16 * windowStride s.cfg.cap ≤ off) :
    busRead s off 0xF = .next (s.respond 0 false) ∧ busWrite s off 0xF w = .next (s.respond 0 false) :=
  ⟨busRead_of_target hin h4 (target_unmapped h) rfl, busWrite_of_unlocked w hin h4 (target_unmapped h) rfl⟩

/-- VSTRIDE is four times the smallest power of two not below CAP + 1 (R5). -/
theorem windowStride_spec (cap : Nat) :
    ∃ k, windowStride cap = 4 * 2 ^ k ∧ cap + 1 ≤ 2 ^ k ∧ ∀ m, cap + 1 ≤ 2 ^ m → k ≤ m :=
  ⟨bitlen cap, rfl, cap_lt_windowWords cap, fun _ => windowWords_least⟩

/-- Settles O14: each clause says what stands at its offset, and the laws of transactions answer for it. -/
theorem registerMapAccess : Obligations.RegisterMapAccess := by
  refine ⟨fun s => ⟨?id, ?arg0, ?arg1, ?result⟩, fun s w hp => ?writes,
    fun s off w h4 hin h => unmapped_access w h4 hin h,
    fun s i off w hp h4 hlo hhi => windowReserved_access w hp h4 hlo hhi,
    fun cap => ⟨windowStride_spec cap, fun _ => rfl, addrBits_spec cap⟩⟩
  case id =>
    rw [← s.idWord_eq_ofNat]
    exact busRead_control s (by decide) rfl rfl
  case arg0 | arg1 | result => exact busRead_control s (by decide) rfl rfl
  case writes => refine ⟨?_, ?_, ?_, ?_⟩ <;> exact busWrite_control w hp (by decide) rfl

end Sys2Proof.Machine
end

section
/-!
PROOFS. The statements of spec/10_state.md: which steps can make a register invalid (R35, R36), the frame of every
command (R40, R52, R105, R311, R312) and what it writes (R10, R34), the sticky flags (R52, R54, R55), STATUS, CTRL and
the interrupt line (R43, R46, R47, R50, R59).
-/

namespace Sys2Proof.Machine

/-! ## What an operation can do, said once -/

/-- `exec_ends` for a known next state: a fault's code and nothing else, or a commit that ends without fault. -/
theorem exec_next {i : Instr} {s t : State} (h : exec i s = .next t) :
    (∃ c, c ≠ .ok ∧ c ≠ .illegal ∧ t = s.complete c) ∨ (∃ u, Committed i s u ∧ t = u.complete .ok) := by
  rcases exec_ends i s with ⟨c, hok, hill, he⟩ | ⟨u, hu, he⟩ <;> cases he.symm.trans h
  · exact .inl ⟨c, hok, hill, rfl⟩
  · exact .inr ⟨u, hu, rfl⟩

theorem legalAccess_iff {off : Nat} {be : BitVec 4} : legalAccess off be = true ↔ be = 0xF ∧ off % 4 = 0 := by
  simp [legalAccess]

/-- Everything a legal write can do: it is discarded and sets OVR (R81), or it has its target's effect. -/
theorem State.writeWord_cases (s : State) (t : Target) (w : Word) :
    (s.busy = true ∧ t.lockedWhileBusy = true ∧ s.writeWord t w = { s with ovr := true }) ∨
    s.writeWord t w = s.writeTarget w t := by
  unfold State.writeWord
  split
  · next hl => exact .inl ⟨(Bool.and_eq_true_iff.mp hl).1, (Bool.and_eq_true_iff.mp hl).2, rfl⟩
  · exact .inr rfl

/-- Everything that can stand at an aligned offset (R71, R73, R77). -/
theorem target_cases {cap off : Nat} (h4 : off % 4 = 0) :
    (off < 0x1000 ∧ target cap off = controlTarget off) ∨
    (∃ i : Reg, ∃ k < windowWords cap, off = windowBase cap i + 4 * k ∧ target cap off = windowTarget cap i k) ∨
    (0x1000 + 16 * windowStride cap ≤ off ∧ target cap off = .unmapped) := by
  by_cases h0 : off < 0x1000
  · exact .inl ⟨h0, target_control cap h0⟩
  by_cases h1 : (off - 0x1000) / windowStride cap < 16
  · have hk : (off - 0x1000) % windowStride cap / 4 < windowWords cap :=
      Nat.div_lt_of_lt_mul (Nat.mod_lt _ (windowStride_pos cap))
    exact .inr (.inl ⟨_, _, hk, offset_of_window h4 h0 h1, by rw [target, if_neg h0, dif_pos h1]⟩)
  · rw [Nat.div_lt_iff_lt_mul (windowStride_pos cap)] at h1
    have hhi : 0x1000 + 16 * windowStride cap ≤ off := by omega
    exact .inr (.inr ⟨hhi, target_unmapped (.inr hhi)⟩)

/-- A write of CTRL with bit 1 set is a reset (R46). -/
theorem State.writeCtrl_of_srst {s : State} {w : Word} (h : w.getLsbD 1 = true) : s.writeCtrl w = s.resetNow :=
  if_pos h

/-- A write of CTRL with bit 1 clear sets IE (R43). -/
theorem State.writeCtrl_of_not_srst {s : State} {w : Word} (h : w.getLsbD 1 = false) :
    s.writeCtrl w = { s with ie := w.getLsbD 0 } :=
  if_neg (Bool.eq_false_iff.mp h)

/-! ## The control region (R71) -/

theorem controlTarget_eq_ctrl {off : Nat} : controlTarget off = .ctrl ↔ off = 0x004 := by
  grind [controlTarget]

theorem controlTarget_eq_status {off : Nat} : controlTarget off = .status ↔ off = 0x008 := by
  grind [controlTarget]

theorem controlTarget_eq_result {off : Nat} : controlTarget off = .result ↔ off = 0x018 := by
  grind [controlTarget]

theorem controlTarget_inWindow (off : Nat) : (controlTarget off).inWindow = false := by
  unfold controlTarget
  repeat' split
  all_goals rfl

/-- What is named at an aligned offset outside the windows is the control region's (R71, R77). -/
theorem controlTarget_of_target {cap off : Nat} {g : Target} (h4 : off % 4 = 0) (h : target cap off = g)
    (hw : g.inWindow = false) (hu : g ≠ .unmapped) : controlTarget off = g := by
  rcases target_cases (cap := cap) h4 with ⟨-, ht⟩ | ⟨i, k, hk, hoff, -⟩ | ⟨-, ht⟩
  · exact ht.symm.trans h
  · have hin := inWindow_target i hk
    rw [← hoff, h, hw] at hin
    cases hin
  · exact absurd (h.symm.trans ht) hu

/-! ## Valid registers (R35, R36) -/

theorem VReg.valid_zero (cap : Nat) : (VReg.zero cap).valid cap = true := by
  simp [VReg.valid, VReg.zero]

/-- `State.allValid` speaks of the parameters and the registers alone. -/
theorem State.allValid.of_registers {s t : State} (hs : s.allValid) (hcfg : t.cfg = s.cfg)
    (hv : ∀ i : Reg, t.readV i = s.readV i) : t.allValid := fun i => by
  rw [State.validReg, hcfg, hv i]
  exact hs i

theorem State.allValid_resetNow (s : State) : s.resetNow.allValid := fun i => by
  rw [State.validReg, State.readV_resetNow]
  exact VReg.valid_zero s.cfg.cap

/-- A write outside the windows resets the machine or leaves every value register (R71, R72). -/
theorem State.writeTarget_resets_or_keeps {s : State} {t : Target} (hw : t.inWindow = false) (w : Word) :
    s.writeTarget w t = s.resetNow ∨ ∀ i : Reg, (s.writeTarget w t).readV i = s.readV i := by
  cases t with
  | ctrl =>
    rw [State.writeTarget]
    cases hb : w.getLsbD 1 with
    | true => exact .inl (State.writeCtrl_of_srst hb)
    | false =>
      rw [State.writeCtrl_of_not_srst hb]
      exact .inr fun _ => rfl
  | header | limb | windowReserved => cases hw
  | id | status | cmd | arg0 | arg1 | result | unmapped => exact .inr fun _ => rfl

theorem State.allValid.writeWord {s : State} (hs : s.allValid) {t : Target} (hw : t.inWindow = false) (w : Word) :
    (s.writeWord t w).allValid := by
  have hcfg := s.writeWord_cfg t w
  rcases s.writeWord_cases t w with ⟨-, -, he⟩ | he <;> rw [he] at hcfg ⊢
  · exact hs
  · rcases State.writeTarget_resets_or_keeps (s := s) hw w with hr | hv
    · rw [hr]
      exact s.allValid_resetNow
    · exact hs.of_registers hcfg hv

theorem State.allValid.readWord {s : State} (hs : s.allValid) (t : Target) : (s.readWord t).allValid := by
  obtain ⟨d, n, h⟩ := s.readWord_eq t
  rw [h]
  exact hs

/-- What a command commits is valid, and so is what it leaves. -/
theorem Committed.allValid {i : Instr} {s t : State} (h : Committed i s t) (hc : s.cfg.wf) (hs : s.allValid) :
    t.allValid := fun j => by
  rw [State.validReg, h.frame.cfg]
  by_cases hj : j ∈ i.dests
  · obtain ⟨z, hz, he⟩ := h.dest hc j hj
    rw [he]
    exact norm_valid hc.2 hz
  · rw [h.frame.registers j hj]
    exact hs j

theorem exec_allValid {i : Instr} {s t : State} (hc : s.cfg.wf) (hs : s.allValid) (h : exec i s = .next t) :
    t.allValid := by
  rcases exec_next h with ⟨c, -, -, rfl⟩ | ⟨u, hu, rfl⟩
  · exact hs
  · exact hu.allValid hc hs

theorem mpidTurn_allValid {s t : State} (hc : s.cfg.wf) (hs : s.allValid) (h : mpidTurn s = .next t) :
    t.allValid := by
  rcases mpidTurn_cases s with ⟨-, he⟩ | ⟨p, i, -, -, he⟩ | ⟨p, e, -, -, he⟩
  · cases he.symm.trans h
    exact hs
  · exact exec_allValid hc hs (he.symm.trans h)
  · cases he.symm.trans h
    exact hs

theorem busRead_allValid {s t : State} {off : Nat} {be : BitVec 4} (hs : s.allValid)
    (h : busRead s off be = .next t) : t.allValid := by
  rcases busRead_cases s off be with ⟨-, he⟩ | ⟨-, -, he⟩ | ⟨-, -, he⟩ <;> cases he.symm.trans h
  · exact hs
  · exact hs.readWord _

theorem busWrite_allValid {s t : State} {off : Nat} {be : BitVec 4} {w : Word} (hs : s.allValid)
    (hw : (target s.cfg.cap off).inWindow = false) (h : busWrite s off be w = .next t) : t.allValid := by
  rcases busWrite_cases s off be w with ⟨-, he⟩ | ⟨-, -, he⟩ | ⟨-, -, he⟩ <;> cases he.symm.trans h
  · exact hs
  · exact hs.writeWord hw w

/-- Settles O58, by the input that the step takes: the MPID's turn commits normal forms of integers that fit, a bus
write outside the windows is a reset or leaves the registers, and a reset fills every register with a valid 0. -/
theorem onlyWindowWritesInvalidate : Obligations.OnlyWindowWritesInvalidate := by
  intro s t ⟨hc, _⟩ hs h hw
  cases hi : s.inputs with
  | nil => exact mpidTurn_allValid hc hs (step_of_no_input hi ▸ h)
  | cons i rest =>
    rw [step_of_input hi] at h
    cases i with
    | read off be => exact busRead_allValid (s := { s with inputs := rest }) hs h
    | write off be w => exact busWrite_allValid (s := { s with inputs := rest }) hs (hw off be w rest hi) h
    | mpid => exact mpidTurn_allValid (s := { s with inputs := rest }) hc hs h
    | hwReset =>
      cases h
      exact State.allValid_resetNow _

/-! ## The frame of every command (R40, R52, R311, R312) -/

theorem exec_frame {i : Instr} {s t : State} (h : exec i s = .next t) : s.FrameOf i t := by
  rcases exec_next h with ⟨c, -, -, rfl⟩ | ⟨u, hu, rfl⟩
  · exact (State.FrameOf.refl i s).complete c
  · exact hu.frame.complete .ok

/-- Every command that answers, a fault or not, sets DONE (R311, R312). -/
theorem exec_done {i : Instr} {s t : State} (h : exec i s = .next t) : t.done = true := by
  rcases exec_next h with ⟨c, -, -, rfl⟩ | ⟨u, -, rfl⟩ <;> rfl

/-- Settles O31: a fault completes the old state, a success completes a state that its commit has framed. -/
theorem commandsLeaveTheRest : Obligations.CommandsLeaveTheRest := fun _ _ _ => exec_frame

/-! ## The frame over the bytes of the address space (R71, R73) -/

/-- A window's words are made of its register alone (R74-R76). -/
theorem State.readTarget_windowTarget {s t : State} {i : Reg} (h : t.readV i = s.readV i) (cap k : Nat) :
    t.readTarget (windowTarget cap i k) = s.readTarget (windowTarget cap i k) := by
  unfold windowTarget
  split
  · exact congrArg VReg.headerWord h
  · split
    · exact congrArg (VReg.limbWord · (k - 1)) h
    · rfl

/-- What a frame leaves of the words outside the windows: every one but STATUS and, where the command writes it,
RESULT. -/
theorem State.FrameOf.readTarget {i : Instr} {s t : State} (h : s.FrameOf i t) {g : Target} (hw : g.inWindow = false)
    (hstatus : g ≠ .status) (hresult : i.writesResult = true → g ≠ .result) : t.readTarget g = s.readTarget g := by
  cases g with
  | id => rw [State.readTarget, State.readTarget, State.idWord, State.idWord, h.cfg]
  | ctrl => rw [State.readTarget, State.readTarget, State.ctrlWord, State.ctrlWord, h.ie]
  | status => exact absurd rfl hstatus
  | cmd => exact h.cmd
  | arg0 => exact h.arg0
  | arg1 => exact h.arg1
  | result => exact h.result (Bool.eq_false_iff.mpr fun hr => hresult hr rfl)
  | header | limb | windowReserved => cases hw
  | unmapped => rfl

/-- What a frame leaves of the aligned words: every one outside the destinations' windows, but STATUS and, where the
command writes it, RESULT. -/
theorem State.FrameOf.wordAt {i : Instr} {s t : State} (h : s.FrameOf i t) {off : Nat} (h4 : off % 4 = 0)
    (hdest : ∀ d ∈ i.dests, ¬ (windowBase s.cfg.cap d ≤ off ∧ off < windowBase s.cfg.cap d + windowStride s.cfg.cap))
    (hstatus : off ≠ 0x008) (hresult : i.writesResult = true → off ≠ 0x018) : t.wordAt off = s.wordAt off := by
  rw [State.wordAt, State.wordAt, h.cfg]
  rcases target_cases (cap := s.cfg.cap) h4 with ⟨-, ht⟩ | ⟨j, k, hk, hoff, ht⟩ | ⟨-, ht⟩ <;> rw [ht]
  · exact h.readTarget (controlTarget_inWindow off) (fun hs => hstatus (controlTarget_eq_status.mp hs))
      fun hr hs => hresult hr (controlTarget_eq_result.mp hs)
  · have hj : j ∉ i.dests := fun hj => hdest j hj (by unfold windowStride; omega)
    exact State.readTarget_windowTarget (h.registers j hj) _ k
  · rfl

/-- A byte lies in the window that its word lies in: windows begin and end at whole words (R73). -/
theorem in_window_of_word {cap off : Nat} {d : Reg}
    (h : windowBase cap d ≤ off / 4 * 4 ∧ off / 4 * 4 < windowBase cap d + windowStride cap) :
    windowBase cap d ≤ off ∧ off < windowBase cap d + windowStride cap := by
  have hb := windowBase_aligned cap d
  unfold windowStride at h ⊢
  omega

/-- Settles O32: a byte is a lane of an aligned word, and a frame leaves that word. -/
theorem commandsLeaveOtherBytes : Obligations.CommandsLeaveOtherBytes := by
  intro i s t off h hdest hstatus hresult
  have hword : t.wordAt (off / 4 * 4) = s.wordAt (off / 4 * 4) :=
    (exec_frame h).wordAt (Nat.mul_mod_left _ 4) (fun d hd hin => hdest d hd (in_window_of_word hin)) (by omega)
      fun hr => by have := hresult hr; omega
  rw [State.byteAt, State.byteAt, hword]

/-! ## What a command writes is normal (R10, R34, R36) -/

theorem limbBase_pow (n : Nat) : limbBase ^ n = 2 ^ (31 * n) := (pow_mul 2 31 n).symm

/-- The stored sign, length and limbs of an integer that fits are those of R10: its sign, its number of base-B digits,
and the digits, zero from the length up. -/
theorem norm_spec {cap : Nat} {z : Int} (hc : cap ≤ 65535) (h : fits cap z = true) :
    (norm cap z).sign = decide (z < 0) ∧
    z.natAbs < limbBase ^ (norm cap z).len.toNat ∧
    ((norm cap z).len ≠ 0 → limbBase ^ ((norm cap z).len.toNat - 1) ≤ z.natAbs) ∧
    (∀ j < cap, (limbAt (norm cap z).limbs j).toNat = z.natAbs / limbBase ^ j % limbBase) ∧
    ∀ j < cap, (norm cap z).len.toNat ≤ j → limbAt (norm cap z).limbs j = 0 := by
  have hlen := norm_len_toNat hc h
  have hlimb : ∀ j < cap, limbAt (norm cap z).limbs j = digit z.natAbs j := fun j hj => limbAt_digits _ _ _ hj
  refine ⟨rfl, ?upper, fun hne => ?lower, fun j hj => ?digits, fun j hj hle => ?zeros⟩
  case upper => rw [hlen, limbBase_pow, ← digitCount_le_iff]
  case lower =>
    have hpos : (norm cap z).len.toNat ≠ 0 := fun h0 => hne (BitVec.eq_of_toNat_eq h0)
    rw [hlen] at hpos ⊢
    rw [limbBase_pow, ← not_lt, ← digitCount_le_iff]
    omega
  case digits => rw [hlimb j hj, digit_toNat, limbBase_pow]
  case zeros =>
    rw [hlen, digitCount_le_iff] at hle
    rw [hlimb j hj]
    exact BitVec.eq_of_toNat_eq (by rw [digit_toNat, Nat.div_eq_of_lt hle]; rfl)

/-- Settles O33: a command that ends without fault has committed norm of an integer that fits to each destination, and
`norm_spec` says what that stores. -/
theorem writtenRegistersAreNormal : Obligations.WrittenRegistersAreNormal := by
  intro i s t d hc h hok hd
  rcases exec_next h with ⟨c, hne, -, rfl⟩ | ⟨u, hu, rfl⟩
  · exact absurd hok hne
  · obtain ⟨z, hz, hread⟩ := hu.dest hc d hd
    have hcfg : u.cfg = s.cfg := hu.frame.cfg
    rw [State.validReg, State.val, State.readV_complete, State.complete_cfg, hcfg, hread]
    refine ⟨norm_valid hc.2 hz, z, ?_, rfl, norm_val hc.2 hz, norm_spec hc.2 hz⟩
    rw [limbBase_pow]
    exact fits_iff.mp hz

/-! ## The sticky flags (R52, R54, R55) -/

/-- Each of ERR, DZ and OVR that is set stays set. -/
structure State.KeepsFlags (s t : State) : Prop where
  err : s.err = true → t.err = true
  dz : s.dz = true → t.dz = true
  ovr : s.ovr = true → t.ovr = true

theorem State.KeepsFlags.of_eq {s t : State} (herr : t.err = s.err) (hdz : t.dz = s.dz) (hovr : t.ovr = s.ovr) :
    s.KeepsFlags t :=
  ⟨herr.trans, hdz.trans, hovr.trans⟩

/-- A completion may set ERR and leaves DZ and OVR (R312). -/
theorem State.keepsFlags_complete (s : State) (c : ECode) : s.KeepsFlags (s.complete c) :=
  ⟨fun h => by simp [h], id, id⟩

theorem exec_keepsFlags {i : Instr} {s t : State} (h : exec i s = .next t) : s.KeepsFlags t := by
  rcases exec_next h with ⟨c, -, -, rfl⟩ | ⟨u, hu, rfl⟩
  · exact s.keepsFlags_complete c
  · exact ⟨fun he => by simp [hu.err, he], hu.dz_kept, fun ho => hu.frame.ovr.trans ho⟩

theorem mpidTurn_keepsFlags {s t : State} (h : mpidTurn s = .next t) : s.KeepsFlags t := by
  rcases mpidTurn_cases s with ⟨-, he⟩ | ⟨p, i, -, -, he⟩ | ⟨p, e, -, -, he⟩
  · cases he.symm.trans h
    exact .of_eq rfl rfl rfl
  · exact exec_keepsFlags (he.symm.trans h)
  · cases he.symm.trans h
    exact s.keepsFlags_complete .illegal

theorem busRead_keepsFlags {s t : State} {off : Nat} {be : BitVec 4} (h : busRead s off be = .next t) :
    s.KeepsFlags t := by
  rcases busRead_cases s off be with ⟨-, he⟩ | ⟨-, -, he⟩ | ⟨-, -, he⟩ <;> cases he.symm.trans h
  · exact .of_eq rfl rfl rfl
  · obtain ⟨d, n, hr⟩ := s.readWord_eq (target s.cfg.cap off)
    rw [hr]
    exact .of_eq rfl rfl rfl

/-- Of all legal writes only one of STATUS, or one of CTRL that resets, can clear a sticky flag. -/
theorem State.writeWord_keepsFlags (s : State) {t : Target} {w : Word} (hstatus : t ≠ .status)
    (hctrl : t = .ctrl → w.getLsbD 1 = false) : s.KeepsFlags (s.writeWord t w) := by
  rcases s.writeWord_cases t w with ⟨-, -, he⟩ | he <;> rw [he]
  · exact ⟨id, id, fun _ => rfl⟩
  · cases t with
    | status => exact absurd rfl hstatus
    | ctrl =>
      rw [State.writeTarget, State.writeCtrl_of_not_srst (hctrl rfl)]
      exact .of_eq rfl rfl rfl
    | id | cmd | arg0 | arg1 | result | header | limb | windowReserved | unmapped => exact .of_eq rfl rfl rfl

/-- A bus write that does not reset keeps the sticky flags, or is a write of STATUS. -/
theorem busWrite_flags {s t : State} {off : Nat} {be : BitVec 4} {w : Word} (h : busWrite s off be w = .next t)
    (hctrl : off = 0x004 → be = 0xF → w.getLsbD 1 = false) :
    s.KeepsFlags t ∨ (off = 0x008 ∧ be = 0xF ∧ t = (s.clearStatus w).respond 0 false) := by
  rcases busWrite_cases s off be w with ⟨-, he⟩ | ⟨-, -, he⟩ | ⟨-, hl, he⟩ <;> cases he.symm.trans h
  · exact .inl (.of_eq rfl rfl rfl)
  · obtain ⟨hbe, h4⟩ := legalAccess_iff.mp hl
    by_cases hs : target s.cfg.cap off = .status
    · have hoff := controlTarget_eq_status.mp (controlTarget_of_target h4 hs rfl (by decide))
      rcases s.writeWord_cases .status w with ⟨-, hlock, -⟩ | hw
      · cases hlock
      · exact .inr ⟨hoff, hbe, by rw [hs, hw]; rfl⟩
    · have hk := s.writeWord_keepsFlags (w := w) hs fun hc =>
        hctrl (controlTarget_eq_ctrl.mp (controlTarget_of_target h4 hc rfl (by decide))) hbe
      exact .inl ⟨hk.err, hk.dz, hk.ovr⟩

/-- A step that does not reset keeps the sticky flags, or is a write of STATUS. -/
theorem step_flags {s t : State} (h : step s = .next t) (hhw : ∀ rest, s.inputs ≠ .hwReset :: rest)
    (hctrl : ∀ w rest, s.inputs = .write 0x004 0xF w :: rest → w.getLsbD 1 = false) :
    s.KeepsFlags t ∨ ∃ w rest, s.inputs = .write 0x008 0xF w :: rest ∧
      t = (({ s with inputs := rest } : State).clearStatus w).respond 0 false := by
  cases hi : s.inputs with
  | nil => exact .inl (mpidTurn_keepsFlags (step_of_no_input hi ▸ h))
  | cons i rest =>
    rw [step_of_input hi] at h
    have kept (hk : ({ s with inputs := rest } : State).KeepsFlags t) : s.KeepsFlags t := ⟨hk.err, hk.dz, hk.ovr⟩
    cases i with
    | read off be => exact .inl (kept (busRead_keepsFlags h))
    | write off be w =>
      rcases busWrite_flags h fun hoff hbe => hctrl w rest (by rw [hi, hoff, hbe]) with hk | ⟨rfl, rfl, ht⟩
      · exact .inl (kept hk)
      · exact .inr ⟨w, rest, rfl, ht⟩
    | mpid => exact .inl (kept (mpidTurn_keepsFlags h))
    | hwReset => exact absurd hi (hhw rest)

/-- Settles O59: the one step that is no reset and clears a flag is a write of STATUS, which clears those whose bit is
set. -/
theorem stickyFlagsStay : Obligations.StickyFlagsStay := by
  intro s t h hhw hctrl
  rcases step_flags h hhw hctrl with hk | ⟨w, rest, hi, rfl⟩
  · exact ⟨fun he _ => hk.err he, fun hz _ => hk.dz hz, fun ho _ => hk.ovr ho⟩
  · have kept {f b : Bool} (hf : f = true) (hb : b = false) : (f && !b) = true := by rw [hf, hb]; rfl
    exact ⟨fun he hw => kept he (hw w rest hi), fun hz hw => kept hz (hw w rest hi),
      fun ho hw => kept ho (hw w rest hi)⟩

/-! ## CTRL, STATUS and the interrupt line (R43, R50, R59) -/

/-- A legal write of CTRL takes effect, busy or not (R81). -/
theorem busWrite_ctrl (s : State) (w : Word) : busWrite s 0x004 0xF w = .next ((s.writeCtrl w).respond 0 false) :=
  busWrite_of_unlocked w (control_in_space (by decide)) rfl (target_control _ (by decide)) rfl

/-- A legal write of STATUS takes effect, busy or not (R81). -/
theorem busWrite_status (s : State) (w : Word) :
    busWrite s 0x008 0xF w = .next ((s.clearStatus w).respond 0 false) :=
  busWrite_of_unlocked w (control_in_space (by decide)) rfl (target_control _ (by decide)) rfl

/-- CTRL as a number (R43, R46, R47). -/
theorem State.ctrlWord_eq_ofNat (s : State) : s.ctrlWord = BitVec.ofNat 32 s.ie.toNat := by
  unfold State.ctrlWord
  cases s.ie <;> rfl

/-- Settles O8: CTRL is never locked, and a write of it with bit 1 clear is a write of IE. -/
theorem controlRegister : Obligations.ControlRegister := by
  refine fun s => ⟨fun w hw => ?write, ?read⟩
  case write =>
    rw [busWrite_ctrl, State.writeCtrl_of_not_srst hw]
    rfl
  case read =>
    rw [← s.ctrlWord_eq_ofNat]
    exact busRead_control s (by decide) rfl rfl

/-- STATUS as a number: BUSY, DONE, ERR, DZ, OVR in bits 0 to 4, ECODE in [11:8] (R50). -/
theorem State.statusWord_toNat (s : State) :
    s.statusWord.toNat = s.pending.isSome.toNat + 2 * s.done.toNat + 4 * s.err.toNat + 8 * s.dz.toNat +
      16 * s.ovr.toNat + 256 * s.ecode.bits.toNat := by
  simp only [State.statusWord, State.busy, toNat_append_add, BitVec.toNat_ofBool, BitVec.toNat_ofNat]
  omega

/-- Settles O15: STATUS is never locked, and its layout and reset value are those of its word. -/
theorem statusRegister : Obligations.StatusRegister :=
  ⟨busWrite_status, fun s => ⟨busRead_control s (by decide) rfl rfl, s.statusWord_toNat⟩,
    fun c => BitVec.eq_of_toNat_eq (State.resetWith c).statusWord_toNat⟩

/-- Settles O21: completion sets DONE, and acceptance, a 1 written to DONE and a reset clear it. -/
theorem interruptLine : Obligations.InterruptLine := by
  refine ⟨fun _ => rfl, fun i s t h => ?complete, fun s t w hp h => ?accept, fun s t w hw h => ?clear, fun _ => rfl⟩
  case complete =>
    rw [State.irq, (exec_frame h).ie, exec_done h, Bool.and_true]
  case accept =>
    cases (busWrite_control w hp (by decide) rfl).symm.trans h
    exact Bool.and_false _
  case clear =>
    cases (busWrite_status s w).symm.trans h
    rw [State.irq, State.respond_done, State.clearStatus_done, hw, Bool.not_true, Bool.and_false, Bool.and_false]

end Sys2Proof.Machine
end

section
/-!
PROOFS. The statements of spec/20_memory.md: bus errors (R79), reads without side effect (R80, R84), the words of a
value window (R73-R75), and what the bus can do to a command, from its start (R72) to its completion (R81-R83, R310).
-/

namespace Sys2Proof.Machine

/-! ## Illegal accesses (R79) -/

theorem busRead_illegal {s : State} {off : Nat} {be : BitVec 4} (h : off < 2 ^ addrBits s.cfg.cap)
    (hl : legalAccess off be = false) : busRead s off be = .next (s.respond 0 true) := by
  rw [busRead, if_pos h, hl]
  rfl

theorem busWrite_illegal {s : State} {off : Nat} {be : BitVec 4} (w : Word) (h : off < 2 ^ addrBits s.cfg.cap)
    (hl : legalAccess off be = false) : busWrite s off be w = .next (s.respond 0 true) := by
  rw [busWrite, if_pos h, hl]
  rfl

/-- Settles O10: an illegal access is only responded to, and what a legal one does ends in a response without error. -/
theorem illegalAccessIsBusError : Obligations.IllegalAccessIsBusError := by
  refine fun s off be w hin => ⟨fun h => ?illegal, fun hbe h4 => ?legal⟩
  case illegal =>
    have hl := legalAccess_eq_false h
    exact ⟨busRead_illegal hin hl, busWrite_illegal w hin hl⟩
  case legal =>
    subst hbe
    obtain ⟨d, n, hr⟩ := s.readWord_eq (target s.cfg.cap off)
    exact ⟨⟨_, d, busRead_legal hin h4, by rw [hr, State.respond_rsp]⟩, _, busWrite_legal w hin h4, rfl⟩

/-! ## Reads (R80, R84) -/

/-- Settles O11: a read responds, and may count a draw; an idle one responds with the word at its offset. -/
theorem readsHaveNoSideEffect : Obligations.ReadsHaveNoSideEffect := by
  refine ⟨fun s t off be h => ?frame, fun s off hp h4 hin => busRead_idle hp hin h4⟩
  rcases busRead_cases s off be with ⟨-, he⟩ | ⟨-, -, he⟩ | ⟨-, -, he⟩ <;> cases he.symm.trans h
  · rfl
  · obtain ⟨d, n, hr⟩ := s.readWord_eq (target s.cfg.cap off)
    rw [hr]
    rfl

/-! ## The words of a window (R73-R75) -/

theorem windowBase_in_space (cap : Nat) (i : Reg) : windowBase cap i < 2 ^ addrBits cap :=
  window_in_space (k := 0) i (Nat.zero_lt_of_lt (cap_lt_windowWords cap))

theorem limb_in_space {cap j : Nat} (i : Reg) (hj : j < cap) : windowBase cap i + 4 * (j + 1) < 2 ^ addrBits cap :=
  window_in_space i (by have := cap_lt_windowWords cap; omega)

theorem limb_aligned (cap : Nat) (i : Reg) (j : Nat) : (windowBase cap i + 4 * (j + 1)) % 4 = 0 := by
  have := windowBase_aligned cap i
  omega

theorem busRead_header {s : State} (i : Reg) (hp : s.pending = none) :
    busRead s (windowBase s.cfg.cap i) 0xF = .next (s.respond (s.readV i).headerWord false) := by
  rw [busRead_idle hp (windowBase_in_space _ i) (windowBase_aligned _ i), State.wordAt, target_header]
  rfl

theorem busWrite_header {s : State} (i : Reg) (w : Word) (hp : s.pending = none) :
    busWrite s (windowBase s.cfg.cap i) 0xF w = .next ((s.setV i ((s.readV i).withHeader w)).respond 0 false) := by
  rw [busWrite_idle w hp (windowBase_in_space _ i) (windowBase_aligned _ i), target_header]
  rfl

theorem busRead_limb {s : State} {j : Nat} (i : Reg) (hp : s.pending = none) (hj : j < s.cfg.cap) :
    busRead s (windowBase s.cfg.cap i + 4 * (j + 1)) 0xF = .next (s.respond ((s.readV i).limbWord j) false) := by
  rw [busRead_idle hp (limb_in_space i hj) (limb_aligned _ i j), State.wordAt, target_limb i hj]
  rfl

theorem busWrite_limb {s : State} {j : Nat} (i : Reg) (w : Word) (hp : s.pending = none) (hj : j < s.cfg.cap) :
    busWrite s (windowBase s.cfg.cap i + 4 * (j + 1)) 0xF w =
      .next ((s.setV i ((s.readV i).withLimb j w)).respond 0 false) := by
  rw [busWrite_idle w hp (limb_in_space i hj) (limb_aligned _ i j), target_limb i hj]
  rfl

/-- A word is its bit 31, its bits [30:16] and its bits [15:0]. -/
theorem word_eq_header_fields (w : Word) :
    BitVec.ofBool (w.getLsbD 31) ++ w.extractLsb' 16 15 ++ w.extractLsb' 0 16 = w := by
  apply BitVec.eq_of_toNat_eq
  rw [toNat_append_add, toNat_append_add, BitVec.toNat_ofBool, BitVec.getLsbD, Nat.testBit_eq_decide_div_mod_eq,
    BitVec.extractLsb'_toNat, BitVec.extractLsb'_toNat, Nat.shiftRight_eq_div_pow, Nat.shiftRight_eq_div_pow]
  have := w.isLt
  by_cases h : w.toNat / 2 ^ 31 % 2 = 1
  · rw [decide_eq_true h, Bool.toNat_true]
    omega
  · rw [decide_eq_false h, Bool.toNat_false]
    omega

/-- What is read back from a written header word: the written word, [30:16] zero (R74). -/
theorem VReg.headerWord_withHeader (r : VReg) (w : Word) : (r.withHeader w).headerWord = w &&& 0x8000FFFF := by
  have hmask : (0x8000FFFF : Word) = BitVec.allOnes 1 ++ 0#15 ++ BitVec.allOnes 16 := rfl
  conv_rhs => rw [← word_eq_header_fields w, hmask, append_and_append, append_and_append, BitVec.and_allOnes,
    BitVec.and_allOnes, BitVec.and_zero]
  rfl

/-- Settles O12: the header word is read from LEN and SIGN and written to them. -/
theorem headerWordWrite : Obligations.HeaderWordWrite := by
  refine fun s i w hp => ⟨busRead_header i hp, _, busWrite_header i w hp, rfl, ?_⟩
  have hread := busRead_header (s := (s.setV i ((s.readV i).withHeader w)).respond 0 false) i hp
  rw [State.readV_respond, State.readV_setV_self, VReg.headerWord_withHeader] at hread
  exact hread

/-- What is read back from a written limb word: the written word, bit 31 zero (R75). -/
theorem VReg.limbWord_withLimb {r : VReg} {j : Nat} (w : Word) (hj : j < r.limbs.length) :
    (r.withLimb j w).limbWord j = w &&& 0x7FFFFFFF := by
  rw [VReg.limbWord, VReg.limbAt_withLimb w hj, if_pos rfl]
  apply BitVec.eq_of_toNat_eq
  rw [toNat_append_add, low_limb_toNat, BitVec.toNat_and]
  exact (Nat.zero_add _).trans (Nat.and_two_pow_sub_one_eq_mod w.toNat 31).symm

/-- A write to L[j] of V[i] leaves the word at every other target. -/
theorem State.readTarget_setV_withLimb {s : State} {i : Reg} {j : Nat} (w : Word)
    (hj : j < (s.readV i).limbs.length) {g : Target} (hg : g ≠ .limb i j) :
    (s.setV i ((s.readV i).withLimb j w)).readTarget g = s.readTarget g := by
  cases g with
  | header k =>
    rw [State.readTarget, State.readTarget, State.readV_setV]
    split
    · next he => rw [← he]; rfl
    · rfl
  | limb k m =>
    rw [State.readTarget, State.readTarget, State.readV_setV]
    split
    · next he =>
      subst he
      have hm : j ≠ m := fun hm => hg (hm ▸ rfl)
      rw [VReg.limbWord, VReg.limbWord, VReg.limbAt_withLimb w hj, if_neg hm]
    · rfl
  | id | ctrl | status | cmd | arg0 | arg1 | result | windowReserved | unmapped => rfl

/-- Settles O13: the limb word is read from the limb and written to it, and no other target's word is made of it. -/
theorem limbWordWrite : Obligations.LimbWordWrite := by
  intro s i j w ⟨_, hlen⟩ hp hj
  have hjlen : j < (s.readV i).limbs.length := hj.trans_eq (hlen i).symm
  refine ⟨busRead_limb i hp hj, _, busWrite_limb i w hp hj, ?stored, ?readBack, fun off hoff => ?frame⟩
  case stored =>
    rw [State.readV_respond, State.readV_setV_self, VReg.limbAt_withLimb w hjlen, if_pos rfl]
  case readBack =>
    have hread := busRead_limb (s := (s.setV i ((s.readV i).withLimb j w)).respond 0 false) i hp hj
    rw [State.readV_respond, State.readV_setV_self, VReg.limbWord_withLimb w hjlen] at hread
    exact hread
  case frame =>
    have htarget : target s.cfg.cap (off / 4 * 4) ≠ .limb i j := fun ht => by
      have := offset_of_limb (Nat.mul_mod_left _ 4) ht
      omega
    exact congrArg (BitVec.extractLsb' (8 * (off % 4)) 8) (State.readTarget_setV_withLimb w hjlen htarget)

/-! ## Accesses while a command is pending (R81, R82) -/

theorem State.busy_of_pending {s : State} (h : s.pending ≠ none) : s.busy = true :=
  Option.isSome_iff_ne_none.mpr h

/-- Every word of a window is locked (R81). -/
theorem Target.locked_of_inWindow {g : Target} (h : g.inWindow = true) : g.lockedWhileBusy = true := by
  rw [Target.lockedWhileBusy, h, Bool.or_true]

/-- What stands between a window's start and its end is a word of it (R73). -/
theorem target_in_window {cap off : Nat} {i : Reg} (h4 : off % 4 = 0) (hlo : windowBase cap i ≤ off)
    (hhi : off < windowBase cap i + windowStride cap) : (target cap off).inWindow = true := by
  obtain ⟨k, hk, rfl⟩ := exists_window_word hlo hhi h4
  exact inWindow_target i hk

/-- A legal write of what is locked is discarded and sets OVR while a command is pending (R81). -/
theorem busWrite_of_locked {s : State} {off : Nat} (w : Word) (hp : s.pending ≠ none)
    (h : off < 2 ^ addrBits s.cfg.cap) (h4 : off % 4 = 0) (hl : (target s.cfg.cap off).lockedWhileBusy = true) :
    busWrite s off 0xF w = .next (({ s with ovr := true } : State).respond 0 false) := by
  rw [busWrite_legal w h h4, State.writeWord, State.busy_of_pending hp, hl]
  rfl

/-- Settles O18: CMD, ARG0, ARG1 and the windows' words are locked, and nothing else is. -/
theorem busyWritesAreDiscarded : Obligations.BusyWritesAreDiscarded := by
  refine fun s off w hp h4 hin => ⟨fun h => busWrite_of_locked w hp hin h4 ?locked, fun h => ?ctrl, fun h => ?status,
    fun h => ?ignored⟩
  case locked =>
    rcases h with rfl | rfl | rfl | ⟨i, hlo, hhi⟩
    · rfl
    · rfl
    · rfl
    · exact Target.locked_of_inWindow (target_in_window h4 hlo hhi)
  case ctrl => rw [h, busWrite_ctrl]
  case status => rw [h, busWrite_status]
  case ignored =>
    rcases h with rfl | ⟨hlo, hhi⟩ | hhi
    · exact busWrite_of_unlocked w hin h4 (target_control _ (by decide)) rfl
    · rcases Nat.eq_or_lt_of_le hlo with rfl | hlt
      · exact busWrite_of_unlocked w hin h4 (target_control _ (by decide)) rfl
      · exact (unmapped_access w h4 hin (.inl ⟨by omega, hhi⟩)).2
    · exact (unmapped_access w h4 hin (.inr hhi)).2

/-- Settles O19: a window's word reads as the free word of the draw while a command is pending. -/
theorem busyWindowReadIsFree : Obligations.BusyWindowReadIsFree := by
  intro s off i hp h4 hlo hhi
  have hin : off < 2 ^ addrBits s.cfg.cap := by
    obtain ⟨k, hk, rfl⟩ := exists_window_word hlo hhi h4
    exact window_in_space i hk
  rw [busRead_legal hin h4, State.readWord, State.busy_of_pending hp, target_in_window h4 hlo hhi]
  rfl

/-! ## A command from its start to its completion (R72, R81, R83, R310, R311) -/

theorem controlTarget_eq_cmd {off : Nat} : controlTarget off = .cmd ↔ off = 0x00C := by
  grind [controlTarget]

/-- The MPID's turn leaves no command pending (R311). -/
theorem mpidTurn_pending {s t : State} (h : mpidTurn s = .next t) : t.pending = none := by
  rcases mpidTurn_cases s with ⟨hp, he⟩ | ⟨p, i, -, -, he⟩ | ⟨p, e, -, -, he⟩
  · cases he.symm.trans h
    exact hp
  · rcases exec_next (he.symm.trans h) with ⟨c, -, -, rfl⟩ | ⟨u, -, rfl⟩ <;> rfl
  · cases he.symm.trans h
    rfl

/-- What the bus leaves of a pending command: the command, the registers it was latched from (R81), and all that it
may write at its completion (R83). DONE can only be cleared. -/
structure State.HoldsCommand (s t : State) : Prop where
  pending : t.pending = s.pending
  cmd : t.cmd = s.cmd
  arg0 : t.arg0 = s.arg0
  arg1 : t.arg1 = s.arg1
  result : t.result = s.result
  registers : ∀ i : Reg, t.readV i = s.readV i
  done : s.done = false → t.done = false

theorem State.HoldsCommand.refl (s : State) : s.HoldsCommand s :=
  ⟨rfl, rfl, rfl, rfl, rfl, fun _ => rfl, id⟩

theorem State.HoldsCommand.respond {s t : State} (h : s.HoldsCommand t) (d : Word) (e : Bool) :
    s.HoldsCommand (t.respond d e) :=
  ⟨h.pending, h.cmd, h.arg0, h.arg1, h.result, h.registers, h.done⟩

/-- No read touches a command (R84). -/
theorem busRead_holdsCommand {s t : State} {off : Nat} {be : BitVec 4} (h : busRead s off be = .next t) :
    s.HoldsCommand t := by
  rw [readsHaveNoSideEffect.1 s t off be h]
  exact ⟨rfl, rfl, rfl, rfl, rfl, fun _ => rfl, id⟩

/-- A write of what is not locked resets the machine or leaves the command (R46, R50, R81). -/
theorem State.writeTarget_holdsCommand (s : State) {g : Target} (w : Word) (hl : g.lockedWhileBusy = false) :
    (s.writeTarget w g).pending = none ∨ s.HoldsCommand (s.writeTarget w g) := by
  cases g with
  | ctrl =>
    rw [State.writeTarget]
    cases hb : w.getLsbD 1 with
    | true =>
      rw [State.writeCtrl_of_srst hb]
      exact .inl rfl
    | false =>
      rw [State.writeCtrl_of_not_srst hb]
      exact .inr ⟨rfl, rfl, rfl, rfl, rfl, fun _ => rfl, id⟩
  | status => exact .inr ⟨rfl, rfl, rfl, rfl, rfl, fun _ => rfl, fun h => by simp [State.writeTarget, h]⟩
  | cmd | arg0 | arg1 | header | limb | windowReserved => cases hl
  | id | result | unmapped => exact .inr (.refl s)

/-- A legal write while a command is pending resets the machine or leaves the command. -/
theorem State.writeWord_holdsCommand {s : State} (g : Target) (w : Word) (hp : s.pending ≠ none) :
    (s.writeWord g w).pending = none ∨ s.HoldsCommand (s.writeWord g w) := by
  cases hl : g.lockedWhileBusy with
  | true =>
    rw [State.writeWord, State.busy_of_pending hp, hl]
    exact .inr ⟨rfl, rfl, rfl, rfl, rfl, fun _ => rfl, id⟩
  | false =>
    rw [State.writeWord, hl, Bool.and_false]
    exact s.writeTarget_holdsCommand w hl

/-- A write while a command is pending resets the machine or leaves the command. -/
theorem busWrite_holdsCommand {s t : State} {off : Nat} {be : BitVec 4} {w : Word} (hp : s.pending ≠ none)
    (h : busWrite s off be w = .next t) : t.pending = none ∨ s.HoldsCommand t := by
  rcases busWrite_cases s off be w with ⟨-, he⟩ | ⟨-, -, he⟩ | ⟨-, -, he⟩ <;> cases he.symm.trans h
  · exact .inr ((State.HoldsCommand.refl s).respond 0 true)
  · exact (State.writeWord_holdsCommand _ w hp).imp_right fun hk => hk.respond 0 false

/-- While a command is pending, a step ends it or leaves it. -/
theorem step_holdsCommand {s t : State} (hp : s.pending ≠ none) (h : step s = .next t) :
    t.pending = none ∨ s.HoldsCommand t := by
  cases hi : s.inputs with
  | nil => exact .inl (mpidTurn_pending (step_of_no_input hi ▸ h))
  | cons i rest =>
    rw [step_of_input hi] at h
    have taken (hk : ({ s with inputs := rest } : State).HoldsCommand t) : s.HoldsCommand t :=
      ⟨hk.pending, hk.cmd, hk.arg0, hk.arg1, hk.result, hk.registers, hk.done⟩
    cases i with
    | read off be => exact .inr (taken (busRead_holdsCommand h))
    | write off be w => exact (busWrite_holdsCommand (s := { s with inputs := rest }) hp h).imp_right taken
    | mpid => exact .inl (mpidTurn_pending h)
    | hwReset =>
      cases h
      exact .inl rfl

/-- Of all legal writes only one of CMD starts a command (R72). -/
theorem State.writeTarget_pending {s : State} {g : Target} (w : Word) (hp : s.pending = none) (hg : g ≠ .cmd) :
    (s.writeTarget w g).pending = none := by
  cases g with
  | cmd => exact absurd rfl hg
  | ctrl =>
    rw [State.writeTarget, State.writeCtrl]
    split
    · rfl
    · exact hp
  | id | status | arg0 | arg1 | result | header | limb | windowReserved | unmapped => exact hp

/-- With no command pending, a write that leaves one pending is a legal one of CMD, which accepts the word (R310). -/
theorem busWrite_starts {s t : State} {off : Nat} {be : BitVec 4} {w : Word} (hp : s.pending = none)
    (ht : t.pending ≠ none) (h : busWrite s off be w = .next t) :
    off = 0x00C ∧ be = 0xF ∧ t = (s.accept w).respond 0 false := by
  rcases busWrite_cases s off be w with ⟨-, he⟩ | ⟨-, -, he⟩ | ⟨hin, hl, -⟩
  · cases he.symm.trans h
  · cases he.symm.trans h
    exact absurd hp ht
  · obtain ⟨rfl, h4⟩ := legalAccess_iff.mp hl
    cases (busWrite_idle w hp hin h4).symm.trans h
    by_cases hg : target s.cfg.cap off = .cmd
    · rw [hg]
      exact ⟨controlTarget_eq_cmd.mp (controlTarget_of_target h4 hg rfl (by decide)), rfl, rfl⟩
    · exact absurd (State.writeTarget_pending w hp hg) ht

/-- With no command pending, a step that leaves one pending takes a legal write of CMD and accepts its word. -/
theorem step_starts {s t : State} (hp : s.pending = none) (ht : t.pending ≠ none) (h : step s = .next t) :
    ∃ w rest, s.inputs = .write 0x00C 0xF w :: rest ∧
      t = (({ s with inputs := rest } : State).accept w).respond 0 false := by
  cases hi : s.inputs with
  | nil => exact absurd (mpidTurn_pending (step_of_no_input hi ▸ h)) ht
  | cons i rest =>
    rw [step_of_input hi] at h
    cases i with
    | read off be => exact absurd ((busRead_holdsCommand h).pending.trans hp) ht
    | write off be w =>
      obtain ⟨rfl, rfl, he⟩ := busWrite_starts (s := { s with inputs := rest }) hp ht h
      exact ⟨w, rest, rfl, he⟩
    | mpid => exact absurd (mpidTurn_pending h) ht
    | hwReset =>
      cases h
      exact absurd rfl ht

/-- Settles O17: a step that starts a command accepts a word written to CMD, and CMD is read like any control word. -/
theorem onlyCmdWriteStartsCommand : Obligations.OnlyCmdWriteStartsCommand := by
  refine ⟨fun s t p h hp ht => ?_, fun s => busRead_control s (by decide) rfl rfl⟩
  obtain ⟨w, rest, hi, rfl⟩ := step_starts hp (by rw [ht]; exact Option.some_ne_none p) h
  exact ⟨w, rest, hi, (Option.some.inj ht).symm⟩

/-- Settles O20: a step that does not end the command leaves it and what it may write. -/
theorem nothingVisibleBeforeCompletion : Obligations.NothingVisibleBeforeCompletion := by
  intro s t p q hp h hq
  rcases step_holdsCommand (by rw [hp]; exact Option.some_ne_none p) h with hn | hk
  · cases hn.symm.trans hq
  · exact ⟨Option.some.inj (hq.symm.trans (hk.pending.trans hp)), hk.result, hk.registers⟩

/-- `State.latchKept` speaks of the pending command, of the registers it was latched from, and of DONE alone. -/
theorem State.HoldsCommand.latchKept {s t : State} (h : s.HoldsCommand t) (hs : s.latchKept = true) :
    t.latchKept = true := by
  unfold State.latchKept at hs ⊢
  rw [h.pending, h.cmd, h.arg0, h.arg1]
  cases hp : s.pending with
  | none => rfl
  | some p =>
    simp only [hp, Bool.and_eq_true, Bool.not_eq_true'] at hs ⊢
    exact ⟨hs.1, h.done hs.2⟩

theorem State.latchKept_of_idle {s : State} (h : s.pending = none) : s.latchKept = true := by
  rw [State.latchKept, h]

/-- Acceptance latches CMD, ARG0 and ARG1 as they then stand and clears DONE (R310). -/
theorem State.latchKept_accept (s : State) (w : Word) : (s.accept w).latchKept = true := by
  simp [State.latchKept]

/-- Settles O57: a pending command has just been accepted, or the step has left it and what it was latched from. -/
theorem stepKeepsLatchedCommand : Obligations.StepKeepsLatchedCommand := by
  intro s t hs h
  by_cases ht : t.pending = none
  · exact State.latchKept_of_idle ht
  by_cases hp : s.pending = none
  · obtain ⟨w, rest, -, rfl⟩ := step_starts hp ht h
    exact State.latchKept_accept _ w
  · exact ((step_holdsCommand hp h).resolve_left ht).latchKept hs

/-! ## Where a step stops (R70, R300, R361; log 9) -/

theorem busRead_outside {s : State} {off : Nat} (be : BitVec 4) (h : 2 ^ addrBits s.cfg.cap ≤ off) :
    busRead s off be = .fault .offsetOutsideSpace :=
  if_neg (not_lt.mpr h)

theorem busWrite_outside {s : State} {off : Nat} (be : BitVec 4) (w : Word) (h : 2 ^ addrBits s.cfg.cap ≤ off) :
    busWrite s off be w = .fault .offsetOutsideSpace :=
  if_neg (not_lt.mpr h)

/-- The MPID's turn always answers a next state: faults of commands are next states (R300). -/
theorem mpidTurn_answers (s : State) : ∃ t, mpidTurn s = .next t := by
  rcases mpidTurn_cases s with ⟨-, he⟩ | ⟨p, i, -, -, he⟩ | ⟨p, e, -, -, he⟩
  · exact ⟨_, he⟩
  · rcases exec_ends i s with ⟨c, -, -, hx⟩ | ⟨u, -, hx⟩ <;> exact ⟨_, he.trans hx⟩
  · exact ⟨_, he⟩

/-- An input inside the address space is answered by a next state. -/
theorem takeInput_answers {s : State} {i : Input} (h : i.inSpace s.cfg.cap = true) : ∃ t, takeInput s i = .next t := by
  cases i with
  | read off be => exact ⟨_, if_pos (of_decide_eq_true h)⟩
  | write off be w => exact ⟨_, if_pos (of_decide_eq_true h)⟩
  | mpid => exact mpidTurn_answers s
  | hwReset => exact ⟨_, rfl⟩

/-- Settles O25: the next input, if there is one, lies inside the space with all the others. -/
theorem stepNeverStopsInSpace : Obligations.StepNeverStopsInSpace := by
  refine ⟨fun s hs => ?answers, fun s off be w rest hoff hi => ?stops⟩
  case answers =>
    cases hi : s.inputs with
    | nil =>
      rw [step_of_no_input hi]
      exact mpidTurn_answers s
    | cons i rest =>
      rw [step_of_input hi]
      exact takeInput_answers (s := { s with inputs := rest })
        (List.all_eq_true.mp hs i (by rw [hi]; exact List.mem_cons_self))
  case stops =>
    rcases hi with hi | hi <;> rw [step_of_input hi]
    · exact busRead_outside (s := { s with inputs := rest }) be hoff
    · exact busWrite_outside (s := { s with inputs := rest }) be w hoff

end Sys2Proof.Machine
end

section
/-!
PROOFS. The statements of spec/30_encoding.md: a row of the opcode map accepts exactly the words with its opcode and 0
in RSV and in every field its format does not use (R102-R105), at most one row accepts any word (R107), and so the
decoder and the encoder undo each other.
-/

namespace Sys2Proof

/-! ## A word is its fields (R101) -/

theorem append_eq_append_iff {m n : Nat} {x a : BitVec m} {y b : BitVec n} : x ++ y = a ++ b ↔ x = a ∧ y = b := by
  refine ⟨fun h => ?_, fun ⟨hx, hy⟩ => by rw [hx, hy]⟩
  obtain rfl : y = b := by simpa only [BitVec.setWidth_append_eq_right] using congrArg (BitVec.setWidth n) h
  exact ⟨(BitVec.append_left_inj y).mp h, rfl⟩

theorem six_fields_eq_iff {x a : BitVec 8} {y1 b1 y2 b2 y3 b3 y4 b4 : BitVec 4} {z c : BitVec 8} :
    x ++ y1 ++ y2 ++ y3 ++ y4 ++ z = a ++ b1 ++ b2 ++ b3 ++ b4 ++ c ↔
      x = a ∧ y1 = b1 ∧ y2 = b2 ∧ y3 = b3 ∧ y4 = b4 ∧ z = c := by
  simp only [append_eq_append_iff, and_assoc]

theorem fields_append (w : Word) :
    rsvField w ++ regBits (rd2Field w) ++ regBits (rs2Field w) ++ regBits (rs1Field w) ++ regBits (rdField w) ++
      opField w = w := by
  apply BitVec.eq_of_toNat_eq
  have := w.isLt
  simp only [toNat_append_add, rsvField, opField, regBits, BitVec.toNat_ofFin, BitVec.extractLsb'_toNat,
    Nat.shiftRight_eq_div_pow, rdField, rs1Field, rs2Field, rd2Field, regField_val]
  omega

theorem packWord_fields {w : Word} (h : rsvField w = 0) :
    packWord (opField w) (rdField w) (rd2Field w) (rs1Field w) (rs2Field w) = w := by
  have hw := fields_append w
  rwa [h] at hw

theorem regBits_eq_zero_iff {r : Reg} : regBits r = 0#4 ↔ r = 0 :=
  ⟨fun h => congrArg BitVec.toFin h, fun h => by rw [h, regBits_zero]⟩

/-! ## What a row accepts (R102-R105) -/

/-- Masking by fields leaves an opcode's word iff every bit the mask keeps is 0, but for that opcode. -/
theorem and_fieldMask_eq_iff {w : Word} {op : BitVec 8} {a b c d : BitVec 4} :
    w &&& fieldMask a b c d = op.setWidth 32 ↔
      rsvField w = 0 ∧ opField w = op ∧ regBits (rdField w) &&& a = 0 ∧ regBits (rd2Field w) &&& b = 0 ∧
        regBits (rs1Field w) &&& c = 0 ∧ regBits (rs2Field w) &&& d = 0 := by
  have hfields : w &&& fieldMask a b c d = rsvField w ++ (regBits (rd2Field w) &&& b) ++ (regBits (rs2Field w) &&& d) ++
      (regBits (rs1Field w) &&& c) ++ (regBits (rdField w) &&& a) ++ opField w := by
    conv_lhs => rw [← fields_append w]
    refine (six_fields_and ..).trans ?_
    rw [show rsvField w &&& 0xFF#8 = rsvField w from BitVec.and_allOnes,
      show opField w &&& 0xFF#8 = opField w from BitVec.and_allOnes]
  rw [hfields, ← zero_fields]
  refine six_fields_eq_iff.trans ?_
  tauto

/-- The fields that a format does not use (R102) are 0 (R103). -/
def Format.UnusedZero (f : Format) (rd rd2 rs1 rs2 : Reg) : Prop :=
  match f with
  | .n => rd = 0 ∧ rd2 = 0 ∧ rs1 = 0 ∧ rs2 = 0
  | .d => rd2 = 0 ∧ rs1 = 0 ∧ rs2 = 0
  | .ds => rd2 = 0 ∧ rs2 = 0
  | .dss => rd2 = 0
  | .ddss => True
  | .dds => rs2 = 0
  | .s => rd = 0 ∧ rd2 = 0 ∧ rs2 = 0
  | .ss => rd = 0 ∧ rd2 = 0

/-- "A word w is command X iff (w AND mask) = match" (R105), by fields. -/
theorem Row.and_mask_eq_iff {r : Row} {w : Word} :
    w &&& r.mask = r.matchWord ↔ rsvField w = 0 ∧ opField w = r.op ∧
      r.format.UnusedZero (rdField w) (rd2Field w) (rs1Field w) (rs2Field w) := by
  have hall : ∀ q : Reg, regBits q &&& 0xF#4 = 0#4 ↔ q = 0 := fun q => by
    rw [show regBits q &&& 0xF#4 = regBits q from BitVec.and_allOnes, regBits_eq_zero_iff]
  rw [Row.mask, Row.matchWord, Format.mask_eq]
  cases r.format <;> simp [and_fieldMask_eq_iff, Format.UnusedZero, hall]

theorem Row.accepts_iff {r : Row} {w : Word} : r.accepts w = true ↔ w &&& r.mask = r.matchWord := beq_iff_eq

theorem opcodeMap_ops_nodup : (opcodeMap.map Row.op).Nodup := by decide

theorem row_eq_of_op_eq {r q : Row} (hr : r ∈ opcodeMap) (hq : q ∈ opcodeMap) (h : r.op = q.op) : r = q :=
  List.inj_on_of_nodup_map opcodeMap_ops_nodup hr hq h

theorem Row.opField_of_accepts {r : Row} {w : Word} (h : w &&& r.mask = r.matchWord) : opField w = r.op :=
  (Row.and_mask_eq_iff.mp h).2.1

/-- "At most one row matches any word" (R107). -/
theorem row_unique {r q : Row} {w : Word} (hr : r ∈ opcodeMap) (hq : q ∈ opcodeMap) (hrw : w &&& r.mask = r.matchWord)
    (hqw : w &&& q.mask = q.matchWord) : r = q :=
  row_eq_of_op_eq hr hq ((Row.opField_of_accepts hrw).symm.trans (Row.opField_of_accepts hqw))

/-! ## The decoder, by rows (R107) -/

/-- A word decodes to a command iff some row accepts it and makes the command from the word's fields. -/
theorem decode_eq_ok_iff {w : Word} {i : Instr} :
    decode w = .ok i ↔ ∃ r ∈ opcodeMap, w &&& r.mask = r.matchWord ∧
      r.make (rdField w) (rd2Field w) (rs1Field w) (rs2Field w) = i := by
  unfold decode
  cases hf : opcodeMap.find? (fun r => r.accepts w) with
  | none =>
    have hnone := List.find?_eq_none.mp hf
    exact ⟨(nomatch ·), fun ⟨r, hr, ha, _⟩ => absurd (Row.accepts_iff.mpr ha) (hnone r hr)⟩
  | some q =>
    have hq : q ∈ opcodeMap := List.mem_of_find?_eq_some hf
    have ha : w &&& q.mask = q.matchWord := Row.accepts_iff.mp (List.find?_some (p := (Row.accepts · w)) hf)
    refine ⟨fun h => ⟨q, hq, ha, Except.ok.inj h⟩, fun ⟨r, hr, hra, hm⟩ => ?_⟩
    rw [← hm, row_unique hr hq hra ha]

theorem decode_of_no_row {w : Word} (h : ∀ r ∈ opcodeMap, w &&& r.mask ≠ r.matchWord) : ∃ e, decode w = .error e := by
  cases hd : decode w with
  | error e => exact ⟨e, rfl⟩
  | ok i =>
    obtain ⟨r, hr, ha, -⟩ := decode_eq_ok_iff.mp hd
    exact absurd ha (h r hr)

/-! ## Round trips -/

/-- Some row of the opcode map accepts every command's word and makes the command again. -/
theorem rowMatches (i : Instr) : Laws.RowMatches.Statement i := by
  cases i with
  | nop => exact Laws.RowMatches.nop
  | mov rd rs1 => exact Laws.RowMatches.mov rd rs1
  | ldi rd => exact Laws.RowMatches.ldi rd
  | add rd rs1 rs2 => exact Laws.RowMatches.add rd rs1 rs2
  | sub rd rs1 rs2 => exact Laws.RowMatches.sub rd rs1 rs2
  | cmp rs1 rs2 => exact Laws.RowMatches.cmp rs1 rs2
  | cmpm rs1 rs2 => exact Laws.RowMatches.cmpm rs1 rs2
  | bits rs1 => exact Laws.RowMatches.bits rs1
  | shl rd rs1 => exact Laws.RowMatches.shl rd rs1
  | shr rd rs1 => exact Laws.RowMatches.shr rd rs1
  | mul rd rs1 rs2 => exact Laws.RowMatches.mul rd rs1 rs2
  | div rd rd2 rs1 rs2 => exact Laws.RowMatches.div rd rd2 rs1 rs2
  | diva rd rs1 rs2 => exact Laws.RowMatches.diva rd rs1 rs2
  | divx rd rd2 rs1 rs2 => exact Laws.RowMatches.divx rd rd2 rs1 rs2
  | remove rd rs1 rs2 => exact Laws.RowMatches.remove rd rs1 rs2
  | pow rd rs1 => exact Laws.RowMatches.pow rd rs1
  | sqrt rd rd2 rs1 => exact Laws.RowMatches.sqrt rd rd2 rs1
  | cbrt rd rd2 rs1 => exact Laws.RowMatches.cbrt rd rd2 rs1
  | root rd rd2 rs1 => exact Laws.RowMatches.root rd rd2 rs1

/-- Settles O1: the row that accepts a command's word makes the command again from the word's fields. -/
theorem decodeOfEncode : Obligations.DecodeOfEncode := by
  intro i
  obtain ⟨k, r, hr, -, ha, hm⟩ := rowMatches i
  exact decode_eq_ok_iff.mpr ⟨r, List.mem_of_getElem? hr, Row.accepts_iff.mp ha, hm⟩

/-- The word of the command that a row makes: the row's opcode with the fields it was made from, those that the row
drops being 0. -/
theorem encode_make {r : Row} (hr : r ∈ opcodeMap) {rd rd2 rs1 rs2 : Reg} (h : r.format.UnusedZero rd rd2 rs1 rs2) :
    encode (r.make rd rd2 rs1 rs2) = packWord r.op rd rd2 rs1 rs2 := by
  unfold opcodeMap at hr
  fin_cases hr <;> simp_all [Format.UnusedZero, encode]

/-- Settles O2: an accepted word is packed from its own fields, and so is the word of the command its row makes. -/
theorem encodeOfDecode : Obligations.EncodeOfDecode := by
  intro w i h
  obtain ⟨r, hr, ha, rfl⟩ := decode_eq_ok_iff.mp h
  obtain ⟨hrsv, hop, hunused⟩ := Row.and_mask_eq_iff.mp ha
  rw [encode_make hr hunused, ← hop, packWord_fields hrsv]

/-! ## The map and the reserved words -/

/-- Settles O3: `decode_eq_ok_iff` on a word that a row accepts; two rows that accept one word have one opcode, which
the map lists once. -/
theorem decodingFollowsTheMap : Obligations.DecodingFollowsTheMap := by
  refine ⟨fun w r hr ha => decode_eq_ok_iff.mpr ⟨r, hr, ha, rfl⟩, fun w => decode_of_no_row,
    fun w k l r q hk hl hr hq => ?one_row⟩
  case one_row =>
    have hnodup : opcodeMap.Nodup := .of_map _ opcodeMap_ops_nodup
    obtain ⟨hlt, -⟩ := List.getElem?_eq_some_iff.mp hk
    have hrq : r = q := row_unique (List.mem_of_getElem? hk) (List.mem_of_getElem? hl) hr hq
    exact (List.getElem?_inj hlt hnodup).mp (by rw [hk, hl, hrq])

/-- Settles O4: an accepting row would need RSV to be 0, the word's opcode for its own, and its unused fields 0; the
word of NOP is 0, and no other word decodes to NOP. -/
theorem reservedWordsAreIllegal : Obligations.ReservedWordsAreIllegal := by
  refine ⟨fun w hrsv => decode_of_no_row fun q _ ha => ?reserved_bits,
    fun w hop => decode_of_no_row fun q hq ha => ?reserved_opcode,
    fun w r hr hop hne => decode_of_no_row fun q hq ha => ?unused_field, fun w => ⟨?only_zero, ?zero⟩⟩
  case reserved_bits => exact hrsv (Row.and_mask_eq_iff.mp ha).1
  case reserved_opcode => exact hop q hq (Row.opField_of_accepts ha).symm
  case unused_field =>
    have hqr : q = r := row_eq_of_op_eq hq hr ((Row.opField_of_accepts ha).symm.trans hop.symm)
    exact hne (hqr ▸ ha)
  case only_zero => exact fun h => (encodeOfDecode w .nop h).symm
  case zero =>
    rintro rfl
    exact decodeOfEncode .nop

/-- Settles O5, by running the decoder on each word. -/
theorem writtenOutWordsDecode : Obligations.WrittenOutWordsDecode := by
  unfold Obligations.WrittenOutWordsDecode
  decide

end Sys2Proof
end

section
/-!
PROOFS. The statements of spec/40_limb_and_adder.md: what NOP, MOV and LDI do (R131-R133), that ADD and SUB are exact or
end with CAPACITY (R138, R139), the signs that CMP and CMPM give (R140, R141), and the bit length that BITS gives
(R142). The laws of the datapaths (`signedAdd_val`, `signedCompare_eq`, `magcmp_eq`, `countBits_eq`) say what they
compute; here they are carried to the command's next state.
-/

namespace Sys2Proof.Machine

/-! ## What a completed command leaves in its destination -/

/-- Completing without fault leaves ERR as it was (R312). -/
theorem State.complete_ok (s : State) : s.complete .ok = { s with pending := none, done := true, ecode := .ok } := by
  have herr : (s.err || (ECode.ok != .ok)) = s.err := Bool.or_false _
  rw [State.complete, herr]

@[simp] theorem State.val_complete (s : State) (c : ECode) (i : Reg) : (s.complete c).val i = s.val i := rfl

/-- A value that fits is what the destination holds after the command has completed. -/
theorem State.val_complete_writeV {s : State} {rd : Reg} {z : Int} (hc : s.cfg.wf) (hz : fits s.cfg.cap z = true)
    (c : ECode) : ((s.writeV rd z).complete c).val rd = z :=
  State.val_writeV_self hc.2 hz

theorem fits_iff_lt_limbBase_pow {cap : Nat} {z : Int} : fits cap z = true ↔ z.natAbs < limbBase ^ cap := by
  rw [limbBase_pow, fits_iff]

/-- How ADD, SUB, MUL, SHL and POW end (R305): below B^CAP the value is committed and read back, from B^CAP on the
command ends with CAPACITY. -/
theorem commitFitting_spec {s : State} (hc : s.cfg.wf) (rd : Reg) (z : Int) :
    (z.natAbs < limbBase ^ s.cfg.cap →
      commitFitting s rd z = .next ((s.writeV rd z).complete .ok) ∧ ((s.writeV rd z).complete .ok).val rd = z) ∧
    (limbBase ^ s.cfg.cap ≤ z.natAbs → commitFitting s rd z = .next (s.complete .capacity)) := by
  refine ⟨fun hlt => ?_, fun hge => ?_⟩
  · have hfits := fits_iff_lt_limbBase_pow.mpr hlt
    exact ⟨if_pos hfits, State.val_complete_writeV hc hfits .ok⟩
  · exact if_neg fun hfits => absurd (fits_iff_lt_limbBase_pow.mp hfits) (not_lt.mpr hge)

/-- The bit length of a register's value fits RESULT with room to spare: it is at most 31 * CAP. -/
theorem State.bitlen_val_lt {s : State} (hc : s.cfg.wf) (i : Reg) : bitlen (s.val i).natAbs < 2 ^ 32 := by
  have hlen : bitlen (s.val i).natAbs ≤ 31 * s.cfg.cap := bitlen_le_iff.mpr (fits_iff.mp (s.fits_val i))
  have hcap := hc.2
  omega

/-! ## Each command on valid sources -/

theorem exec_mov {s : State} {rd rs1 : Reg} (h1 : s.validReg rs1 = true) :
    exec (.mov rd rs1) s = .next ((s.writeV rd (s.val rs1)).complete .ok) := by
  rw [exec, execMov, withSource_valid h1, State.operand_val, succeed]

theorem exec_add {s : State} {rd rs1 rs2 : Reg} (h1 : s.validReg rs1 = true) (h2 : s.validReg rs2 = true) :
    exec (.add rd rs1 rs2) s = commitFitting s rd (s.val rs1 + s.val rs2) := by
  have hsum := signedAdd_val (State.operand_ok h1).normal (State.operand_ok h2).normal
  rw [exec, execAdd, withSources_valid h1 h2, hsum, State.operand_val, State.operand_val]

theorem exec_sub {s : State} {rd rs1 rs2 : Reg} (h1 : s.validReg rs1 = true) (h2 : s.validReg rs2 = true) :
    exec (.sub rd rs1 rs2) s = commitFitting s rd (s.val rs1 - s.val rs2) := by
  have hsum := signedAdd_val (b := (s.operand rs2).negate) (State.operand_ok h1).normal (State.operand_ok h2).normal
  rw [exec, execSub, withSources_valid h1 h2, hsum, Operand.negate_val, State.operand_val, State.operand_val,
    ← sub_eq_add_neg]

theorem exec_cmp {s : State} {rs1 rs2 : Reg} (h1 : s.validReg rs1 = true) (h2 : s.validReg rs2 = true) :
    exec (.cmp rs1 rs2) s =
      .next ((s.writeResult (compareWord (s.val rs1 - s.val rs2).sign)).complete .ok) := by
  have hsign := signedCompare_eq (State.operand_ok h1) (State.operand_ok h2)
  rw [exec, execCmp, withSources_valid h1 h2, hsign, State.operand_val, State.operand_val, succeed]

theorem exec_cmpm {s : State} {rs1 rs2 : Reg} (h1 : s.validReg rs1 = true) (h2 : s.validReg rs2 = true) :
    exec (.cmpm rs1 rs2) s =
      .next ((s.writeResult (compareWord
        (((s.val rs1).natAbs : Int) - ((s.val rs2).natAbs : Int)).sign)).complete .ok) := by
  have hsign : magcmp (s.operand rs1).limbs (s.operand rs2).limbs =
      (((s.operand rs1).mag : Int) - (s.operand rs2).mag).sign :=
    magcmp_eq (State.operand_ok h1).normal (State.operand_ok h2).normal
  rw [exec, execCmpm, withSources_valid h1 h2, hsign, State.natAbs_val, State.natAbs_val, succeed]

theorem exec_bits {s : State} {rs1 : Reg} (h1 : s.validReg rs1 = true) :
    exec (.bits rs1) s = .next ((s.writeResult (BitVec.ofNat 32 (bitlen (s.val rs1).natAbs))).complete .ok) := by
  have hcount : countBits (s.operand rs1).limbs = bitlen (s.operand rs1).mag :=
    countBits_eq (State.operand_ok h1).normal
  rw [exec, execBits, withSource_valid h1, hcount, State.natAbs_val, succeed]

/-- LDI's immediate is made of the scalars latched at acceptance (R108, R310). -/
theorem State.imm64_of_pending {s : State} {p : Pending} (h : s.pending = some p) :
    s.imm64 = (p.arg1 ++ p.arg0).toInt := by
  rw [State.imm64, State.scalar0_of_pending h, State.scalar1_of_pending h]

theorem exec_ldi {s : State} {p : Pending} (h : s.pending = some p) (rd : Reg) :
    exec (.ldi rd) s = .next ((s.writeV rd (p.arg1 ++ p.arg0).toInt).complete .ok) := by
  rw [exec, execLdi, State.imm64_of_pending h, succeed]

/-! ## The statements -/

/-- Settles O37: on valid sources the datapath's sum and difference are exact, and `commitFitting_spec` says how a
command with that value ends. -/
theorem sumsAreExact : Obligations.SumsAreExact := by
  intro s rd rs1 rs2 hc h1 h2
  rw [exec_add h1 h2, exec_sub h1 h2]
  obtain ⟨hadd, haddCapacity⟩ := commitFitting_spec hc rd (s.val rs1 + s.val rs2)
  obtain ⟨hsub, hsubCapacity⟩ := commitFitting_spec hc rd (s.val rs1 - s.val rs2)
  exact ⟨hadd, haddCapacity, hsub, hsubCapacity⟩

/-- Settles O38, by the laws of `signed_compare` and `magcmp`. -/
theorem comparisonsGiveTheSign : Obligations.ComparisonsGiveTheSign :=
  fun _ _ _ h1 h2 => ⟨exec_cmp h1 h2, exec_cmpm h1 h2⟩

/-- Settles O39: the k is the bit length of R7, which BITS counts limb by limb. -/
theorem bitsCountsTheMagnitude : Obligations.BitsCountsTheMagnitude := by
  intro s rs1 hc h1
  refine ⟨bitlen (s.val rs1).natAbs, s.bitlen_val_lt hc rs1, lt_two_pow_bitlen _, fun h0 => ?zero,
    fun hne => ?nonzero, exec_bits h1⟩
  case zero => rw [h0, Int.natAbs_zero, bitlen_zero]
  case nonzero =>
    have hmag := Int.natAbs_ne_zero.mpr hne
    exact ⟨bitlen_pos hmag, two_pow_bitlen_sub_le hmag⟩

/-- Settles O34: NOP is its completion alone. -/
theorem nopOnlyCompletes : Obligations.NopOnlyCompletes := by
  intro s
  rw [exec, execNop, succeed, s.complete_ok]

/-- Settles O35: every register's value fits, so the copy is read back. -/
theorem movCopiesValue : Obligations.MovCopiesValue :=
  fun s _ rs1 hc h1 => ⟨exec_mov h1, State.val_complete_writeV hc (s.fits_val rs1) .ok⟩

/-- Settles O36: the immediate is the latched one, and it fits in three limbs. -/
theorem ldiLoadsImmediate : Obligations.LdiLoadsImmediate :=
  fun _ _ rd hc hp => ⟨exec_ldi hp rd, State.val_complete_writeV hc (fits_imm64 hc.1 _) .ok⟩

end Sys2Proof.Machine
end

section
/-!
PROOFS. The statements of spec/41_shifter.md: SHL multiplies by a power of two or ends with CAPACITY (R172), SHR divides
by one toward zero (R173). The laws of the datapaths (`shlMag_val`, `shrMag_val`, `shlOverflows_iff`) speak of
magnitudes; here they are carried to signed values and to the command's next state.
-/

namespace Sys2Proof.Machine

/-! ## Signed values and their magnitudes -/

theorem signed_mul_natCast (b : Bool) (m k : Nat) : signed b (m * k) = signed b m * k := by
  cases b
  case false => rw [signed_false, signed_false, Nat.cast_mul]
  case true => rw [signed_true, signed_true, Nat.cast_mul, Int.neg_mul]

/-- Dividing the magnitude and keeping the sign rounds toward zero (R173). -/
theorem signed_div_natCast (b : Bool) (m k : Nat) : signed b (m / k) = (signed b m).tdiv k := by
  cases b
  case false => rw [signed_false, signed_false, Int.ofNat_tdiv]
  case true => rw [signed_true, signed_true, Int.neg_tdiv, Int.ofNat_tdiv]

theorem natAbs_mul_two_pow (z : Int) (n : Nat) : (z * 2 ^ n).natAbs = z.natAbs * 2 ^ n := by
  have htwo : Int.natAbs 2 = 2 := rfl
  rw [Int.natAbs_mul, Int.natAbs_pow, htwo]

/-! ## What the shifters make of an operand -/

theorem Operand.shlMag_signed (a : Operand) (n : Nat) :
    signed a.neg (limbsVal (shlMag a.limbs n)) = a.val * 2 ^ n := by
  rw [shlMag_val, signed_mul_natCast, Nat.cast_pow, Nat.cast_ofNat, Operand.val, Operand.mag]

theorem Operand.shrMag_signed (a : Operand) (n : Nat) :
    signed a.neg (limbsVal (shrMag a.limbs n)) = a.val.tdiv (2 ^ n) := by
  rw [shrMag_val, signed_div_natCast, Nat.cast_pow, Nat.cast_ofNat, Operand.val, Operand.mag]

/-- The early decision of SHL (log 13) is that the exact result does not fit. -/
theorem shlOverflows_iff_not_fits {cap : Nat} {z : Int} (hz : z ≠ 0) (n : Nat) :
    shlOverflows cap z.natAbs n = true ↔ ¬ fits cap (z * 2 ^ n) = true := by
  rw [shlOverflows_iff (Int.natAbs_ne_zero.mpr hz), fits_iff, natAbs_mul_two_pow, not_lt]

/-! ## Each command on a valid source -/

/-- SHL's two shortcuts, for zero and for a count too large, end as the exact result does (R172). -/
theorem exec_shl {s : State} {rd rs1 : Reg} (h1 : s.validReg rs1 = true) :
    exec (.shl rd rs1) s = commitFitting s rd (s.val rs1 * 2 ^ s.count) := by
  rw [exec, execShl, withSource_valid h1, Operand.shlMag_signed, State.operand_val, State.operand_mag]
  by_cases hzero : s.val rs1 = 0
  case pos =>
    rw [if_pos (Int.natAbs_eq_zero.mpr hzero), hzero, zero_mul, commitFitting, if_pos (fits_zero _)]
  case neg =>
    rw [if_neg (Int.natAbs_ne_zero.mpr hzero)]
    by_cases hover : shlOverflows s.cfg.cap (s.val rs1).natAbs s.count = true
    case pos => rw [if_pos hover, commitFitting, if_neg ((shlOverflows_iff_not_fits hzero _).mp hover)]
    case neg => rw [if_neg hover]

theorem exec_shr {s : State} {rd rs1 : Reg} (h1 : s.validReg rs1 = true) :
    exec (.shr rd rs1) s = .next ((s.writeV rd ((s.val rs1).tdiv (2 ^ s.count))).complete .ok) := by
  rw [exec, execShr, withSource_valid h1, Operand.shrMag_signed, State.operand_val, succeed]

/-- Division toward zero never lengthens a value, which is why SHR has no CAPACITY. -/
theorem State.fits_val_tdiv (s : State) (i : Reg) (y : Int) : fits s.cfg.cap ((s.val i).tdiv y) = true := by
  have hle : ((s.val i).tdiv y).natAbs ≤ (s.val i).natAbs := by
    rw [Int.natAbs_tdiv]
    exact Nat.div_le_self _ _
  exact fits_of_natAbs_le hle (s.fits_val i)

/-! ## The statements -/

/-- Settles O40: SHL ends as the exact product `a * 2^n` does, and `commitFitting_spec` says how that is. -/
theorem shlMultipliesByPower : Obligations.ShlMultipliesByPower := by
  intro s rd rs1 hc h1
  rw [exec_shl h1, ← natAbs_mul_two_pow]
  exact commitFitting_spec hc rd (s.val rs1 * 2 ^ s.count)

/-- Settles O41: the quotient toward zero is what SHR writes, and it fits, so it is read back. -/
theorem shrRoundsTowardZero : Obligations.ShrRoundsTowardZero :=
  fun s _ rs1 hc h1 => ⟨exec_shr h1, State.val_complete_writeV hc (s.fits_val_tdiv rs1 _) .ok⟩

end Sys2Proof.Machine
end

section
/-!
PROOFS. The statement of spec/42_multiplier.md: MUL writes the exact product or ends with CAPACITY (R192, R305). The law
`signedMul_eq` says that the limb multiplier, its shortcut for a zero operand included, computes the product of the
operands; here it is carried to the command's next state.
-/

namespace Sys2Proof.Machine

/-- On valid sources MUL ends as the exact product does (R192). -/
theorem exec_mul {s : State} {rd rs1 rs2 : Reg} (h1 : s.validReg rs1 = true) (h2 : s.validReg rs2 = true) :
    exec (.mul rd rs1 rs2) s = commitFitting s rd (s.val rs1 * s.val rs2) := by
  have hproduct := signedMul_eq (s.operand rs1) (s.operand rs2)
  rw [exec, execMul, withSources_valid h1 h2, hproduct, State.operand_val, State.operand_val]

/-- Settles O42: on valid sources the datapath's product is exact, and `commitFitting_spec` says how a command with that
value ends. -/
theorem mulIsExact : Obligations.MulIsExact := by
  intro s rd rs1 rs2 hc h1 h2
  rw [exec_mul h1 h2]
  exact commitFitting_spec hc rd (s.val rs1 * s.val rs2)

end Sys2Proof.Machine
end

section
/-!
PROOFS. The statements of spec/43_divider.md: DIV and DIVX divide exactly (R212, R214), division by zero gives the
sentinel quotient (R211), DIVA's estimate is never above the quotient (R221-R223), REMOVE finds the multiplicity of a
divisor (R231). The laws of the dividers (`divMag_eq`, `divxMag_eq`, `estimate_le`, `removeFactor_spec`) speak of
numbers; here they are carried to the commands' next states.
-/

namespace Sys2Proof.Machine

/-! ## Quotients and remainders of registers' values -/

theorem State.fits_val_tmod (s : State) (i : Reg) (y : Int) : fits s.cfg.cap ((s.val i).tmod y) = true := by
  have hle : ((s.val i).tmod y).natAbs ≤ (s.val i).natAbs := by
    rw [Int.natAbs_tmod]
    exact Nat.mod_le _ _
  exact fits_of_natAbs_le hle (s.fits_val i)

/-- "r = 0 or sign(r) = sign(a)" (R212). -/
theorem tmod_eq_zero_or_sign_eq (x y : Int) : x.tmod y = 0 ∨ (x.tmod y).sign = x.sign := by
  by_cases hdvd : y ∣ x
  case pos => exact .inl (Int.tmod_eq_zero_of_dvd hdvd)
  case neg => exact .inr (by rw [Int.sign_tmod, if_neg hdvd])

theorem natAbs_tmod_lt (x : Int) {y : Int} (hy : y ≠ 0) : (x.tmod y).natAbs < y.natAbs := by
  rw [Int.natAbs_tmod]
  exact Nat.mod_lt _ (Int.natAbs_pos.mpr hy)

/-- A divisor of magnitude 1 is its own reciprocal. -/
theorem tdiv_eq_mul_of_natAbs_one (x : Int) {y : Int} (hy : y.natAbs = 1) : x.tdiv y = x * y := by
  rcases Int.natAbs_eq_iff.mp hy with rfl | rfl
  · rw [Nat.cast_one, Int.tdiv_one, mul_one]
  · rw [Nat.cast_one, Int.tdiv_neg, Int.tdiv_one, mul_neg_one]

/-- Each of two different destinations holds after the command what was written to it. -/
theorem State.val_complete_two_writes {s : State} {rd rd2 : Reg} {y z : Int} (hc : s.cfg.wf) (hne : rd ≠ rd2)
    (hy : fits s.cfg.cap y = true) (hz : fits s.cfg.cap z = true) :
    (((s.writeV rd y).writeV rd2 z).complete .ok).val rd = y ∧
    (((s.writeV rd y).writeV rd2 z).complete .ok).val rd2 = z := by
  refine ⟨?first, ?second⟩
  case first => rw [State.val_complete, State.val_writeV_ne hne.symm, State.val_writeV_self hc.2 hy]
  case second => exact State.val_complete_writeV (s := s.writeV rd y) hc hz .ok

/-! ## The sentinel quotient (R211) -/

theorem sentinel_eq (cap : Nat) : sentinel cap = limbBase ^ cap - 1 := by
  have hone : 1 ≤ magLimit cap := magLimit_pos cap
  rw [sentinel, Nat.cast_sub hone, magLimit, ← limbBase_pow, Nat.cast_pow, Nat.cast_one]

theorem natAbs_sentinel (cap : Nat) : (sentinel cap).natAbs = 2 ^ (31 * cap) - 1 := Int.natAbs_natCast _

theorem norm_sentinel_sign (cap : Nat) : (norm cap (sentinel cap)).sign = false := by
  rw [norm, decide_eq_false_iff_not, not_lt]
  exact Int.natCast_nonneg _

/-- The sentinel has all CAP digits: one digit fewer holds at most B^(CAP-1) - 1. -/
theorem digitCount_sentinel (cap : Nat) : digitCount (sentinel cap).natAbs = cap := by
  refine le_antisymm (digitCount_le_cap (fits_sentinel cap)) (not_lt.mp fun hlt => ?_)
  have hbelow : 2 ^ (31 * cap) - 1 < 2 ^ (31 * digitCount (sentinel cap).natAbs) := by
    rw [← natAbs_sentinel, ← digitCount_le_iff]
  have hpow : 2 ^ (31 * digitCount (sentinel cap).natAbs) < 2 ^ (31 * cap) :=
    Nat.pow_lt_pow_right one_lt_two (by omega)
  omega

theorem norm_sentinel_len {cap : Nat} (hc : cap ≤ 65535) : (norm cap (sentinel cap)).len.toNat = cap := by
  rw [norm_len_toNat hc (fits_sentinel cap), digitCount_sentinel]

/-- Every digit of B^CAP - 1 is B - 1: all its 31 bits are ones of 2^(31 * CAP) - 1. -/
theorem norm_sentinel_limb {cap j : Nat} (hj : j < cap) : limbAt (norm cap (sentinel cap)).limbs j = 0x7FFFFFFF := by
  have hones : (0x7FFFFFFF : Limb) = BitVec.allOnes 31 := by decide
  rw [norm, limbAt_digits _ _ _ hj, natAbs_sentinel, hones, digit]
  refine BitVec.eq_of_getLsbD_eq fun i hi => ?_
  have hbit : 31 * j + i < 31 * cap := by omega
  rw [BitVec.getLsbD_ofNat, Nat.testBit_shiftRight, Nat.testBit_two_pow_sub_one, decide_eq_true hbit, Bool.and_true,
    BitVec.getLsbD_allOnes]

/-! ## Each command on valid sources -/

theorem State.mag_operand_pos {s : State} {i : Reg} (h : s.val i ≠ 0) : 0 < (s.operand i).mag := by
  rw [State.natAbs_val]
  exact Int.natAbs_pos.mpr h

/-- Where the divisor is 0 the commit ignores the datapath's answer; elsewhere the two datapaths agree (R213, R214). -/
theorem commitDivision_divxMag (s : State) (rd rd2 : Reg) (e : Estimator) (a b : Operand) :
    commitDivision s rd rd2 a.val b.val (divxMag e a.mag b.mag) =
      commitDivision s rd rd2 a.val b.val (divMag a.mag b.mag) := by
  by_cases hzero : b.val = 0
  case pos => rw [commitDivision, commitDivision, if_pos hzero, if_pos hzero]
  case neg =>
    have hmag : 0 < b.mag := Nat.pos_of_ne_zero fun h0 => hzero (signed_eq_zero.mpr h0)
    rw [divxMag_eq e hmag]

theorem exec_divx_eq_div (s : State) (rd rd2 rs1 rs2 : Reg) :
    exec (.divx rd rd2 rs1 rs2) s = exec (.div rd rd2 rs1 rs2) s := by
  rw [exec, exec, execDivx, execDiv]
  simp only [commitDivision_divxMag]

theorem exec_div {s : State} {rd rd2 rs1 rs2 : Reg} (hne : rd ≠ rd2) (h1 : s.validReg rs1 = true)
    (h2 : s.validReg rs2 = true) (hb : s.val rs2 ≠ 0) :
    exec (.div rd rd2 rs1 rs2) s =
      .next (((s.writeV rd ((s.val rs1).tdiv (s.val rs2))).writeV rd2
        ((s.val rs1).tmod (s.val rs2))).complete .ok) := by
  rw [exec, execDiv, withDistinct_ne hne, withSources_valid h1 h2, divMag_eq (State.mag_operand_pos hb),
    State.natAbs_val, State.natAbs_val, State.operand_val, State.operand_val, commitDivision, if_neg hb,
    signedQuotRem_exact, succeed]

theorem exec_div_zero {s : State} {rd rd2 rs1 rs2 : Reg} (hne : rd ≠ rd2) (h1 : s.validReg rs1 = true)
    (h2 : s.validReg rs2 = true) (hb : s.val rs2 = 0) :
    exec (.div rd rd2 rs1 rs2) s =
      .next ((((s.writeV rd (sentinel s.cfg.cap)).writeV rd2 (s.val rs1)).setDz).complete .ok) := by
  rw [exec, execDiv, withDistinct_ne hne, withSources_valid h1 h2, State.operand_val, State.operand_val,
    commitDivision, if_pos hb, succeed]

theorem exec_diva_zero {s : State} {rd rs1 rs2 : Reg} (h1 : s.validReg rs1 = true) (h2 : s.validReg rs2 = true)
    (hb : s.val rs2 = 0) :
    exec (.diva rd rs1 rs2) s = .next (((s.writeV rd (sentinel s.cfg.cap)).setDz).complete .ok) := by
  rw [exec, execDiva, withSources_valid h1 h2, State.operand_val, State.operand_val, if_pos hb, succeed]

/-- The sign that DIVA gives its estimate is the product of the operands' signs (R221); a dividend of 0 has the
estimate 0, since no estimate is above the quotient (R222). -/
theorem signed_estimate (e : Estimator) {x y : Int} (hy : y ≠ 0) :
    signed (productSign x y) (estimate e x.natAbs y.natAbs) = x.sign * y.sign * estimate e x.natAbs y.natAbs := by
  by_cases hx : x = 0
  case pos =>
    subst hx
    have hle : estimate e 0 y.natAbs ≤ 0 / y.natAbs := estimate_le e (Int.natAbs_pos.mpr hy)
    rw [Nat.zero_div, Nat.le_zero] at hle
    rw [Int.natAbs_zero, hle, signed_zero, Nat.cast_zero, mul_zero]
  case neg => exact signed_productSign hx hy _

/-- An estimate is not above the dividend's magnitude, which is why DIVA has no CAPACITY. -/
theorem State.fits_estimate (s : State) (e : Estimator) (i : Reg) (neg : Bool) {y : Int} (hy : y ≠ 0) :
    fits s.cfg.cap (signed neg (estimate e (s.val i).natAbs y.natAbs)) = true := by
  refine fits_of_natAbs_le ?_ (s.fits_val i)
  rw [natAbs_signed]
  exact (estimate_le e (Int.natAbs_pos.mpr hy)).trans (Nat.div_le_self _ _)

theorem exec_diva {s : State} {rd rs1 rs2 : Reg} (h1 : s.validReg rs1 = true) (h2 : s.validReg rs2 = true)
    (hb : s.val rs2 ≠ 0) :
    exec (.diva rd rs1 rs2) s = .next ((s.writeV rd (signed (productSign (s.val rs1) (s.val rs2))
      (estimate s.cfg.estimator (s.val rs1).natAbs (s.val rs2).natAbs))).complete .ok) := by
  rw [exec, execDiva, withSources_valid h1 h2, State.operand_val, State.operand_val, if_neg hb, State.natAbs_val,
    State.natAbs_val, succeed]

theorem exec_remove_zero {s : State} {rd rs1 rs2 : Reg} (h1 : s.validReg rs1 = true) (h2 : s.validReg rs2 = true)
    (hd : s.val rs2 = 0) :
    exec (.remove rd rs1 rs2) s = .next ((((s.writeV rd (s.val rs1)).writeResult 0).setDz).complete .ok) := by
  rw [exec, execRemove, withSources_valid h1 h2, State.operand_val, State.operand_val, if_pos hd, succeed]

theorem exec_remove {s : State} {rd rs1 rs2 : Reg} (h1 : s.validReg rs1 = true) (h2 : s.validReg rs2 = true)
    (hd : s.val rs2 ≠ 0) :
    exec (.remove rd rs1 rs2) s = .next (((s.writeV rd (removeFactor (s.val rs1) (s.val rs2)).2).writeResult
      (BitVec.ofNat 32 (removeFactor (s.val rs1) (s.val rs2)).1)).complete .ok) := by
  rw [exec, execRemove, withSources_valid h1 h2, State.operand_val, State.operand_val, if_neg hd, succeed]

/-! ## Maximal multiplicity (R231) -/

/-- A cofactor that d does not divide makes the multiplicity maximal. -/
theorem not_pow_succ_dvd {c d : Int} (k : Nat) (hd : d ≠ 0) (hc : ¬ d ∣ c) : ¬ d ^ (k + 1) ∣ c * d ^ k := by
  rw [pow_succ', mul_dvd_mul_iff_right (pow_ne_zero k hd)]
  exact hc

/-- The multiplicity fits RESULT. -/
theorem State.removeFactor_count_lt {s : State} (hc : s.cfg.wf) (i : Reg) {d : Int} (hd : d ≠ 0) :
    (removeFactor (s.val i) d).1 < 2 ^ 32 :=
  lt_of_le_of_lt (removeFactor_count_le hd) (max_lt (by norm_num) (s.bitlen_val_lt hc i))

/-! ## The statements -/

/-- Settles O43: both write the quotient toward zero and its remainder, which the laws of R212 characterise. -/
theorem divisionIsExact : Obligations.DivisionIsExact := by
  intro s rd rd2 rs1 rs2 hc hne h1 h2 hb
  have hexec := exec_div hne h1 h2 hb
  have hread := State.val_complete_two_writes hc hne (s.fits_val_tdiv rs1 (s.val rs2)) (s.fits_val_tmod rs1 (s.val rs2))
  exact ⟨(s.val rs1).tdiv (s.val rs2), (s.val rs1).tmod (s.val rs2), (Int.tdiv_mul_add_tmod _ _).symm,
    natAbs_tmod_lt _ hb, tmod_eq_zero_or_sign_eq _ _, hexec, (exec_divx_eq_div ..).trans hexec, hread⟩

/-- Settles O44: the three commands' endings on a divisor of 0, and what `norm` stores of the sentinel. -/
theorem divisionByZeroGivesSentinel : Obligations.DivisionByZeroGivesSentinel := by
  intro s rd rd2 rs1 rs2 hc hne h1 h2 hb
  rw [← sentinel_eq, exec_divx_eq_div]
  have hdiv := exec_div_zero hne h1 h2 hb
  exact ⟨hdiv, hdiv, exec_diva_zero h1 h2 hb, norm_sentinel_sign _, norm_sentinel_len hc.2,
    fun _ hj => norm_sentinel_limb hj⟩

/-- Settles O45: `divx_mag` equals `div_mag` for every ESTIMATOR. -/
theorem divxEqualsDiv : Obligations.DivxEqualsDiv := exec_divx_eq_div

/-- Settles O46: E is the ESTIMATOR's answer for the magnitudes, which R222 bounds by the quotient. -/
theorem divaNeverOverestimates : Obligations.DivaNeverOverestimates := by
  intro s rd rs1 rs2 hc h1 h2 hb
  have hbound := estimate_le s.cfg.estimator (A := (s.val rs1).natAbs) (Int.natAbs_pos.mpr hb)
  have hfits := s.fits_estimate s.cfg.estimator rs1 (productSign (s.val rs1) (s.val rs2)) hb
  refine ⟨estimate s.cfg.estimator (s.val rs1).natAbs (s.val rs2).natAbs, hbound, ?_⟩
  rw [← signed_estimate s.cfg.estimator hb]
  refine ⟨exec_diva h1 h2 hb, State.val_complete_writeV hc hfits .ok, fun href => ?_⟩
  rw [href]
  refine ⟨rfl, fun hsmall => ?_⟩
  have hexact : estimate .estRef (s.val rs1).natAbs (s.val rs2).natAbs = (s.val rs1).natAbs / (s.val rs2).natAbs :=
    estRef_exact (bitlen_le_iff.mpr hsmall)
  rw [hexact, signed_div_eq_tdiv]

/-- Settles O47, with the multiplicity and the cofactor that `remove_core` finds. -/
theorem removeFindsMultiplicity : Obligations.RemoveFindsMultiplicity := by
  intro s rd rs1 rs2 hc h1 h2 hv hd
  have hd0 : s.val rs2 ≠ 0 := by omega
  obtain ⟨hfactor, hcofactor⟩ := removeFactor_spec hv hd
  have hmax := not_pow_succ_dvd (removeFactor (s.val rs1) (s.val rs2)).1 hd0 hcofactor
  rw [← hfactor] at hmax
  have hfits := fits_of_natAbs_le (removeFactor_natAbs_le hd0) (s.fits_val rs1)
  exact ⟨_, _, hfactor, hmax, s.removeFactor_count_lt hc rs1 hd0, exec_remove h1 h2 hd0,
    State.val_complete_writeV hc hfits .ok⟩

/-- Settles O48: the three cases that R231 decides before `remove_core` runs. -/
theorem removeDegenerateInputs : Obligations.RemoveDegenerateInputs := by
  intro s rd rs1 rs2 h1 h2
  refine ⟨exec_remove_zero h1 h2, fun hd hv => ?zeroValue, fun hd hv => ?unitDivisor⟩
  case zeroValue =>
    rw [exec_remove h1 h2 hd, hv, removeFactor_zero]
    rfl
  case unitDivisor =>
    have hd0 : s.val rs2 ≠ 0 := by omega
    rw [exec_remove h1 h2 hd0, removeFactor_unit hv hd, tdiv_eq_mul_of_natAbs_one _ hd]
    rfl

end Sys2Proof.Machine
end

section
/-!
PROOFS. The statements of spec/44_power_root.md: POW is exact or ends with CAPACITY (R251, R305), SQRT, CBRT and ROOT
write the integer root and its remainder (R253, R255, R257). The three root commands are one command at the degrees 2, 3
and n (`rootCommand`), so that the law of the root of R257 (`signedRoot_eq`) serves all of them.
-/

namespace Sys2Proof.Machine

/-! ## POW (R251) -/

/-- On a valid source POW ends as the exact power does: its early decision is taken only on powers that do not fit. -/
theorem exec_pow {s : State} {rd rs1 : Reg} (hc : s.cfg.wf) (h1 : s.validReg rs1 = true) :
    exec (.pow rd rs1) s = commitFitting s rd (s.val rs1 ^ s.count) := by
  rw [exec, execPow, withSource_valid h1, State.operand_val, State.operand_mag, powCore_eq s.count_lt]
  by_cases hover : powOverflows s.cfg.cap (s.val rs1).natAbs s.count = true
  case pos =>
    have hcap : 0 < s.cfg.cap := lt_of_lt_of_le (by norm_num) hc.1
    have hbig := powOverflows_sound hcap hover
    rw [if_pos hover, commitFitting, if_neg]
    rw [fits_iff, Int.natAbs_pow]
    exact not_lt.mpr hbig
  case neg => rw [if_neg hover]

/-! ## Integer roots (R7) -/

theorem isIroot_le {m k A n : Nat} (hm : isIroot m A n) (hk : isIroot k A n) : m ≤ k :=
  Nat.lt_succ_iff.mp (lt_of_pow_lt_pow_left₀ n (Nat.zero_le _) (lt_of_le_of_lt hm.1 hk.2))

theorem isIroot_unique {m k A n : Nat} (hm : isIroot m A n) (hk : isIroot k A n) : m = k :=
  le_antisymm (isIroot_le hm hk) (isIroot_le hk hm)

theorem isIroot_zero {n : Nat} (hn : n ≠ 0) : isIroot 0 0 n :=
  ⟨(zero_pow hn).le, Nat.pow_pos one_pos⟩

/-- A root with the sign bit of the radicand is sgn(a) times it, since the root of 0 is 0. -/
theorem signed_iroot {a : Int} {m n : Nat} (hn : n ≠ 0) (hm : isIroot m a.natAbs n) :
    signed (decide (a < 0)) m = a.sign * m := by
  by_cases h0 : a = 0
  case pos =>
    subst h0
    rw [isIroot_unique hm (isIroot_zero hn), signed_zero, Nat.cast_zero, mul_zero]
  case neg => exact signed_eq_sign_mul a m h0

/-- R257: "sgn(a) * iroot(|a|, n)" where a ≥ 0 or n is odd. -/
theorem signedRoot_eq {a : Int} {n : Nat} (hn : n ≠ 0) (h : 0 ≤ a ∨ n % 2 = 1) :
    ∃ m, isIroot m a.natAbs n ∧ signedRoot a n = a.sign * m := by
  obtain ⟨m, hm, heq⟩ := signedRoot_spec hn h
  exact ⟨m, hm, heq.trans (signed_iroot hn hm)⟩

/-! ## The root of degree 2 is SQRT's, of degree 3 CBRT's (R257) -/

theorem signedRoot_two_of_nonpos {a : Int} (h : a ≤ 0) : signedRoot a 2 = 0 := by
  rcases h.lt_or_eq with hneg | rfl
  · exact signedRoot_even hneg rfl
  · rfl

theorem signedRoot_two_of_nonneg {a : Int} (h : 0 ≤ a) : signedRoot a 2 = (sqrtCore a.natAbs).1 := by
  obtain ⟨m, hm, heq⟩ := signedRoot_spec two_ne_zero (.inl h)
  rw [heq, decide_eq_false (not_lt.mpr h), signed_false, isIroot_unique hm (sqrtCore_isqrt _)]

/-- SQRT's remainder is what the square of its root leaves of the radicand (R252). -/
theorem sqrtCore_remainder {a : Int} (h : 0 ≤ a) : ((sqrtCore a.natAbs).2 : Int) = a - (sqrtCore a.natAbs).1 ^ 2 := by
  have hsum : ((sqrtCore a.natAbs).1 : Int) ^ 2 + (sqrtCore a.natAbs).2 = a.natAbs := by
    exact_mod_cast (sqrtCore_spec a.natAbs).1
  omega

theorem Operand.mag_eq_natAbs_val (a : Operand) : a.mag = a.val.natAbs := (natAbs_signed _ _).symm

/-- The sign bit of an operand that is not 0 is that of its value, valid register or not. -/
theorem Operand.neg_eq {a : Operand} (h : a.mag ≠ 0) : a.neg = decide (a.val < 0) := by
  have hval : a.val = signed a.neg a.mag := rfl
  cases hneg : a.neg
  case false =>
    rw [hneg, signed_false] at hval
    exact (decide_eq_false (by omega)).symm
  case true =>
    rw [hneg, signed_true] at hval
    exact (decide_eq_true (by omega)).symm

theorem signedCbrt_eq_signedRoot (a : Operand) : signedCbrt a = signedRoot a.val 3 := by
  obtain ⟨m, hm, hroot⟩ := signedRoot_spec (a := a.val) three_ne_zero (.inr rfl)
  obtain ⟨k, hk, hcbrt⟩ := signedCbrt_spec a
  rw [← a.mag_eq_natAbs_val] at hm
  rw [hcbrt, hroot, isIroot_unique hm hk]
  by_cases h0 : a.mag = 0
  case pos =>
    rw [h0] at hk
    rw [isIroot_unique hk (isIroot_zero three_ne_zero), signed_zero, signed_zero]
  case neg => rw [Operand.neg_eq h0]

/-! ## The root commands as one -/

/-- ROOT of a degree n that is not 0, the degree given: the root of R257 and what its power leaves of the radicand. -/
def rootCommand (s : State) (rd rd2 rs1 : Reg) (n : Nat) : Result :=
  withDistinct s rd rd2 (withSource s rs1 fun a =>
    succeed ((s.writeV rd (signedRoot a.val n)).writeV rd2 (a.val - signedRoot a.val n ^ n)))

theorem exec_root {s : State} {rd rd2 rs1 : Reg} (hn : s.count ≠ 0) :
    exec (.root rd rd2 rs1) s = rootCommand s rd rd2 rs1 s.count := by
  simp only [exec, execRoot, rootCommand, if_neg hn, powCore_eq s.count_lt]

theorem exec_sqrt (s : State) (rd rd2 rs1 : Reg) :
    exec (.sqrt rd rd2 rs1) s = rootCommand s rd rd2 rs1 2 := by
  rw [exec, execSqrt, rootCommand]
  congr 2
  funext a
  by_cases h : a.val ≤ 0
  case pos => rw [if_pos h, signedRoot_two_of_nonpos h, zero_pow two_ne_zero, sub_zero]
  case neg =>
    have hnonneg : 0 ≤ a.val := (not_le.mp h).le
    rw [if_neg h, a.mag_eq_natAbs_val, signedRoot_two_of_nonneg hnonneg, sqrtCore_remainder hnonneg]

theorem exec_cbrt (s : State) (rd rd2 rs1 : Reg) :
    exec (.cbrt rd rd2 rs1) s = rootCommand s rd rd2 rs1 3 := by
  simp only [exec, execCbrt, rootCommand, signedCbrt_eq_signedRoot]

/-- On a valid source and different destinations a root command writes the root and its remainder, and since both fit
they are read back. -/
theorem rootCommand_spec {s : State} {rd rd2 rs1 : Reg} {n : Nat} (hc : s.cfg.wf) (hne : rd ≠ rd2)
    (h1 : s.validReg rs1 = true) (hn : n ≠ 0) {x r : Int} (hx : x = signedRoot (s.val rs1) n)
    (hr : r = s.val rs1 - x ^ n) :
    rootCommand s rd rd2 rs1 n = .next (((s.writeV rd x).writeV rd2 r).complete .ok) ∧
    (((s.writeV rd x).writeV rd2 r).complete .ok).val rd = x ∧
    (((s.writeV rd x).writeV rd2 r).complete .ok).val rd2 = r := by
  subst hx hr
  obtain ⟨hroot, hremainder⟩ := signedRoot_fits hn (s.fits_val rs1)
  rw [rootCommand, withDistinct_ne hne, withSource_valid h1, State.operand_val, succeed]
  exact ⟨rfl, State.val_complete_two_writes hc hne hroot hremainder⟩

/-! ## The statements -/

/-- Settles O49: POW ends as the exact power does, and `commitFitting_spec` says how that is. -/
theorem powIsExact : Obligations.PowIsExact := by
  intro s rd rs1 hc h1
  rw [exec_pow hc h1, ← Int.natAbs_pow]
  exact commitFitting_spec hc rd (s.val rs1 ^ s.count)

/-- Settles O50: SQRT is the root command of degree 2, whose remainder `sqrtCore_spec` bounds. -/
theorem sqrtIsTheIntegerRoot : Obligations.SqrtIsTheIntegerRoot := by
  intro s rd rd2 rs1 hc hne h1
  rw [exec_sqrt]
  refine ⟨signedRoot (s.val rs1) 2, _, add_sub_cancel _ _, fun hnonneg => ?root,
    fun hneg => signedRoot_even hneg rfl, rootCommand_spec hc hne h1 two_ne_zero rfl rfl⟩
  rw [signedRoot_two_of_nonneg hnonneg, ← sqrtCore_remainder hnonneg]
  exact ⟨Int.natCast_nonneg _, Int.natCast_nonneg _, by exact_mod_cast (sqrtCore_spec _).2⟩

/-- Settles O51: CBRT is the root command of degree 3, which is odd. -/
theorem cbrtIsTheIntegerRoot : Obligations.CbrtIsTheIntegerRoot := by
  intro s rd rd2 rs1 hc hne h1
  obtain ⟨m, ⟨hlo, hhi⟩, heq⟩ := signedRoot_eq (a := s.val rs1) three_ne_zero (.inr rfl)
  rw [exec_cbrt]
  exact ⟨m, hlo, hhi, rootCommand_spec hc hne h1 three_ne_zero heq.symm rfl⟩

/-- Settles O52, by the two cases of R257: the root is signed, or it is 0. -/
theorem rootIsTheIntegerRoot : Obligations.RootIsTheIntegerRoot := by
  intro s rd rd2 rs1 hc hne h1 hn
  rw [exec_root hn]
  refine ⟨signedRoot (s.val rs1) s.count, fun hsigned => ?_, signedRoot_even,
    rootCommand_spec hc hne h1 hn rfl rfl⟩
  obtain ⟨m, ⟨hlo, hhi⟩, heq⟩ := signedRoot_eq hn hsigned
  exact ⟨m, heq, hlo, hhi⟩

/-- Settles O54: the three commands are one command at their degrees, faults included. -/
theorem rootAgreesWithSqrtAndCbrt : Obligations.RootAgreesWithSqrtAndCbrt := by
  intro s rd rd2 rs1
  rw [exec_sqrt, exec_cbrt]
  refine ⟨fun hn => ?two, fun hn => ?three⟩
  case two => rw [exec_root (by omega), hn]
  case three => rw [exec_root (by omega), hn]

end Sys2Proof.Machine
end

section
/-!
PROOFS. The statements of spec/60_exceptions.md: acceptance and the turn that completes a command (R310, R311), the
status update of completion and the precision of faults (R309, R312), and which command ends with which code (R301-R306)
in the priority of R308, with ROOT's fault ARG (R306). `exec_checked` says once in which order every command is checked
and which codes are left to it when both checks pass; the statements about ALIAS, OPERAND, ARG and CAPACITY are read off
it.
-/

namespace Sys2Proof.Machine

/-! ## Completion (R309, R312) -/

/-- Completing with a fault's code sets ERR (R312); `State.complete_ok` is the other half. -/
theorem State.complete_fault (s : State) {c : ECode} (hc : c ≠ .ok) :
    s.complete c = { s with pending := none, done := true, err := true, ecode := c } := by
  have herr : (s.err || c != .ok) = true := by rw [bne_iff_ne.mpr hc, Bool.or_true]
  rw [State.complete, herr]

/-- Settles O26, by the two ways every command ends: a fault's code over the old state, or a commit. -/
theorem everyCommandCompletes : Obligations.EveryCommandCompletes := by
  intro i s
  rcases exec_ends i s with ⟨c, -, -, he⟩ | ⟨u, hu, he⟩
  · exact ⟨_, he, rfl, rfl, rfl, rfl, id, fun _ => rfl, fun _ => rfl⟩
  · have herr : (u.complete .ok).err = (s.err || (u.complete .ok).ecode != .ok) := by
      rw [State.complete_err, State.complete_ecode, hu.err]
    exact ⟨_, he, rfl, rfl, rfl, herr, hu.dz_kept, fun h => absurd rfl h, hu.frame.dz⟩

/-- Settles O27: a command that does not commit completes the state it found. -/
theorem faultsArePrecise : Obligations.FaultsArePrecise := by
  intro i s t h hfault
  rcases exec_next h with ⟨c, hc, -, rfl⟩ | ⟨u, -, rfl⟩
  · exact s.complete_fault hc
  · exact absurd rfl hfault

/-! ## The checks in their order (R303, R304, R308) -/

@[simp] theorem withDistinct_self (s : State) (rd : Reg) (k : Result) :
    withDistinct s rd rd k = raiseFault s .destAlias := if_pos rfl

theorem withSource_invalid {s : State} {rs1 : Reg} (h : s.validReg rs1 = false) (k : Operand → Result) :
    withSource s rs1 k = raiseFault s .operand := if_neg (by rw [h]; exact Bool.false_ne_true)

/-- The codes that are left to a command once its destinations and its sources have passed: none but success, ARG for
ROOT (R306), and CAPACITY for the five commands whose result may not fit (R305). -/
inductive OwnCode : Instr → ECode → Prop
  | ok (i : Instr) : OwnCode i .ok
  | arg (rd rd2 rs1 : Reg) : OwnCode (.root rd rd2 rs1) .arg
  | add (rd rs1 rs2 : Reg) : OwnCode (.add rd rs1 rs2) .capacity
  | sub (rd rs1 rs2 : Reg) : OwnCode (.sub rd rs1 rs2) .capacity
  | mul (rd rs1 rs2 : Reg) : OwnCode (.mul rd rs1 rs2) .capacity
  | shl (rd rs1 : Reg) : OwnCode (.shl rd rs1) .capacity
  | pow (rd rs1 : Reg) : OwnCode (.pow rd rs1) .capacity

/-- The command's own part answers with one of its own codes. -/
def EndsWithOwnCode (i : Instr) (r : Result) : Prop := ∃ t, r = .next t ∧ OwnCode i t.ecode

theorem EndsWithOwnCode.succeed (i : Instr) (s : State) : EndsWithOwnCode i (succeed s) := ⟨_, rfl, .ok i⟩

theorem EndsWithOwnCode.fault {i : Instr} {c : ECode} (h : OwnCode i c) (s : State) :
    EndsWithOwnCode i (raiseFault s c) := ⟨_, rfl, h⟩

theorem EndsWithOwnCode.fitting {i : Instr} (h : OwnCode i .capacity) (s : State) (rd : Reg) (z : Int) :
    EndsWithOwnCode i (commitFitting s rd z) := by
  unfold commitFitting
  split
  · exact .succeed i _
  · exact .fault h s

theorem EndsWithOwnCode.division (i : Instr) (s : State) (rd rd2 : Reg) (x y : Int) (qr : Nat × Nat) :
    EndsWithOwnCode i (commitDivision s rd rd2 x y qr) := by
  unfold commitDivision
  split <;> exact .succeed i _

/-- A command's answer in the priority of R308: equal destinations, else a source that is not valid, else a code of the
command's own. The three cases exclude each other. -/
inductive Checked (i : Instr) (s : State) (r : Result) : Prop
  | destAlias (hw : i.wellFormed = false) (hr : r = .next (s.complete .destAlias))
  | operand (hw : i.wellFormed = true) (q : Reg) (hq : q ∈ i.sources) (hv : s.validReg q = false)
      (hr : r = .next (s.complete .operand))
  | own (hw : i.wellFormed = true) (hv : ∀ q ∈ i.sources, s.validReg q = true) (hr : EndsWithOwnCode i r)

theorem Checked.source {i : Instr} {s : State} {rs1 : Reg} {k : Operand → Result} (hw : i.wellFormed = true)
    (hs : i.sources = [rs1]) (h : EndsWithOwnCode i (k (s.operand rs1))) : Checked i s (withSource s rs1 k) := by
  cases h1 : s.validReg rs1
  case false => exact .operand hw rs1 (by simp [hs]) h1 (withSource_invalid h1 k)
  case true =>
    rw [withSource_valid h1]
    exact .own hw (by simpa [hs] using h1) h

theorem Checked.sources {i : Instr} {s : State} {rs1 rs2 : Reg} {k : Operand → Operand → Result}
    (hw : i.wellFormed = true) (hs : i.sources = [rs1, rs2])
    (h : EndsWithOwnCode i (k (s.operand rs1) (s.operand rs2))) : Checked i s (withSources s rs1 rs2 k) := by
  cases h1 : s.validReg rs1
  case false => exact .operand hw rs1 (by simp [hs]) h1 (withSource_invalid h1 _)
  case true =>
    cases h2 : s.validReg rs2
    case false =>
      exact .operand hw rs2 (by simp [hs]) h2 ((withSource_valid h1 _).trans (withSource_invalid h2 _))
    case true =>
      rw [withSources_valid h1 h2]
      exact .own hw (by simp [hs, h1, h2]) h

theorem Checked.distinct {i : Instr} {s : State} {rd rd2 : Reg} {k : Result} (hd : i.wellFormed = (rd != rd2))
    (h : i.wellFormed = true → Checked i s k) : Checked i s (withDistinct s rd rd2 k) := by
  by_cases he : rd = rd2
  case pos =>
    subst he
    exact .destAlias (hd.trans (bne_self_eq_false rd)) (withDistinct_self s rd k)
  case neg =>
    rw [withDistinct_ne he]
    exact h (hd.trans (bne_iff_ne.mpr he))

/-- Every command is checked in the order of R308. -/
theorem exec_checked (i : Instr) (s : State) : Checked i s (exec i s) := by
  cases i with
  | nop =>
    rw [exec, execNop]
    exact .own rfl (List.forall_mem_nil _) (.succeed _ _)
  | ldi rd =>
    rw [exec, execLdi]
    exact .own rfl (List.forall_mem_nil _) (.succeed _ _)
  | mov rd rs1 =>
    rw [exec, execMov]
    exact .source rfl rfl (.succeed _ _)
  | bits rs1 =>
    rw [exec, execBits]
    exact .source rfl rfl (.succeed _ _)
  | shr rd rs1 =>
    rw [exec, execShr]
    exact .source rfl rfl (.succeed _ _)
  | cmp rs1 rs2 =>
    rw [exec, execCmp]
    exact .sources rfl rfl (.succeed _ _)
  | cmpm rs1 rs2 =>
    rw [exec, execCmpm]
    exact .sources rfl rfl (.succeed _ _)
  | add rd rs1 rs2 =>
    rw [exec, execAdd]
    exact .sources rfl rfl (.fitting (.add rd rs1 rs2) s rd _)
  | sub rd rs1 rs2 =>
    rw [exec, execSub]
    exact .sources rfl rfl (.fitting (.sub rd rs1 rs2) s rd _)
  | mul rd rs1 rs2 =>
    rw [exec, execMul]
    exact .sources rfl rfl (.fitting (.mul rd rs1 rs2) s rd _)
  | shl rd rs1 =>
    rw [exec, execShl]
    refine .source rfl rfl ?_
    split
    · exact .succeed _ _
    · split
      · exact .fault (.shl rd rs1) s
      · exact .fitting (.shl rd rs1) s rd _
  | pow rd rs1 =>
    rw [exec, execPow]
    refine .source rfl rfl ?_
    split
    · exact .fault (.pow rd rs1) s
    · exact .fitting (.pow rd rs1) s rd _
  | diva rd rs1 rs2 =>
    rw [exec, execDiva]
    refine .sources rfl rfl ?_
    split <;> exact .succeed _ _
  | remove rd rs1 rs2 =>
    rw [exec, execRemove]
    refine .sources rfl rfl ?_
    split <;> exact .succeed _ _
  | div rd rd2 rs1 rs2 =>
    rw [exec, execDiv]
    exact .distinct rfl fun hw => .sources hw rfl (.division _ s rd rd2 _ _ _)
  | divx rd rd2 rs1 rs2 =>
    rw [exec, execDivx]
    exact .distinct rfl fun hw => .sources hw rfl (.division _ s rd rd2 _ _ _)
  | sqrt rd rd2 rs1 =>
    rw [exec, execSqrt]
    refine .distinct rfl fun hw => .source hw rfl ?_
    split <;> exact .succeed _ _
  | cbrt rd rd2 rs1 =>
    rw [exec, execCbrt]
    exact .distinct rfl fun hw => .source hw rfl (.succeed _ _)
  | root rd rd2 rs1 =>
    rw [exec, execRoot]
    refine .distinct rfl fun hw => .source hw rfl ?_
    split
    · exact .fault (.arg rd rd2 rs1) s
    · exact .succeed _ _

/-- `exec_checked` for a known next state: which code it shows, and why. -/
theorem exec_ecode {i : Instr} {s t : State} (h : exec i s = .next t) :
    (i.wellFormed = false ∧ t.ecode = .destAlias) ∨
    (i.wellFormed = true ∧ (∃ q ∈ i.sources, s.validReg q = false) ∧ t.ecode = .operand) ∨
    (i.wellFormed = true ∧ OwnCode i t.ecode) := by
  rcases exec_checked i s with ⟨hw, he⟩ | ⟨hw, q, hq, hv, he⟩ | ⟨hw, -, u, he, hown⟩ <;> cases he.symm.trans h
  · exact .inl ⟨hw, rfl⟩
  · exact .inr (.inl ⟨hw, ⟨q, hq, hv⟩, rfl⟩)
  · exact .inr (.inr ⟨hw, hown⟩)

/-! ## ALIAS (R303) -/

/-- What a command that is not well-formed ends with, whatever its sources and its scalar are. -/
theorem exec_of_not_wellFormed {i : Instr} (hw : i.wellFormed = false) (s : State) :
    exec i s = .next { s with pending := none, done := true, err := true, ecode := .destAlias } := by
  rcases exec_checked i s with ⟨-, he⟩ | ⟨hw', -⟩ | ⟨hw', -⟩
  · rw [he, s.complete_fault (by decide)]
  · cases hw.symm.trans hw'
  · cases hw.symm.trans hw'

theorem ecode_eq_destAlias_iff {i : Instr} {s t : State} (h : exec i s = .next t) :
    t.ecode = .destAlias ↔ i.wellFormed = false := by
  refine ⟨fun hc => ?code, fun hw => ?dests⟩
  case code =>
    rcases exec_ecode h with ⟨hw, -⟩ | ⟨-, -, hc'⟩ | ⟨-, hown⟩
    · exact hw
    · cases hc.symm.trans hc'
    · rw [hc] at hown
      cases hown
  case dests =>
    cases (exec_of_not_wellFormed hw s).symm.trans h
    rfl

/-- The commands that are not well-formed: the five of two destinations, naming one register twice. -/
theorem wellFormed_eq_false_iff {i : Instr} : i.wellFormed = false ↔
    ∃ rd rs1 rs2 : Reg, i = .div rd rd rs1 rs2 ∨ i = .divx rd rd rs1 rs2 ∨ i = .sqrt rd rd rs1 ∨ i = .cbrt rd rd rs1 ∨
      i = .root rd rd rs1 := by
  refine ⟨fun hw => ?shape, ?equal⟩
  case shape =>
    cases i with
    | div rd rd2 rs1 rs2 | divx rd rd2 rs1 rs2 =>
      obtain rfl : rd = rd2 := bne_eq_false_iff_eq.mp hw
      exact ⟨rd, rs1, rs2, by simp⟩
    | sqrt rd rd2 rs1 | cbrt rd rd2 rs1 | root rd rd2 rs1 =>
      obtain rfl : rd = rd2 := bne_eq_false_iff_eq.mp hw
      exact ⟨rd, rs1, rs1, by simp⟩
    | _ => cases hw
  case equal =>
    rintro ⟨rd, rs1, rs2, rfl | rfl | rfl | rfl | rfl⟩ <;> exact bne_self_eq_false rd

/-- Settles O29: ALIAS is the code of exactly the commands that are not well-formed. -/
theorem equalDestinationsFault : Obligations.EqualDestinationsFault := by
  refine ⟨fun s rd rs1 rs2 => ?faults, fun i s t h => (ecode_eq_destAlias_iff h).trans wellFormed_eq_false_iff⟩
  case faults =>
    refine ⟨?_, ?_, ?_, ?_, ?_⟩ <;> apply exec_of_not_wellFormed <;> exact bne_self_eq_false rd

/-! ## OPERAND (R304) -/

/-- What makes a register not valid (R35). -/
theorem VReg.valid_eq_false_iff {cap : Nat} {r : VReg} : r.valid cap = false ↔
    cap < r.len.toNat ∨ (r.len ≠ 0 ∧ limbAt r.limbs (r.len.toNat - 1) = 0) ∨ (r.len = 0 ∧ r.sign = true) := by
  rw [← Bool.not_eq_true, VReg.valid_iff, ← not_le, ← Bool.not_eq_false]
  tauto

theorem exec_of_invalid_source {i : Instr} {s : State} {q : Reg} (hw : i.wellFormed = true) (hq : q ∈ i.sources)
    (hv : s.validReg q = false) :
    exec i s = .next { s with pending := none, done := true, err := true, ecode := .operand } := by
  rcases exec_checked i s with ⟨hw', -⟩ | ⟨-, -, -, -, he⟩ | ⟨-, hvalid, -⟩
  · cases hw'.symm.trans hw
  · rw [he, s.complete_fault (by decide)]
  · cases hv.symm.trans (hvalid q hq)

/-- Settles O30: the second check of R308, after the destinations and before the scalar. -/
theorem invalidSourceFaults : Obligations.InvalidSourceFaults := by
  refine ⟨fun i s r hw hr hv => exec_of_invalid_source hw hr (VReg.valid_eq_false_iff.mpr hv), fun i s t h hc => ?_⟩
  rcases exec_ecode h with ⟨-, hc'⟩ | ⟨-, hinvalid, -⟩ | ⟨-, hown⟩
  · cases hc.symm.trans hc'
  · exact hinvalid
  · rw [hc] at hown
    cases hown

/-! ## Which codes (R301, R305, R306) -/

theorem format_of_not_wellFormed {i : Instr} (hw : i.wellFormed = false) : i.format = .ddss ∨ i.format = .dds := by
  obtain ⟨rd, rs1, rs2, rfl | rfl | rfl | rfl | rfl⟩ := wellFormed_eq_false_iff.mp hw
  exacts [.inl rfl, .inl rfl, .inr rfl, .inr rfl, .inr rfl]

theorem OwnCode.arg_only_root {i : Instr} (h : OwnCode i .arg) : ∃ rd rd2 rs1, i = .root rd rd2 rs1 := by
  cases h with
  | arg rd rd2 rs1 => exact ⟨rd, rd2, rs1, rfl⟩

theorem OwnCode.capacity_only {i : Instr} (h : OwnCode i .capacity) :
    ∃ rd rs1 rs2, i = .add rd rs1 rs2 ∨ i = .sub rd rs1 rs2 ∨ i = .mul rd rs1 rs2 ∨ i = .shl rd rs1 ∨
      i = .pow rd rs1 := by
  cases h with
  | add rd rs1 rs2 | sub rd rs1 rs2 | mul rd rs1 rs2 => exact ⟨rd, rs1, rs2, by simp⟩
  | shl rd rs1 | pow rd rs1 => exact ⟨rd, rs1, rs1, by simp⟩

/-- Settles O28: each check gives its one code, and the command's own fault codes are ARG and CAPACITY alone. -/
theorem whichCommandsRaiseWhich : Obligations.WhichCommandsRaiseWhich := by
  intro i s t _ h
  rcases exec_ecode h with ⟨hw, hc⟩ | ⟨-, ⟨q, hq, -⟩, hc⟩ | ⟨-, hown⟩
  · rw [hc]
    exact ⟨nofun, fun _ => format_of_not_wellFormed hw, nofun, nofun, nofun⟩
  · rw [hc]
    exact ⟨nofun, nofun, fun _ => List.ne_nil_of_mem hq, nofun, nofun⟩
  · have hcode {c : ECode} (hc : t.ecode = c) : OwnCode i c := hc ▸ hown
    exact ⟨(nomatch hcode ·), (nomatch hcode ·), (nomatch hcode ·), fun hc => (hcode hc).arg_only_root,
      fun hc => (hcode hc).capacity_only⟩

/-! ## ARG (R306) -/

/-- Settles O53: degree 0 is looked at once the destinations and the source have passed. -/
theorem rootOfDegreeZeroFaults : Obligations.RootOfDegreeZeroFaults := by
  intro s rd rd2 rs1 hne h1 hzero
  rw [exec, execRoot, withDistinct_ne hne, withSource_valid h1, if_pos hzero, raiseFault, s.complete_fault (by decide)]

/-! ## Acceptance and the turn that completes (R302, R310, R311) -/

/-- Settles O16: CMD is the one control register whose write accepts, and it is locked while a command is pending. -/
theorem commandAccepted : Obligations.CommandAccepted := by
  refine fun s w => ⟨fun hp => ?idle, fun hp => ?busy⟩
  case idle => exact busWrite_control w hp (by decide) rfl
  case busy => exact busWrite_of_locked w hp (control_in_space (by decide)) rfl rfl

/-- Settles O22: a step takes the next input, and the MPID's turn executes a pending word that decodes. -/
theorem stepRunsDecodedCommand : Obligations.StepRunsDecodedCommand := by
  refine ⟨fun s p i hp hd => ⟨fun hi => ?default, fun rest hi => ?mpid⟩, fun s off be rest hi => step_of_input hi,
    fun s off be w rest hi => step_of_input hi⟩
  case default => rw [step_of_no_input hi, mpidTurn_exec hp hd]
  case mpid =>
    rw [step_of_input hi]
    exact mpidTurn_exec (s := { s with inputs := rest }) hp hd

theorem State.withFetchWord_encode (s : State) (i : Instr) :
    s.withFetchWord 32 (encode i).toNat = issueNext s (encode i) := by
  rw [State.withFetchWord, Nat.mod_eq_of_lt (encode i).isLt, BitVec.ofNat_toNat, BitVec.setWidth_eq]

/-- Settles O23: the placed word decodes to its command, and the turn placed before it is taken off again. -/
theorem placedCommandRunsNext : Obligations.PlacedCommandRunsNext := by
  intro s i
  refine ⟨?_, rfl, rfl⟩
  rw [s.withFetchWord_encode]
  exact (stepRunsDecodedCommand.1 (issueNext s (encode i)) _ i rfl (decodeOfEncode i)).2 s.inputs rfl

/-- Settles O24: ILLEGAL is a fault of the turn itself, which completes the state it finds. -/
theorem illegalWordFaults : Obligations.IllegalWordFaults := by
  refine fun s p e hp hd => ⟨fun hi => ?default, fun rest hi => ?mpid⟩
  case default => rw [step_of_no_input hi, mpidTurn_illegal hp hd, s.complete_fault (by decide)]
  case mpid =>
    have hturn := mpidTurn_illegal (s := { s with inputs := rest }) hp hd
    rw [State.complete_fault _ (by decide)] at hturn
    exact (step_of_input hi).trans hturn

end Sys2Proof.Machine
end

section
/-!
PROOFS. The statements of spec/70_reset_and_hazards.md: the reset state and what it meets (R351), the two resets (R350),
the idle MPID (R352), and that a pending command ends by its completion or a reset, in bounded time (R311, R363).
-/

namespace Sys2Proof.Machine

/-! ## How a pending command ends (R311, R350, R363) -/

/-- Neither the MPID's turn nor an input, a reset included, changes the parameters or what is still to come. -/
structure State.KeepsWorld (s t : State) : Prop where
  cfg : t.cfg = s.cfg
  inputs : t.inputs = s.inputs

theorem mpidTurn_keepsWorld {s t : State} (h : mpidTurn s = .next t) : s.KeepsWorld t := by
  rcases mpidTurn_cases s with ⟨-, he⟩ | ⟨p, i, -, -, he⟩ | ⟨p, e, -, -, he⟩
  · cases he.symm.trans h
    exact ⟨rfl, rfl⟩
  · have hf := exec_frame (he.symm.trans h)
    exact ⟨hf.cfg, hf.inputs⟩
  · cases he.symm.trans h
    exact ⟨rfl, rfl⟩

theorem takeInput_keepsWorld {s t : State} {i : Input} (h : takeInput s i = .next t) : s.KeepsWorld t := by
  cases i with
  | read off be =>
    rw [readsHaveNoSideEffect.1 s t off be h]
    exact ⟨rfl, rfl⟩
  | write off be w =>
    rcases busWrite_cases s off be w with ⟨-, he⟩ | ⟨-, -, he⟩ | ⟨-, -, he⟩ <;> cases he.symm.trans h
    · exact ⟨rfl, rfl⟩
    · exact ⟨s.writeWord_cfg _ w, s.writeWord_inputs _ w⟩
  | mpid => exact mpidTurn_keepsWorld h
  | hwReset =>
    cases h
    exact ⟨rfl, rfl⟩

/-- The MPID's turn on a pending command executes what its word decodes to, or is the fault ILLEGAL (R302, R311). -/
theorem mpidTurn_completes {s t : State} {p : Pending} (hp : s.pending = some p) (h : mpidTurn s = .next t) :
    t.done = true ∧ ((∃ i, decode p.word = .ok i ∧ exec i s = .next t) ∨
      ((∃ e, decode p.word = .error e) ∧ t.ecode = .illegal ∧ t.err = true)) := by
  cases hd : decode p.word with
  | ok i =>
    have hx : exec i s = .next t := (mpidTurn_exec hp hd).symm.trans h
    exact ⟨exec_done hx, .inl ⟨i, rfl, hx⟩⟩
  | error e =>
    cases (mpidTurn_illegal hp hd).symm.trans h
    exact ⟨rfl, .inr ⟨⟨e, rfl⟩, rfl, Bool.or_true _⟩⟩

/-- Of all legal writes only one of CTRL with bit 1 set drops a pending command (R46, R81). -/
theorem State.writeWord_drops {s : State} {g : Target} {w : Word} (hp : s.pending ≠ none)
    (hn : (s.writeWord g w).pending = none) : g = .ctrl ∧ w.getLsbD 1 = true := by
  rcases s.writeWord_cases g w with ⟨-, -, he⟩ | he <;> rw [he] at hn
  · exact absurd hn hp
  · cases g with
    | ctrl =>
      cases hb : w.getLsbD 1 with
      | true => exact ⟨rfl, rfl⟩
      | false =>
        rw [State.writeTarget, State.writeCtrl_of_not_srst hb] at hn
        exact absurd hn hp
    | cmd => cases hn
    | id | status | arg0 | arg1 | result | header | limb | windowReserved | unmapped => exact absurd hn hp

/-- A bus write that drops a pending command is a soft reset. -/
theorem busWrite_drops {s t : State} {off : Nat} {be : BitVec 4} {w : Word} (hp : s.pending ≠ none)
    (hn : t.pending = none) (h : busWrite s off be w = .next t) : off = 0x004 ∧ be = 0xF ∧ w.getLsbD 1 = true := by
  rcases busWrite_cases s off be w with ⟨-, he⟩ | ⟨-, -, he⟩ | ⟨-, hl, he⟩ <;> cases he.symm.trans h
  · exact absurd hn hp
  · obtain ⟨hbe, h4⟩ := legalAccess_iff.mp hl
    obtain ⟨hg, hb⟩ := State.writeWord_drops hp hn
    exact ⟨controlTarget_eq_ctrl.mp (controlTarget_of_target h4 hg rfl (by decide)), hbe, hb⟩

/-- One step from a state whose inputs to come are inside the address space: the first is gone, the others remain. -/
theorem step_takes_input {s : State} {i : Input} {rest : List Input} (hs : s.inputsInSpace = true)
    (hi : s.inputs = i :: rest) : ∃ t, step s = .next t ∧ t.inputsInSpace = true ∧ t.inputs = rest := by
  obtain ⟨t, ht⟩ := stepNeverStopsInSpace.1 s hs
  have hk := takeInput_keepsWorld ((step_of_input hi).symm.trans ht)
  refine ⟨t, ht, ?_, hk.inputs⟩
  rw [State.inputsInSpace, hi, List.all_cons, Bool.and_eq_true] at hs
  rw [State.inputsInSpace, hk.inputs, hk.cfg]
  exact hs.2

/-- Once all inputs are taken, the turn that follows them leaves no command pending. -/
theorem run_past_inputs {s : State} {l : List Input} (hi : s.inputs = l) (hs : s.inputsInSpace = true) :
    ∃ t, core.run (l.length + 1) s = .next t ∧ t.pending = none := by
  induction l generalizing s with
  | nil =>
    obtain ⟨t, ht⟩ := mpidTurn_answers s
    exact ⟨t, run_succ 0 ((step_of_no_input hi).trans ht), mpidTurn_pending ht⟩
  | cons i rest ih =>
    obtain ⟨u, hu, hspace, hrest⟩ := step_takes_input hs hi
    obtain ⟨t, ht, hn⟩ := ih hrest hspace
    exact ⟨t, (run_succ _ hu).trans ht, hn⟩

/-- Settles O60: by the input that the step takes, and by induction on the inputs to come. -/
theorem acceptedCommandCompletes : Obligations.AcceptedCommandCompletes := by
  refine ⟨fun s t p hp h hn => ?ends, fun s hs => ⟨_, le_rfl, run_past_inputs rfl hs⟩⟩
  cases hi : s.inputs with
  | nil =>
    have hturn : mpidTurn s = .next t := (step_of_no_input hi).symm.trans h
    have hself : ({ s with inputs := t.inputs } : State) = s := by rw [(mpidTurn_keepsWorld hturn).inputs]
    rw [hself]
    exact .inl ⟨.inl rfl, mpidTurn_completes hp hturn⟩
  | cons i rest =>
    have hs : ({ s with inputs := rest } : State).pending ≠ none := by simp [hp]
    rw [step_of_input hi] at h
    cases i with
    | read off be => exact absurd ((busRead_holdsCommand h).pending.symm.trans hn) hs
    | write off be w =>
      obtain ⟨rfl, rfl, hb⟩ := busWrite_drops hs hn h
      exact .inr (.inr ⟨w, rest, rfl, hb⟩)
    | mpid =>
      have hrest : t.inputs = rest := (mpidTurn_keepsWorld h).inputs
      rw [hrest]
      exact .inl ⟨.inr rfl, mpidTurn_completes (s := { s with inputs := rest }) hp h⟩
    | hwReset => exact .inr (.inl ⟨rest, rfl⟩)

/-! ## The reset state, and the resets (R350, R351) -/

/-- The value of norm(0) is 0 (R31). -/
@[simp] theorem VReg.val_zero (cap : Nat) : (VReg.zero cap).val cap = 0 := by
  simp [VReg.val, VReg.mag, VReg.magLimbs, VReg.zero]

theorem limbAt_zero_limbs (cap j : Nat) : limbAt (VReg.zero cap).limbs j = 0 :=
  List.getD_eq_getElem?_getD.trans (List.getElem?_getD_replicate_default_eq 0 cap j)

/-- Settles O6: every register is norm(0), and STATUS and ID are read from the fields. -/
theorem resetValues : Obligations.ResetValues := by
  refine fun c _ => ⟨fun i => ?registers, rfl, rfl, rfl, rfl, rfl, statusRegister.2.2 c, rfl, rfl,
    (State.resetWith c).idWord_eq_ofNat⟩
  rw [State.val, State.readV_resetWith]
  exact ⟨rfl, rfl, fun j _ => limbAt_zero_limbs c.cap j, VReg.val_zero c.cap⟩

/-- Settles O7: both events are `State.resetNow`, and CTRL is never locked. -/
theorem resetEvents : Obligations.ResetEvents := by
  refine fun s rest => ⟨fun hi => step_of_input hi, fun w hw hi => ?soft⟩
  rw [step_of_input hi, takeInput, busWrite_ctrl, State.writeCtrl_of_srst hw]
  rfl

/-- Settles O9: a turn with no command pending leaves the state that it is given. -/
theorem idleMachineRests : Obligations.IdleMachineRests :=
  fun s hp => ⟨fun hi => (step_of_no_input hi).trans (mpidTurn_idle hp),
    fun rest hi => (step_of_input hi).trans (mpidTurn_idle (s := { s with inputs := rest }) hp)⟩

theorem State.wf_resetWith {c : Config} (hc : c.wf) : (State.resetWith c).wf :=
  ⟨hc, fun i => by rw [State.readV_resetWith]; exact List.length_replicate⟩

/-- Settles O55: norm(0) has CAP limbs and is valid, and no command is pending. -/
theorem resetMeetsInvariants : Obligations.ResetMeetsInvariants :=
  fun c hc => ⟨State.wf_resetWith hc, State.latchKept_of_idle rfl, (State.resetWith c).allValid_resetNow⟩

end Sys2Proof.Machine
end
